-- ==== Sys2Proof/Word.lean ====
section
/-! DEFINITION. The bit-vector types of the G10 (spec/00_scope.md R3, R4; spec/10_state.md R20 to R22). -/

namespace Sys2Proof

/-- A byte: the addressable unit and the `Ln`/`Hn` views (R22, R70). -/
abbrev Byte := BitVec 8

/-- A 16-bit value: the `Wn` view (R21). -/
abbrev Half := BitVec 16

/-- A 32-bit value: `Dn`, `PC`, `SP`, `IE`, `IRQ` and every address (R20, R25, R27). -/
abbrev Word := BitVec 32

/-- A built-in argument field of an opcode (R100). -/
abbrev Nibble := BitVec 4

/-- A general register number; all sixteen values are valid (R105). -/
abbrev Reg := Fin 16

end Sys2Proof
end

