-- ==== Sys2Proof/Config.lean ====
section
/-! DEFINITION. The fixed numbers of the G10 (spec/00_scope.md R3), the defaults of its open parameters, and the
free values: opaque constants, about whose values nothing can be proved. -/

namespace Sys2Proof.Config

/-- The open-bus value (R3, R76). -/
def openBus : Byte := 0xFF

/-- Base of the 64 KB quick-RAM window (R74). -/
def quickBase : Word := 0xFFFF0000

/-- Base of the 256-byte I/O-port window (R74). -/
def portBase : Word := 0xFFFFFF00

/-- Address of interrupt vector 0, the exception handler (R506). -/
def vectorBase : Word := 0x00001000

/-- Bytes per interrupt vector (R506). -/
def vectorStride : Nat := 0x80

/-- Number of interrupt vectors (R3). -/
def vectorCount : Nat := 32

/-- Default of `RESET_PC` (R3, R601, D30; log 4). -/
def defaultResetPc : Word := 0x00002000

/-- Default of `RESET_SP` (R3, R601, D30; log 4). -/
def defaultResetSp : Word := 0xFFFFFFFF

/-- Free value (log 8): what a device answers to the byte read numbered by the first argument at an address.
`some b` returns `b` (the open-bus value among them), `none` refuses the read (R76). -/
opaque deviceRead : Nat → Word → Option Byte

/-- Free value (log 8): whether a device takes (or silently ignores) the byte write numbered by the first argument;
`false` refuses it (R77). -/
opaque deviceAccepts : Nat → Word → Byte → Bool

/-- Free value (log 14): general register `r` after the hardware reset numbered by the first argument (R48, U6). -/
opaque resetRegister : Nat → Reg → Word

/-- Free value (log 14): the five flags `Z N H C V` (in that order, from index 0) after the hardware reset numbered
by the first argument (R48, U7). -/
opaque resetFlag : Nat → Fin 5 → Bool

/-- Free value (log 14): the contents of the RAM half after the hardware reset numbered by the first argument, as a
list of writes over open-bus bytes (R48, U8). -/
opaque resetRam : Nat → List Host.Cell

/-- Free value (DESIGN CHOICE, log 36): bits 2 to 0 of `FR`, which R29 does not describe and of which nothing may be assumed
(spec/91_not_in_source.md N1). -/
opaque frUndescribed : BitVec 3

end Sys2Proof.Config
end

