-- ==== Sys2Proof/Syntax.lean ====
section
/-! DEFINITION. The instructions of the G10: one constructor per row of spec/opcode_table.json, in the table's order
(spec/30_encoding.md R110). Execution conditions, bit numbers and `INT` vectors keep their whole field, because a value
outside the defined range is an instruction too: it raises `INVALID_ARGUMENT` (R112). -/

namespace Sys2Proof

/-- An instruction with its operands. `x`, `y`: register numbers of fields X and Y (R105); `c`: condition field (R106);
`b`: bit number (R107); `n`: vector number (R108); the rest: immediates (R104). -/
inductive Instr where
  -- 0x0***: CPU control (spec/40_cpu_control.md)
  /-- `NOP`, `0x0000` (R200). -/
  | nop
  /-- `STOP`, `0x0100` (R201). -/
  | stop
  /-- `HALT`, `0x0200` (R202). -/
  | halt
  /-- `DI`, `0x0300` (R203). -/
  | di
  /-- `EI`, `0x0400` (R204). -/
  | ei
  /-- `EII`, `0x0500` (R205). -/
  | eii
  /-- `DAA`, `0x0600` (R206). -/
  | daa
  /-- `SCF`, `0x0700` (R207). -/
  | scf
  /-- `CCF`, `0x0800` (R208). -/
  | ccf
  /-- `CLV`, `0x0900` (R209). -/
  | clv
  /-- `SEV`, `0x0A00` (R210). -/
  | sev
  -- 0x1***: 8-bit load, store, move (spec/41_load_store_8.md)
  /-- `LD LX, IMM8`, `0x10X0` (R220). -/
  | ldLImm (x : Reg) (imm : Byte)
  /-- `LD LX, [ADDR32]`, `0x11X0` (R221). -/
  | ldLAbs (x : Reg) (addr : Word)
  /-- `LD LX, [DY]`, `0x12XY` (R222). -/
  | ldLInd (x : Reg) (y : Reg)
  /-- `LDQ LX, [ADDR16]`, `0x13X0` (R223). -/
  | ldqLAbs (x : Reg) (off : Half)
  /-- `LDQ LX, [WY]`, `0x14XY` (R224). -/
  | ldqLInd (x : Reg) (y : Reg)
  /-- `LDP LX, [ADDR8]`, `0x15X0` (R225). -/
  | ldpLAbs (x : Reg) (off : Byte)
  /-- `LDP LX, [LY]`, `0x16XY` (R226). -/
  | ldpLInd (x : Reg) (y : Reg)
  /-- `ST [ADDR32], LY`, `0x170Y` (R227). -/
  | stAbsL (addr : Word) (y : Reg)
  /-- `ST [DX], LY`, `0x18XY` (R228). -/
  | stIndL (x : Reg) (y : Reg)
  /-- `STQ [ADDR16], LY`, `0x190Y` (R229). -/
  | stqAbsL (off : Half) (y : Reg)
  /-- `STQ [WX], LY`, `0x1AXY` (R230). -/
  | stqIndL (x : Reg) (y : Reg)
  /-- `STP [ADDR8], LY`, `0x1B0Y` (R231). -/
  | stpAbsL (off : Byte) (y : Reg)
  /-- `STP [LX], LY`, `0x1CXY` (R232). -/
  | stpIndL (x : Reg) (y : Reg)
  /-- `MV LX, LY`, `0x1DXY` (R233). -/
  | mvLL (x : Reg) (y : Reg)
  /-- `MV HX, LY`, `0x1EXY` (R234). -/
  | mvHL (x : Reg) (y : Reg)
  /-- `MV LX, HY`, `0x1FXY` (R235). -/
  | mvLH (x : Reg) (y : Reg)
  -- 0x2***: 16-bit load, store, move (spec/42_load_store_16.md)
  /-- `LD WX, IMM16`, `0x20X0` (R240). -/
  | ldWImm (x : Reg) (imm : Half)
  /-- `LD WX, [ADDR32]`, `0x21X0` (R241). -/
  | ldWAbs (x : Reg) (addr : Word)
  /-- `LD WX, [DY]`, `0x22XY` (R242). -/
  | ldWInd (x : Reg) (y : Reg)
  /-- `LDQ WX, [ADDR16]`, `0x23X0` (R243). -/
  | ldqWAbs (x : Reg) (off : Half)
  /-- `LDQ WX, [WY]`, `0x24XY` (R244). -/
  | ldqWInd (x : Reg) (y : Reg)
  /-- `ST [ADDR32], WY`, `0x270Y` (R245). -/
  | stAbsW (addr : Word) (y : Reg)
  /-- `ST [DX], WY`, `0x28XY` (R246). -/
  | stIndW (x : Reg) (y : Reg)
  /-- `STQ [ADDR16], WY`, `0x290Y` (R247). -/
  | stqAbsW (off : Half) (y : Reg)
  /-- `STQ [WX], WY`, `0x2AXY` (R248). -/
  | stqIndW (x : Reg) (y : Reg)
  /-- `MV WX, WY`, `0x2DXY` (R249). -/
  | mvWW (x : Reg) (y : Reg)
  /-- `MWH DX, WY`, `0x2EXY` (R250). -/
  | mwh (x : Reg) (y : Reg)
  /-- `MWL WX, DY`, `0x2FXY` (R251). -/
  | mwl (x : Reg) (y : Reg)
  -- 0x3***: 32-bit load, store, move and stack (spec/43_load_store_32_stack.md)
  /-- `LD DX, IMM32`, `0x30X0` (R260). -/
  | ldDImm (x : Reg) (imm : Word)
  /-- `LD DX, [ADDR32]`, `0x31X0` (R261). -/
  | ldDAbs (x : Reg) (addr : Word)
  /-- `LD DX, [DY]`, `0x32XY` (R262). -/
  | ldDInd (x : Reg) (y : Reg)
  /-- `LDQ DX, [ADDR16]`, `0x33X0` (R263). -/
  | ldqDAbs (x : Reg) (off : Half)
  /-- `LDQ DX, [WY]`, `0x34XY` (R264). -/
  | ldqDInd (x : Reg) (y : Reg)
  /-- `LSP IMM32`, `0x3500` (R265). -/
  | lsp (imm : Word)
  /-- `POP DX`, `0x36X0` (R266). -/
  | pop (x : Reg)
  /-- `ST [ADDR32], DY`, `0x370Y` (R267). -/
  | stAbsD (addr : Word) (y : Reg)
  /-- `ST [DX], DY`, `0x38XY` (R268). -/
  | stIndD (x : Reg) (y : Reg)
  /-- `STQ [ADDR16], DY`, `0x390Y` (R269). -/
  | stqAbsD (off : Half) (y : Reg)
  /-- `STQ [WX], DY`, `0x3AXY` (R270). -/
  | stqIndD (x : Reg) (y : Reg)
  /-- `SSP [ADDR32]`, `0x3B00` (R271). -/
  | ssp (addr : Word)
  /-- `PUSH DY`, `0x3C0Y` (R272). -/
  | push (y : Reg)
  /-- `MV DX, DY`, `0x3DXY` (R273). -/
  | mvDD (x : Reg) (y : Reg)
  /-- `SPO DX`, `0x3EX0` (R274). -/
  | spo (x : Reg)
  /-- `SPI DY`, `0x3F0Y` (R275). -/
  | spi (y : Reg)
  -- 0x4***: branching (spec/44_branch.md)
  /-- `JMP X, IMM32`, `0x40X0` (R281). -/
  | jmpImm (c : Nibble) (target : Word)
  /-- `JMP X, DY`, `0x41XY` (R282). -/
  | jmpReg (c : Nibble) (y : Reg)
  /-- `JPB X, SIMM16`, `0x42X0` (R283). -/
  | jpb (c : Nibble) (off : Half)
  /-- `CALL X, IMM32`, `0x43X0` (R284). -/
  | call (c : Nibble) (target : Word)
  /-- `INT XX`, `0x44XX` (R285). -/
  | int (n : Byte)
  /-- `RET X`, `0x45X0` (R286). -/
  | ret (c : Nibble)
  /-- `RETI`, `0x4600` (R287). -/
  | reti
  -- 0x5***: 8-bit arithmetic (spec/45_arith_8.md)
  /-- `ADD L0, IMM8`, `0x5000` (R302). -/
  | addLImm (imm : Byte)
  /-- `ADD L0, LY`, `0x510Y` (R303). -/
  | addLReg (y : Reg)
  /-- `ADD L0, [DY]`, `0x520Y` (R304). -/
  | addLInd (y : Reg)
  /-- `ADC L0, IMM8`, `0x5300` (R305). -/
  | adcLImm (imm : Byte)
  /-- `ADC L0, LY`, `0x540Y` (R306). -/
  | adcLReg (y : Reg)
  /-- `ADC L0, [DY]`, `0x550Y` (R307). -/
  | adcLInd (y : Reg)
  /-- `SUB L0, IMM8`, `0x5600` (R308). -/
  | subLImm (imm : Byte)
  /-- `SUB L0, LY`, `0x570Y` (R309). -/
  | subLReg (y : Reg)
  /-- `SUB L0, [DY]`, `0x580Y` (R310). -/
  | subLInd (y : Reg)
  /-- `SBC L0, IMM8`, `0x5900` (R311). -/
  | sbcLImm (imm : Byte)
  /-- `SBC L0, LY`, `0x5A0Y` (R312). -/
  | sbcLReg (y : Reg)
  /-- `SBC L0, [DY]`, `0x5B0Y` (R313). -/
  | sbcLInd (y : Reg)
  /-- `INC LX`, `0x5CX0` (R314). -/
  | incL (x : Reg)
  /-- `INC [DX]`, `0x5DX0` (R315). -/
  | incM (x : Reg)
  /-- `DEC LX`, `0x5EX0` (R316). -/
  | decL (x : Reg)
  /-- `DEC [DX]`, `0x5FX0` (R317). -/
  | decM (x : Reg)
  -- 0x6***: 16- and 32-bit arithmetic (spec/46_arith_16_32.md)
  /-- `ADD W0, IMM16`, `0x6000` (R330). -/
  | addWImm (imm : Half)
  /-- `ADD W0, WY`, `0x610Y` (R331). -/
  | addWReg (y : Reg)
  /-- `ADD D0, IMM32`, `0x6200` (R332). -/
  | addDImm (imm : Word)
  /-- `ADD D0, DY`, `0x630Y` (R333). -/
  | addDReg (y : Reg)
  /-- `SUB W0, IMM16`, `0x6400` (R334). -/
  | subWImm (imm : Half)
  /-- `SUB W0, WY`, `0x650Y` (R335). -/
  | subWReg (y : Reg)
  /-- `SUB D0, IMM32`, `0x6600` (R336). -/
  | subDImm (imm : Word)
  /-- `SUB D0, DY`, `0x670Y` (R337). -/
  | subDReg (y : Reg)
  /-- `INC WX`, `0x6CX0` (R338). -/
  | incW (x : Reg)
  /-- `INC DX`, `0x6DX0` (R339). -/
  | incD (x : Reg)
  /-- `DEC WX`, `0x6EX0` (R340). -/
  | decW (x : Reg)
  /-- `DEC DX`, `0x6FX0` (R341). -/
  | decD (x : Reg)
  -- 0x7***: 8-bit logic and compare (spec/47_logic_8.md)
  /-- `AND L0, IMM8`, `0x7000` (R350). -/
  | andImm (imm : Byte)
  /-- `AND L0, LY`, `0x710Y` (R351). -/
  | andReg (y : Reg)
  /-- `AND L0, [DY]`, `0x720Y` (R352). -/
  | andInd (y : Reg)
  /-- `OR L0, IMM8`, `0x7300` (R353). -/
  | orImm (imm : Byte)
  /-- `OR L0, LY`, `0x740Y` (R354). -/
  | orReg (y : Reg)
  /-- `OR L0, [DY]`, `0x750Y` (R355). -/
  | orInd (y : Reg)
  /-- `XOR L0, IMM8`, `0x7600` (R356). -/
  | xorImm (imm : Byte)
  /-- `XOR L0, LY`, `0x770Y` (R357). -/
  | xorReg (y : Reg)
  /-- `XOR L0, [DY]`, `0x780Y` (R358). -/
  | xorInd (y : Reg)
  /-- `NOT LX`, `0x79X0` (R359). -/
  | notL (x : Reg)
  /-- `NOT [DX]`, `0x7AX0` (R360). -/
  | notM (x : Reg)
  /-- `CMP L0, IMM8`, `0x7D00` (R361). -/
  | cmpImm (imm : Byte)
  /-- `CMP L0, LY`, `0x7E0Y` (R362). -/
  | cmpReg (y : Reg)
  /-- `CMP L0, [DY]`, `0x7F0Y` (R363). -/
  | cmpInd (y : Reg)
  -- 0x8***: shifts and swaps (spec/48_shift_swap_rotate.md)
  /-- `SLA LX`, `0x80X0` (R371). -/
  | slaL (x : Reg)
  /-- `SLA [DX]`, `0x81X0` (R372). -/
  | slaM (x : Reg)
  /-- `SRA LX`, `0x82X0` (R373). -/
  | sraL (x : Reg)
  /-- `SRA [DX]`, `0x83X0` (R374). -/
  | sraM (x : Reg)
  /-- `SRL LX`, `0x84X0` (R375). -/
  | srlL (x : Reg)
  /-- `SRL [DX]`, `0x85X0` (R376). -/
  | srlM (x : Reg)
  /-- `SWAP LX`, `0x86X0` (R377). -/
  | swapL (x : Reg)
  /-- `SWAP [DX]`, `0x87X0` (R378). -/
  | swapM (x : Reg)
  /-- `SWAP WX`, `0x88X0` (R379). -/
  | swapW (x : Reg)
  /-- `SWAP DX`, `0x89X0` (R380). -/
  | swapD (x : Reg)
  -- 0x9***: rotates (spec/48_shift_swap_rotate.md)
  /-- `RLA`, `0x9000` (R381). -/
  | rla
  /-- `RL LX`, `0x91X0` (R382). -/
  | rlL (x : Reg)
  /-- `RL [DX]`, `0x92X0` (R383). -/
  | rlM (x : Reg)
  /-- `RLCA`, `0x9300` (R384). -/
  | rlca
  /-- `RLC LX`, `0x94X0` (R385). -/
  | rlcL (x : Reg)
  /-- `RLC [DX]`, `0x95X0` (R386). -/
  | rlcM (x : Reg)
  /-- `RRA`, `0x9600` (R387). -/
  | rra
  /-- `RR LX`, `0x97X0` (R388). -/
  | rrL (x : Reg)
  /-- `RR [DX]`, `0x98X0` (R389). -/
  | rrM (x : Reg)
  /-- `RRCA`, `0x9900` (R390). -/
  | rrca
  /-- `RRC LX`, `0x9AX0` (R391). -/
  | rrcL (x : Reg)
  /-- `RRC [DX]`, `0x9BX0` (R392). -/
  | rrcM (x : Reg)
  -- 0xA***: bit test and manipulation (spec/49_bit_test.md)
  /-- `BIT Y, LX`, `0xA0XY` (R401). -/
  | bitL (x : Reg) (b : Nibble)
  /-- `BIT Y, [DX]`, `0xA1XY` (R402). -/
  | bitM (x : Reg) (b : Nibble)
  /-- `SET Y, LX`, `0xA2XY` (R403). -/
  | setL (x : Reg) (b : Nibble)
  /-- `SET Y, [DX]`, `0xA3XY` (R404). -/
  | setM (x : Reg) (b : Nibble)
  /-- `RES Y, LX`, `0xA4XY` (R405). -/
  | resL (x : Reg) (b : Nibble)
  /-- `RES Y, [DX]`, `0xA5XY` (R406). -/
  | resM (x : Reg) (b : Nibble)
  /-- `TOG Y, LX`, `0xA6XY` (R407). -/
  | togL (x : Reg) (b : Nibble)
  /-- `TOG Y, [DX]`, `0xA7XY` (R408). -/
  | togM (x : Reg) (b : Nibble)
deriving DecidableEq, Repr

end Sys2Proof
end

