-- ==== Sys2Proof/Machine/State.lean ====
section
/-! DEFINITION. Everything the spec gives the machine (spec/10_state.md), the platform it sits in
(spec/00_scope.md R3), what the environment still has to do to it (R11), and the state after reset (R48). -/

namespace Sys2Proof.Machine

/-- The five flags of `FR` (R29 to R34). -/
structure Flags where
  /-- Zero (R30). -/
  z : Bool
  /-- Negative, also called Subtract (R31). -/
  n : Bool
  /-- Half-Carry (R32). -/
  h : Bool
  /-- Carry or borrow (R33). -/
  c : Bool
  /-- Overflow (R34). -/
  v : Bool
deriving DecidableEq, Repr

/-- The exceptions, by name (R509). -/
inductive Exc where
  | ok | invalidInstruction | invalidArgument | invalidReadAccess | invalidWriteAccess | invalidExecuteAccess
  | divideByZero | stackOverflow | stackUnderflow | hardwareError | doubleFault
deriving DecidableEq, Repr

/-- The system registers a platform may map into the address space (`SYSREG_MAP`, R3, D26). -/
inductive SysReg where
  | ie | irq | ec
deriving DecidableEq, Repr

/-- How the virtual hardware answers a byte read (R76): the byte in memory, the open-bus value, `INVALID_READ_ACCESS`,
a device's own answer (a free value, log 8), or a byte of a system register (log 9). -/
inductive ReadPolicy where
  | memory | openBus | refuse | device
  | sysReg (r : SysReg)
deriving DecidableEq, Repr

/-- How the virtual hardware answers a byte write that passed the CPU's own check (R77): stored, ignored,
`INVALID_WRITE_ACCESS`, a device's own answer (log 8), or a byte of a system register (log 9). -/
inductive WritePolicy where
  | memory | ignore | refuse | device
  | sysReg (r : SysReg)
deriving DecidableEq, Repr

/-- A range of addresses, both ends included, and how the virtual hardware answers there (log 7). -/
structure BusRegion where
  first : Word
  last : Word
  onRead : ReadPolicy
  onWrite : WritePolicy
deriving DecidableEq, Repr

/-- The open parameters of the spec but for the environment's moves (R3): `RESET_PC`, `RESET_SP`, `STRICT_FIELDS`,
and `Bus` with `SYSREG_MAP` as a list of regions, the first that holds an address deciding, plain memory elsewhere. -/
structure Platform where
  resetPc : Word
  resetSp : Word
  strictFields : Bool
  bus : List BusRegion
deriving DecidableEq, Repr

/-- A move of the environment (R11, R525). -/
inductive EnvMove where
  /-- Sets bit `i` of `IRQ` (R525 b). -/
  | requestIrq (i : Fin 32)
  /-- Writes `IE`, bit 0 forced to 1 (R525 c, R40). -/
  | writeIe (v : Word)
  /-- Raises an exception code (R525 d). -/
  | raise (code : Byte)
  /-- Clears the Stop flag (R525 e). -/
  | clearStop
  /-- The hardware reset (R525 f, R600). -/
  | reset
  /-- Changes a byte of memory the environment owns: the program image, a device's contents (R525 g, R11). -/
  | pokeByte (a : Word) (b : Byte)
  /-- Changes how the bus answers from now on (R525 g, R86). -/
  | remapBus (bus : List BusRegion)
deriving DecidableEq, Repr

/-- Memory: the bytes that differ from what an unlisted address reads as, by address, strictly rising (log 3). -/
abbrev Memory := List Host.Cell

/-- The state of the machine. -/
structure State where
  /-- `D0` to `D15` (R20). -/
  d : Vector Word 16
  /-- The program counter (R25). -/
  pc : Word
  /-- The stack pointer; bit 31 always 1 (R27, R28). -/
  sp : Word
  /-- The flags of `FR` (R29). -/
  flags : Flags
  /-- The Stop flag (R36). -/
  stopf : Bool
  /-- The Halt flag (R37). -/
  haltf : Bool
  /-- Interrupt Master Enable (R38). -/
  ime : Bool
  /-- Interrupt Master Pending (R39). -/
  imp : Bool
  /-- The Double Fault flag (R43). -/
  df : Bool
  /-- Interrupt Enable; bit 0 always 1 (R40). -/
  ie : Word
  /-- Interrupt Request (R41). -/
  irq : Word
  /-- Exception Code (R42). -/
  ec : Byte
  /-- The memory behind the bus (R46). -/
  mem : Memory
  /-- The open parameters of the spec (R3). -/
  platform : Platform
  /-- The environment's moves still to come: one batch delivered before each frame (R525, D27; log 10). -/
  env : List (List EnvMove)
  /-- THE MODEL'S OWN, not the spec's: numbers the free values (log 15). -/
  fresh : Nat
deriving DecidableEq, Repr

/-- No step ends in a fault: every error the spec describes is an exception whose entry it describes (R510), and there
is no address that does not exist (R70). -/
inductive Fault where
deriving DecidableEq, Repr

/-- Why a step is refused. -/
inductive Refusal where
  /-- An instruction without a meaning, by mnemonic. Raised by no arm of `exec` (safe). -/
  | notModelled (mnemonic : String)
  /-- The parameter `STRICT_FIELDS` is set and an opcode has a non-zero unused field: raised by `step`, never with the
  default parameters (safe; R109, D7, log 19). -/
  | unusedField
  /-- The environment raises one of the codes `0x0B` to `0xFF`, which have no meaning: raised by `step` on delivering the
  environment's moves, never by an instruction (safe; R522, D36, log 12). -/
  | undefinedExceptionCode (code : Byte)
deriving DecidableEq, Repr

/-- The default parameters (R3, D13, D26, D30): every address plain memory, no system register mapped. -/
def Platform.default : Platform :=
  { resetPc := Config.defaultResetPc, resetSp := Config.defaultResetSp, strictFields := false, bus := [] }

/-- The machine right after reset (R48). `D0` to `D15` and the flags, which the spec leaves unspecified, are zero
(DESIGN CHOICE, log 1 and 2: unsafe); nothing is listed in memory (log 3); the environment makes no moves. -/
def State.reset : State :=
  { d := Vector.replicate 16 0
    pc := Config.defaultResetPc
    sp := Config.defaultResetSp
    flags := { z := false, n := false, h := false, c := false, v := false }
    stopf := false
    haltf := false
    ime := false
    imp := false
    df := false
    ie := 0x00000001
    irq := 0x00000000
    ec := 0x00
    mem := []
    platform := Platform.default
    env := []
    fresh := 0 }

end Sys2Proof.Machine
end

