-- ==== Sys2Proof/Machine/Flags.lean ====
section
/-! DEFINITION. Every flag computation of the spec (spec/10_state.md R29 to R35; spec/45_arith_8.md R300, R301; the
instruction rules of spec/40_cpu_control.md and spec/45 to 49). An operation takes the flags before it and answers its
result with all five flags after it. -/

namespace Sys2Proof.Machine

/-- `FR` as a byte: Z in bit 7, N in 6, H in 5, C in 4, V in 3 (R29, D3; log 17). The spec does not describe bits 2 to 0 (R29) and
warns against assuming that they read as zero (N1): DESIGN CHOICE (log 36), they are a free value. -/
def Flags.toByte (f : Flags) : Byte :=
  BitVec.ofBool f.z ++ BitVec.ofBool f.n ++ BitVec.ofBool f.h ++ BitVec.ofBool f.c ++ BitVec.ofBool f.v ++
    Config.frUndescribed

/-- An operation on two operands. -/
abbrev Binary (w : Nat) := Flags → BitVec w → BitVec w → BitVec w × Flags
/-- An operation on one operand. -/
abbrev Unary (w : Nat) := Flags → BitVec w → BitVec w × Flags

/-! ### Addition and subtraction -/

/-- `AddN(a, b, c, w)` (R300, D25; log 30). -/
def addN {w : Nat} (a b : BitVec w) (c : Bool) : BitVec w × Flags :=
  let full := a.toNat + b.toNat + c.toNat
  let half := a.toNat % 2 ^ (w - 4) + b.toNat % 2 ^ (w - 4) + c.toNat
  let r := BitVec.ofNat w full
  (r, { z := r = 0
        n := false
        h := 2 ^ (w - 4) ≤ half
        c := 2 ^ w ≤ full
        v := (~~~(a ^^^ b) &&& (a ^^^ r)).msb })

/-- `SubN(a, b, c, w)` (R301, D25; log 30); `C` and `H` are borrows. -/
def subN {w : Nat} (a b : BitVec w) (c : Bool) : BitVec w × Flags :=
  let r := a - b - BitVec.ofNat w c.toNat
  (r, { z := r = 0
        n := true
        h := a.toNat % 2 ^ (w - 4) < b.toNat % 2 ^ (w - 4) + c.toNat
        c := a.toNat < b.toNat + c.toNat
        v := ((a ^^^ b) &&& (a ^^^ r)).msb })

/-- `ADD` (R302 to R304, R330 to R333). -/
def aluAdd {w : Nat} : Binary w := fun _ a b => addN a b false
/-- `ADC` (R305 to R307): the Carry flag comes in. -/
def aluAdc {w : Nat} : Binary w := fun f a b => addN a b f.c
/-- `SUB` (R308 to R310, R334 to R337). -/
def aluSub {w : Nat} : Binary w := fun _ a b => subN a b false
/-- `SBC` (R311 to R313): the Carry flag comes in as a borrow. -/
def aluSbc {w : Nat} : Binary w := fun f a b => subN a b f.c

/-- `INC` on a byte (R314, R315): `C` is not written. -/
def aluInc8 : Unary 8 := fun f v => ((addN v 1 false).1, { (addN v 1 false).2 with c := f.c })
/-- `DEC` on a byte (R316, R317): `C` is not written. -/
def aluDec8 : Unary 8 := fun f v => ((subN v 1 false).1, { (subN v 1 false).2 with c := f.c })
/-- `INC` on 16 or 32 bits (R338, R339): neither `C` nor `V` is written. -/
def aluIncWide {w : Nat} : Unary w := fun f v =>
  ((addN v 1 false).1, { (addN v 1 false).2 with c := f.c, v := f.v })
/-- `DEC` on 16 or 32 bits (R340, R341): neither `C` nor `V` is written. -/
def aluDecWide {w : Nat} : Unary w := fun f v =>
  ((subN v 1 false).1, { (subN v 1 false).2 with c := f.c, v := f.v })

/-! ### Logic (R350 to R360) -/

/-- `AND`: flags `?0100`. -/
def aluAnd : Binary 8 := fun _ a b => (a &&& b, { z := a &&& b = 0, n := false, h := true, c := false, v := false })
/-- `OR`: flags `?0000`. -/
def aluOr : Binary 8 := fun _ a b => (a ||| b, { z := a ||| b = 0, n := false, h := false, c := false, v := false })
/-- `XOR`: flags `?0000`. -/
def aluXor : Binary 8 := fun _ a b => (a ^^^ b, { z := a ^^^ b = 0, n := false, h := false, c := false, v := false })
/-- `NOT`: flags `-11-0`; `Z` and `C` are not written. -/
def aluNot : Unary 8 := fun f v => (~~~v, { f with n := true, h := true, v := false })

/-! ### Shifts, swaps and rotates (R370 to R392) -/

/-- The flags of a shift, swap or rotate: `Z` from the result, `N` and `H` cleared, `C` the bit shifted out, `V` kept. -/
def shiftFlags {w : Nat} (f : Flags) (r : BitVec w) (out : Bool) : Flags :=
  { f with z := r = 0, n := false, h := false, c := out }

/-- `SLA` (R371): bit 0 becomes 0, bit 7 goes to `C`. -/
def aluSla : Unary 8 := fun f v => (v <<< 1, shiftFlags f (v <<< 1) (v.getLsbD 7))
/-- `SRA` (R373): bit 7 keeps its value, bit 0 goes to `C`. -/
def aluSra : Unary 8 := fun f v => (v.sshiftRight 1, shiftFlags f (v.sshiftRight 1) (v.getLsbD 0))
/-- `SRL` (R375): bit 7 becomes 0, bit 0 goes to `C`. -/
def aluSrl : Unary 8 := fun f v => (v >>> 1, shiftFlags f (v >>> 1) (v.getLsbD 0))

/-- The two halves of a value of `2 * k` bits exchanged. -/
def swapHalves (k : Nat) (v : BitVec (k + k)) : BitVec (k + k) := v.extractLsb' 0 k ++ v.extractLsb' k k
/-- `SWAP` (R377 to R380): the halves exchanged, `C` cleared. -/
def aluSwap (k : Nat) : Unary (k + k) := fun f v => (swapHalves k v, shiftFlags f (swapHalves k v) false)

/-- One place to the left, a bit coming in at bit 0. -/
def shiftInLow (v : Byte) (b : Bool) : Byte := v.extractLsb' 0 7 ++ BitVec.ofBool b
/-- One place to the right, a bit coming in at bit 7. -/
def shiftInHigh (b : Bool) (v : Byte) : Byte := BitVec.ofBool b ++ v.extractLsb' 1 7

/-- `RL` (R382): left through the Carry flag. -/
def aluRl : Unary 8 := fun f v => (shiftInLow v f.c, shiftFlags f (shiftInLow v f.c) (v.getLsbD 7))
/-- `RLC` (R385): left, bit 7 into bit 0. -/
def aluRlc : Unary 8 := fun f v => (shiftInLow v (v.getLsbD 7), shiftFlags f (shiftInLow v (v.getLsbD 7)) (v.getLsbD 7))
/-- `RR` (R388): right through the Carry flag. -/
def aluRr : Unary 8 := fun f v => (shiftInHigh f.c v, shiftFlags f (shiftInHigh f.c v) (v.getLsbD 0))
/-- `RRC` (R391, D32; log 31): right, bit 0 into bit 7. -/
def aluRrc : Unary 8 := fun f v => (shiftInHigh (v.getLsbD 0) v, shiftFlags f (shiftInHigh (v.getLsbD 0) v) (v.getLsbD 0))

/-- The accumulator form of a rotate (R381, R384, R387, R390): `Z` is always cleared. -/
def clearZ (op : Unary 8) : Unary 8 := fun f v => ((op f v).1, { (op f v).2 with z := false })

/-! ### Bits (R400 to R408) -/

/-- The byte with only bit `b` set. -/
def bitMask (b : Nibble) : Byte := 1 <<< b.toNat
/-- `SET`: no flags. -/
def aluSetBit (b : Nibble) : Unary 8 := fun f v => (v ||| bitMask b, f)
/-- `RES`: no flags. -/
def aluResBit (b : Nibble) : Unary 8 := fun f v => (v &&& ~~~bitMask b, f)
/-- `TOG`: no flags. -/
def aluTogBit (b : Nibble) : Unary 8 := fun f v => (v ^^^ bitMask b, f)
/-- The flags of `BIT` (R401): `?01--`, `Z` the complement of the tested bit. -/
def bitTestFlags (f : Flags) (v : Byte) (b : Nibble) : Flags := { f with z := !v.getLsbD b.toNat, n := false, h := true }

/-! ### Decimal adjustment and the flag instructions (R206 to R210) -/

/-- `DAA` (R206): the adjustment of the Sharp LR35902, which the spec supplies from outside its source (D31; PRESUMED,
log 16). `N` and `V` are not written, `H` is cleared. -/
def aluDaa : Unary 8 := fun f a =>
  let high := f.c || decide (0x99 < a.toNat)
  let low := f.h || decide (0x09 < a.toNat % 16)
  let r : Byte :=
    if f.n then a - (if f.c then 0x60 else 0) - (if f.h then 0x06 else 0)
    else a + (if high then 0x60 else 0) + (if low then 0x06 else 0)
  (r, { f with z := r = 0, h := false, c := if f.n then f.c else high })

/-- `SCF` (R207): `-001-`. -/
def Flags.setCarry (f : Flags) : Flags := { f with n := false, h := false, c := true }
/-- `CCF` (R208): `-00?-`, the Carry flag complemented. -/
def Flags.complementCarry (f : Flags) : Flags := { f with n := false, h := false, c := !f.c }
/-- `CLV` and `SEV` (R209, R210): only `V` is written. -/
def Flags.writeOverflow (f : Flags) (v : Bool) : Flags := { f with v := v }

end Sys2Proof.Machine
end

