-- ==== Sys2Proof/Machine/Bytes.lean ====
section
/-! DEFINITION. Byte order, once for the whole machine: little-endian (spec/20_memory.md R91). -/

namespace Sys2Proof

/-- Byte `k` of a value, byte 0 being the least significant. -/
def byteAt {w : Nat} (v : BitVec w) (k : Nat) : Byte := v.extractLsb' (8 * k) 8

/-- The two bytes of a 16-bit value in ascending address order. -/
def halfBytes (v : Half) : List Byte := [byteAt v 0, byteAt v 1]

/-- The four bytes of a 32-bit value in ascending address order. -/
def wordBytes (v : Word) : List Byte := [byteAt v 0, byteAt v 1, byteAt v 2, byteAt v 3]

/-- The value of at most four bytes in ascending address order, zero-extended to 32 bits. -/
def joinBytes (bytes : List Byte) : Word :=
  match bytes with
  | [] => 0
  | b :: rest => (joinBytes rest).setWidth 24 ++ b

/-- A 16-bit value from its high and its low byte. -/
def joinHalf (b1 b0 : Byte) : Half := b1 ++ b0

/-- A 32-bit value from its bytes, the most significant first. -/
def joinWord (b3 b2 b1 b0 : Byte) : Word := b3 ++ b2 ++ b1 ++ b0

end Sys2Proof
end

