-- ==== Sys2Proof/Machine/Memory.lean ====
section
/-! DEFINITION. Memory as plain data in one canonical form: addresses strictly rising and below `2^32`, no entry equal to
what an unlisted address reads as (spec/10_state.md R46, spec/20_memory.md R70; log 3). -/

namespace Sys2Proof.Machine

/-- What an address reads as that memory does not list: `0xFF`. For the ROM half that is the spec's default (D13, U8);
for the RAM half after reset it is the model's (DESIGN CHOICE, log 3: unsafe). -/
def Memory.unlisted : Byte := Config.openBus

/-- The byte at an address. -/
def Memory.read (m : Memory) (a : Nat) : Byte :=
  match m with
  | [] => Memory.unlisted
  | (k, b) :: rest => if a < k then Memory.unlisted else if a = k then b else Memory.read rest a

/-- Puts an entry at the head, unless it says what an unlisted address reads as. -/
def Memory.cons (a : Nat) (b : Byte) (m : Memory) : Memory :=
  if b = Memory.unlisted then m else (a, b) :: m

/-- Writes a byte, keeping the canonical form. -/
def Memory.write (m : Memory) (a : Nat) (b : Byte) : Memory :=
  match m with
  | [] => Memory.cons a b []
  | (k, c) :: rest =>
    if a < k then Memory.cons a b ((k, c) :: rest)
    else if a = k then Memory.cons a b rest
    else (k, c) :: Memory.write rest a b

/-- The canonical form, for a list whose addresses are all at least `low`. -/
def Memory.wfFrom (low : Nat) (m : Memory) : Bool :=
  match m with
  | [] => true
  | (k, b) :: rest => decide (low ≤ k ∧ k < 2 ^ 32 ∧ b ≠ Memory.unlisted) && Memory.wfFrom (k + 1) rest

/-- The canonical form. -/
def Memory.wf (m : Memory) : Bool := Memory.wfFrom 0 m

/-- The entries of the ROM half, addresses with bit 31 clear (R72). -/
def Memory.romHalf (m : Memory) : Memory := m.filter fun cell => cell.1 < 2 ^ 31

/-- Writes of which only those to the RAM half count, addresses with bit 31 set (R72). -/
def Memory.writeRam (m : Memory) (cells : List Host.Cell) : Memory :=
  match cells with
  | [] => m
  | (a, b) :: rest => Memory.writeRam (if 2 ^ 31 ≤ a ∧ a < 2 ^ 32 then Memory.write m a b else m) rest

end Sys2Proof.Machine
end

