-- ==== Sys2Proof/Machine/Ops.lean ====
section
/-! DEFINITION. The named operations over registers, memory and the stack, taking an exception, and the return from
one (spec/10_state.md, spec/20_memory.md, spec/60_exceptions.md). -/

namespace Sys2Proof.Machine

/-- How a piece of an instruction ends (R6): in a value and a state, or raising an exception, in which case the state
holds everything written before the raise (R524). -/
inductive Result (α : Type) where
  | done (a : α) (s : State)
  | raised (e : Exc) (s : State)
deriving DecidableEq, Repr

/-- A piece of an instruction. -/
abbrev Act (α : Type) := State → Result α

/-- Nothing but a value. -/
def Act.pure {α : Type} (a : α) : Act α := fun s => .done a s

/-- One piece, then another that takes its value; an exception in the first ends both (R6). -/
def Act.bind {α β : Type} (x : Act α) (f : α → Act β) : Act β := fun s =>
  match x s with
  | .done a t => f a t
  | .raised e t => .raised e t

/-- One piece, then another. -/
def Act.then {α β : Type} (x : Act α) (y : Act β) : Act β := Act.bind x fun _ => y

/-! ### Registers (R20 to R23) -/

/-- `D[n]`. -/
def State.getD (s : State) (n : Reg) : Word := s.d[n]
/-- `W[n] = D[n][15:0]` (R21). -/
def State.getW (s : State) (n : Reg) : Half := (s.getD n).extractLsb' 0 16
/-- `L[n] = D[n][7:0]` (R22, D2; log 17). -/
def State.getL (s : State) (n : Reg) : Byte := (s.getD n).extractLsb' 0 8
/-- `H[n] = D[n][15:8]` (R22, D2; log 17). -/
def State.getH (s : State) (n : Reg) : Byte := (s.getD n).extractLsb' 8 8

/-- `D[n] <- v`. -/
def State.setD (s : State) (n : Reg) (v : Word) : State := { s with d := s.d.set n v }
/-- `W[n] <- v`: bits 31-16 keep their value (R23, D4; log 17). -/
def State.setW (s : State) (n : Reg) (v : Half) : State := s.setD n ((s.getD n).extractLsb' 16 16 ++ v)
/-- `L[n] <- v`: bits 31-8 keep their value (R23). -/
def State.setL (s : State) (n : Reg) (v : Byte) : State := s.setD n ((s.getD n).extractLsb' 8 24 ++ v)
/-- `H[n] <- v`: bits 31-16 and 7-0 keep their value (R23). -/
def State.setH (s : State) (n : Reg) (v : Byte) : State :=
  s.setD n ((s.getD n).extractLsb' 16 16 ++ v ++ (s.getD n).extractLsb' 0 8)

/-- `PC <- v`. -/
def State.setPc (s : State) (v : Word) : State := { s with pc := v }
/-- A value with bit 31 set, as every value written to `SP` is (R28, D14; log 22). -/
def stackAddress (v : Word) : Word := v ||| 0x80000000
/-- `SP <- v` (R28). -/
def State.setSp (s : State) (v : Word) : State := { s with sp := stackAddress v }
/-- The flags as a whole. -/
def State.setFlags (s : State) (f : Flags) : State := { s with flags := f }
/-- `IE <- v`: bit 0 is hard-wired to 1 (R40, D43; log 30). -/
def State.setIe (s : State) (v : Word) : State := { s with ie := v ||| 0x00000001 }

/-- The memory as a whole. -/
def State.setMem (s : State) (m : Memory) : State := { s with mem := m }

/-- A step of a meaning that only changes the state. -/
def update (f : State → State) : Act Unit := fun s => .done () (f s)
/-- `raise e` (R6): the rest of the instruction does not happen. -/
def raising {α : Type} (e : Exc) : Act α := fun s => .raised e s

/-! ### The bus (R76, R77) -/

/-- The first region of the bus map that holds an address (log 7). -/
def Platform.region (p : Platform) (a : Word) : Option BusRegion :=
  p.bus.find? fun r => r.first ≤ a && a ≤ r.last

/-- How the bus answers a read at an address (R76). -/
def Platform.readPolicy (p : Platform) (a : Word) : ReadPolicy :=
  match p.region a with
  | some r => r.onRead
  | none => .memory

/-- How the bus answers a write at an address (R77). -/
def Platform.writePolicy (p : Platform) (a : Word) : WritePolicy :=
  match p.region a with
  | some r => r.onWrite
  | none => .memory

/-- Which byte of a mapped system register lies at an address: the distance from the region's first address (log 9). -/
def Platform.regionOffset (p : Platform) (a : Word) : Nat :=
  match p.region a with
  | some r => (a - r.first).toNat
  | none => 0

/-- Byte `k` of a mapped system register, little-endian; open bus past its end (log 9). -/
def State.sysRegByte (s : State) (r : SysReg) (k : Nat) : Byte :=
  match r with
  | .ie => if k < 4 then byteAt s.ie k else Config.openBus
  | .irq => if k < 4 then byteAt s.irq k else Config.openBus
  | .ec => if k = 0 then s.ec else Config.openBus

/-- A 32-bit value with byte `k` replaced. -/
def replaceByte (v : Word) (k : Nat) (b : Byte) : Word :=
  (v &&& ~~~((0xFF : Word) <<< (8 * k))) ||| (b.setWidth 32 <<< (8 * k))

/-- A byte write to a mapped system register: `IE` keeps bit 0 set, `EC` and bytes past the end ignore it (log 9). -/
def State.setSysRegByte (s : State) (r : SysReg) (k : Nat) (b : Byte) : State :=
  match r with
  | .ie => if k < 4 then s.setIe (replaceByte s.ie k b) else s
  | .irq => if k < 4 then { s with irq := replaceByte s.irq k b } else s
  | .ec => s

/-- What a read at an address answers where no device does: a byte, or `none` where the read is refused (R76). -/
def State.peek (s : State) (a : Word) : Option Byte :=
  match s.platform.readPolicy a with
  | .memory => some (s.mem.read a.toNat)
  | .openBus => some Config.openBus
  | .refuse => none
  | .device => none
  | .sysReg r => some (s.sysRegByte r (s.platform.regionOffset a))

/-- `BusRead(a)` (R76). The CPU makes no check of its own. -/
def busRead (a : Word) : Act Byte := fun s =>
  if s.platform.readPolicy a = .device then
    match Config.deviceRead s.fresh a with
    | some b => .done b { s with fresh := s.fresh + 1 }
    | none => .raised .invalidReadAccess { s with fresh := s.fresh + 1 }
  else
    match s.peek a with
    | some b => .done b s
    | none => .raised .invalidReadAccess s

/-- Bit 31 of an address: set in the RAM half, the only half the CPU may write (R72). -/
def writable (a : Word) : Bool := a.msb

/-- `BusWrite(a, b)` (R77): the CPU's own check first, then the virtual hardware's answer. -/
def busWrite (a : Word) (b : Byte) : Act Unit := fun s =>
  if writable a then
    match s.platform.writePolicy a with
    | .memory => .done () (s.setMem (s.mem.write a.toNat b))
    | .ignore => .done () s
    | .refuse => .raised .invalidWriteAccess s
    | .device =>
      if Config.deviceAccepts s.fresh a b then .done () { s with fresh := s.fresh + 1 }
      else .raised .invalidWriteAccess { s with fresh := s.fresh + 1 }
    | .sysReg r => .done () (s.setSysRegByte r (s.platform.regionOffset a) b)
  else .raised .invalidWriteAccess s

/-! ### Data accesses (R78, R79; log 21): bytes at ascending addresses modulo `2^32`, no alignment -/

/-- `MemRead(a, 1)`. -/
def memRead8 (a : Word) : Act Byte := busRead a

/-- `MemRead(a, 2)`. -/
def memRead16 (a : Word) : Act Half :=
  Act.bind (busRead a) fun b0 =>
  Act.bind (busRead (a + 1)) fun b1 =>
  Act.pure (joinHalf b1 b0)

/-- `MemRead(a, 4)`. -/
def memRead32 (a : Word) : Act Word :=
  Act.bind (busRead a) fun b0 =>
  Act.bind (busRead (a + 1)) fun b1 =>
  Act.bind (busRead (a + 2)) fun b2 =>
  Act.bind (busRead (a + 3)) fun b3 =>
  Act.pure (joinWord b3 b2 b1 b0)

/-- `MemWrite(a, 1, v)`. -/
def memWrite8 (a : Word) (v : Byte) : Act Unit := busWrite a v

/-- `MemWrite(a, 2, v)`. -/
def memWrite16 (a : Word) (v : Half) : Act Unit :=
  Act.then (busWrite a (byteAt v 0)) <|
  busWrite (a + 1) (byteAt v 1)

/-- `MemWrite(a, 4, v)`. -/
def memWrite32 (a : Word) (v : Word) : Act Unit :=
  Act.then (busWrite a (byteAt v 0)) <|
  Act.then (busWrite (a + 1) (byteAt v 1)) <|
  Act.then (busWrite (a + 2) (byteAt v 2)) <|
  busWrite (a + 3) (byteAt v 3)

/-! ### The stack (R83, R84; log 22, 23) -/

/-- One byte of a push: `SP` is decremented first, and keeps the decrement if the write is refused, which is
reported as `STACK_OVERFLOW`. -/
def pushByte (b : Byte) : Act Unit := fun s =>
  let t := s.setSp (s.sp - 1)
  match busWrite t.sp b t with
  | .done _ u => .done () u
  | .raised _ u => .raised .stackOverflow u

/-- `Push32(v)`: the most significant byte first, at descending addresses. -/
def push32 (v : Word) : Act Unit :=
  Act.then (pushByte (byteAt v 3)) <|
  Act.then (pushByte (byteAt v 2)) <|
  Act.then (pushByte (byteAt v 1)) <|
  pushByte (byteAt v 0)

/-- One byte of a pop: `SP` is incremented after a read that is answered; a refused read is reported as
`STACK_UNDERFLOW`. -/
def popByte : Act Byte := fun s =>
  match busRead s.sp s with
  | .done b t => .done b (t.setSp (t.sp + 1))
  | .raised _ t => .raised .stackUnderflow t

/-- `Pop32()`: the least significant byte first, at ascending addresses. -/
def pop32 : Act Word :=
  Act.bind popByte fun b0 =>
  Act.bind popByte fun b1 =>
  Act.bind popByte fun b2 =>
  Act.bind popByte fun b3 =>
  Act.pure (joinWord b3 b2 b1 b0)

/-! ### Interrupts and exceptions (R504 to R511) -/

/-- `Acknowledge(i)` (R504). -/
def acknowledge (i : Nat) (s : State) : State :=
  { s with irq := s.irq &&& ~~~((1 : Word) <<< i), ime := false, haltf := false }

/-- `VectorAddress(i)` (R506). -/
def vectorAddress (i : Nat) : Word := Config.vectorBase + BitVec.ofNat 32 (i * Config.vectorStride)

/-- `Service(i)` (R505): the push may raise `STACK_OVERFLOW`, and then `PC` is not loaded. -/
def service (i : Nat) : Act Unit := fun s =>
  Act.then (push32 s.pc) (update fun t => t.setPc (vectorAddress i)) s

/-- The code of an exception, the value `EC` takes (R509). -/
def Exc.code (e : Exc) : Byte :=
  match e with
  | .ok => 0x00
  | .invalidInstruction => 0x01
  | .invalidArgument => 0x02
  | .invalidReadAccess => 0x03
  | .invalidWriteAccess => 0x04
  | .invalidExecuteAccess => 0x05
  | .divideByZero => 0x06
  | .stackOverflow => 0x07
  | .stackUnderflow => 0x08
  | .hardwareError => 0x09
  | .doubleFault => 0x0A

/-- A double fault (R511): the Double Fault and Stop flags are set and nothing else changes, `EC` included (D18; log 25). -/
def enterDoubleFault (s : State) : State := { s with df := true, stopf := true }

/-- Taking an exception while none is being handled (R510 c): `EC <- code; Acknowledge(0); Service(0)`. A refused
push is a double fault, `EC` being non-zero by then. The saved `PC` is the `PC` at the raise (R523; log 24). -/
def takeException (e : Exc) (s : State) : State :=
  match service 0 (acknowledge 0 { s with ec := e.code }) with
  | .done _ t => t
  | .raised _ t => enterDoubleFault t

/-- `Raise(code)` (R510, R511, R521, R522; log 32). -/
def raise (e : Exc) (s : State) : State :=
  match e with
  | .ok => s
  | .doubleFault => enterDoubleFault s
  | e => if s.ec = 0 then takeException e s else enterDoubleFault s

/-- The return from an interrupt or exception handler, `RETI` (R287, R527): `PC` is popped, `IME` set and `EC` cleared. -/
def returnFromHandler : Act Unit :=
  Act.bind pop32 fun target =>
  update fun s => { s.setPc target with ime := true, ec := 0x00 }

/-- The `IMP` promotion at the end of a frame, with `IMP` as it was before the instruction (R507, D19; log 26). -/
def promote (impBefore : Bool) (s : State) : State :=
  if impBefore then { s with ime := true, imp := false } else s

/-- The end of a frame (R500 steps 5 and 6): an instruction that completes is followed by the promotion; one that raises is
followed by the raise procedure and no promotion (R507, D21). -/
def complete (body : Act Unit) (s : State) : Host.Outcome State Fault Refusal :=
  match body s with
  | .done _ t => .next (promote s.imp t)
  | .raised e t => .next (raise e t)

end Sys2Proof.Machine
end

