-- ==== Sys2Proof/WellFormed.lean ====
section
/-! DEFINITION. Which instructions have every argument field in the range the spec defines (spec/30_encoding.md R112
step 5). An ill-formed instruction still decodes and still executes: it raises `INVALID_ARGUMENT` (R513). -/

namespace Sys2Proof

/-- A condition field names one of the seven execution conditions (R280). -/
def conditionDefined (c : Nibble) : Bool := c.toNat ≤ 6

/-- A bit number lies inside a byte (R400). -/
def bitDefined (b : Nibble) : Bool := b.toNat ≤ 7

/-- A vector number names one of the 32 interrupt vectors (R285). -/
def vectorDefined (n : Byte) : Bool := n.toNat ≤ 0x1F

/-- The argument check of R112 step 5; true of every instruction whose operands the spec does not constrain. -/
def Instr.wellFormed (i : Instr) : Bool :=
  match i with
  | .jmpImm c _ => conditionDefined c
  | .jmpReg c _ => conditionDefined c
  | .jpb c _ => conditionDefined c
  | .call c _ => conditionDefined c
  | .ret c => conditionDefined c
  | .int n => vectorDefined n
  | .bitL _ b => bitDefined b
  | .bitM _ b => bitDefined b
  | .setL _ b => bitDefined b
  | .setM _ b => bitDefined b
  | .resL _ b => bitDefined b
  | .resM _ b => bitDefined b
  | .togL _ b => bitDefined b
  | .togM _ b => bitDefined b
  | .nop | .stop | .halt | .di | .ei | .eii | .daa | .scf | .ccf | .clv | .sev | .ldLImm .. | .ldLAbs ..
  | .ldLInd .. | .ldqLAbs .. | .ldqLInd .. | .ldpLAbs .. | .ldpLInd .. | .stAbsL .. | .stIndL .. | .stqAbsL ..
  | .stqIndL .. | .stpAbsL .. | .stpIndL .. | .mvLL .. | .mvHL .. | .mvLH .. | .ldWImm .. | .ldWAbs ..
  | .ldWInd .. | .ldqWAbs .. | .ldqWInd .. | .stAbsW .. | .stIndW .. | .stqAbsW .. | .stqIndW .. | .mvWW ..
  | .mwh .. | .mwl .. | .ldDImm .. | .ldDAbs .. | .ldDInd .. | .ldqDAbs .. | .ldqDInd .. | .lsp .. | .pop ..
  | .stAbsD .. | .stIndD .. | .stqAbsD .. | .stqIndD .. | .ssp .. | .push .. | .mvDD .. | .spo .. | .spi ..
  | .reti | .addLImm .. | .addLReg .. | .addLInd .. | .adcLImm .. | .adcLReg .. | .adcLInd .. | .subLImm ..
  | .subLReg .. | .subLInd .. | .sbcLImm .. | .sbcLReg .. | .sbcLInd .. | .incL .. | .incM .. | .decL ..
  | .decM .. | .addWImm .. | .addWReg .. | .addDImm .. | .addDReg .. | .subWImm .. | .subWReg .. | .subDImm ..
  | .subDReg .. | .incW .. | .incD .. | .decW .. | .decD .. | .andImm .. | .andReg .. | .andInd .. | .orImm ..
  | .orReg .. | .orInd .. | .xorImm .. | .xorReg .. | .xorInd .. | .notL .. | .notM .. | .cmpImm ..
  | .cmpReg .. | .cmpInd .. | .slaL .. | .slaM .. | .sraL .. | .sraM .. | .srlL .. | .srlM .. | .swapL ..
  | .swapM .. | .swapW .. | .swapD .. | .rla | .rlL .. | .rlM .. | .rlca | .rlcL .. | .rlcM .. | .rra | .rrL ..
  | .rrM .. | .rrca | .rrcL .. | .rrcM .. => true

end Sys2Proof
end

