-- ==== Sys2Proof/Machine/Operands.lean ====
section
/-! DEFINITION. The operand forms of the instructions (spec/30_encoding.md R103 to R108), each once: windows,
conditions, bit numbers, and the shapes load, store, accumulator operation and read-modify-write. -/

namespace Sys2Proof.Machine

/-! ### Windows (R74) -/

/-- The address of an unsigned offset into the quick-RAM window. -/
def quickAddress (off : Half) : Word := Config.quickBase + off.setWidth 32
/-- The address of an unsigned offset into the I/O-port window. -/
def portAddress (off : Byte) : Word := Config.portBase + off.setWidth 32

/-! ### Execution conditions (R106, R280) -/

/-- The seven execution conditions. -/
inductive Cond where
  | nc | zs | zc | cs | cc | vs | vc
deriving DecidableEq, Repr

/-- The condition of a field; `none` for 7 to 15 (R280, D8; log 20). -/
def Cond.ofField (c : Nibble) : Option Cond :=
  match c with
  | 0x0 => some .nc
  | 0x1 => some .zs
  | 0x2 => some .zc
  | 0x3 => some .cs
  | 0x4 => some .cc
  | 0x5 => some .vs
  | 0x6 => some .vc
  | _ => none

/-- Whether a condition is met. -/
def Cond.holds (k : Cond) (f : Flags) : Bool :=
  match k with
  | .nc => true
  | .zs => f.z
  | .zc => !f.z
  | .cs => f.c
  | .cc => !f.c
  | .vs => f.v
  | .vc => !f.v

/-- `if cond(X) then taken`; an undefined condition raises `INVALID_ARGUMENT` before anything else (R280). -/
def ifCond (c : Nibble) (taken : Act Unit) : Act Unit := fun s =>
  match Cond.ofField c with
  | none => .raised .invalidArgument s
  | some k => if k.holds s.flags then taken s else .done () s

/-! ### Bit numbers (R107, R400) -/

/-- The bit-number check: 8 to 15 raise `INVALID_ARGUMENT` before any access (R400, D9; log 20). -/
def checkBit (b : Nibble) (body : Act Unit) : Act Unit :=
  if bitDefined b then body else raising .invalidArgument

/-! ### Loads and stores: the destination is written only after all bytes were read (R524) -/

/-- `L[x] <- MemRead(a, 1)`. -/
def loadL (x : Reg) (a : Word) : Act Unit :=
  Act.bind (memRead8 a) fun b => update fun s => s.setL x b
/-- `W[x] <- MemRead(a, 2)`. -/
def loadW (x : Reg) (a : Word) : Act Unit :=
  Act.bind (memRead16 a) fun v => update fun s => s.setW x v
/-- `D[x] <- MemRead(a, 4)`. -/
def loadD (x : Reg) (a : Word) : Act Unit :=
  Act.bind (memRead32 a) fun v => update fun s => s.setD x v

/-- `MemWrite(a, 1, L[y])`. -/
def storeL (a : Word) (y : Reg) : Act Unit := fun s => memWrite8 a (s.getL y) s
/-- `MemWrite(a, 2, W[y])`. -/
def storeW (a : Word) (y : Reg) : Act Unit := fun s => memWrite16 a (s.getW y) s
/-- `MemWrite(a, 4, D[y])`. -/
def storeD (a : Word) (y : Reg) : Act Unit := fun s => memWrite32 a (s.getD y) s

/-! ### The accumulator (R24) -/

/-- An operation on `L0` and a byte, the result going to `L0`. -/
def accumulateL (op : Binary 8) (b : Byte) (s : State) : State :=
  (s.setL 0 (op s.flags (s.getL 0) b).1).setFlags (op s.flags (s.getL 0) b).2
/-- An operation on `W0` and a 16-bit value, the result going to `W0`. -/
def accumulateW (op : Binary 16) (b : Half) (s : State) : State :=
  (s.setW 0 (op s.flags (s.getW 0) b).1).setFlags (op s.flags (s.getW 0) b).2
/-- An operation on `D0` and a 32-bit value, the result going to `D0`. -/
def accumulateD (op : Binary 32) (b : Word) (s : State) : State :=
  (s.setD 0 (op s.flags (s.getD 0) b).1).setFlags (op s.flags (s.getD 0) b).2
/-- An operation on `L0` and a byte whose result is discarded: only the flags are written. -/
def compareL (op : Binary 8) (b : Byte) (s : State) : State := s.setFlags (op s.flags (s.getL 0) b).2

/-- A byte read from memory, given to an operation that only changes the state. -/
def withByte (a : Word) (f : Byte → State → State) : Act Unit :=
  Act.bind (memRead8 a) fun b => update (f b)

/-! ### One operand -/

/-- An operation on `L[x]`, in place. -/
def modifyL (op : Unary 8) (x : Reg) (s : State) : State :=
  (s.setL x (op s.flags (s.getL x)).1).setFlags (op s.flags (s.getL x)).2
/-- An operation on `W[x]`, in place. -/
def modifyW (op : Unary 16) (x : Reg) (s : State) : State :=
  (s.setW x (op s.flags (s.getW x)).1).setFlags (op s.flags (s.getW x)).2
/-- An operation on `D[x]`, in place. -/
def modifyD (op : Unary 32) (x : Reg) (s : State) : State :=
  (s.setD x (op s.flags (s.getD x)).1).setFlags (op s.flags (s.getD x)).2

/-- A read-modify-write of a byte of memory: one read, one write at the same address, and the flags only after the
write has succeeded (R81, R370, D12; log 21). -/
def modifyM (op : Unary 8) (a : Word) : Act Unit := fun s =>
  Act.bind (memRead8 a) (fun v =>
    Act.then (memWrite8 a (op s.flags v).1) <|
    update fun t => t.setFlags (op s.flags v).2) s

end Sys2Proof.Machine
end

