-- ==== Sys2Proof/Machine/Arith8.lean ====
section
/-! DEFINITION. The meanings of 8-bit arithmetic (spec/45_arith_8.md). Each runs on a state whose
`PC` is already past the whole instruction (spec/10_state.md R26, D6; log 18). -/

namespace Sys2Proof.Machine

/-- `ADD L0, IMM8` (R302). -/
def execAddLImm (imm : Byte) (s : State) : Host.Outcome State Fault Refusal :=
  complete (update (accumulateL aluAdd imm)) s

/-- `ADD L0, LY` (R303). -/
def execAddLReg (y : Reg) (s : State) : Host.Outcome State Fault Refusal :=
  complete (update (accumulateL aluAdd (s.getL y))) s

/-- `ADD L0, [DY]` (R304). -/
def execAddLInd (y : Reg) (s : State) : Host.Outcome State Fault Refusal :=
  complete (withByte (s.getD y) (accumulateL aluAdd)) s

/-- `ADC L0, IMM8` (R305). -/
def execAdcLImm (imm : Byte) (s : State) : Host.Outcome State Fault Refusal :=
  complete (update (accumulateL aluAdc imm)) s

/-- `ADC L0, LY` (R306). -/
def execAdcLReg (y : Reg) (s : State) : Host.Outcome State Fault Refusal :=
  complete (update (accumulateL aluAdc (s.getL y))) s

/-- `ADC L0, [DY]` (R307). -/
def execAdcLInd (y : Reg) (s : State) : Host.Outcome State Fault Refusal :=
  complete (withByte (s.getD y) (accumulateL aluAdc)) s

/-- `SUB L0, IMM8` (R308). -/
def execSubLImm (imm : Byte) (s : State) : Host.Outcome State Fault Refusal :=
  complete (update (accumulateL aluSub imm)) s

/-- `SUB L0, LY` (R309). -/
def execSubLReg (y : Reg) (s : State) : Host.Outcome State Fault Refusal :=
  complete (update (accumulateL aluSub (s.getL y))) s

/-- `SUB L0, [DY]` (R310). -/
def execSubLInd (y : Reg) (s : State) : Host.Outcome State Fault Refusal :=
  complete (withByte (s.getD y) (accumulateL aluSub)) s

/-- `SBC L0, IMM8` (R311). -/
def execSbcLImm (imm : Byte) (s : State) : Host.Outcome State Fault Refusal :=
  complete (update (accumulateL aluSbc imm)) s

/-- `SBC L0, LY` (R312). -/
def execSbcLReg (y : Reg) (s : State) : Host.Outcome State Fault Refusal :=
  complete (update (accumulateL aluSbc (s.getL y))) s

/-- `SBC L0, [DY]` (R313). -/
def execSbcLInd (y : Reg) (s : State) : Host.Outcome State Fault Refusal :=
  complete (withByte (s.getD y) (accumulateL aluSbc)) s

/-- `INC LX` (R314). -/
def execIncL (x : Reg) (s : State) : Host.Outcome State Fault Refusal :=
  complete (update (modifyL aluInc8 x)) s

/-- `INC [DX]` (R315). -/
def execIncM (x : Reg) (s : State) : Host.Outcome State Fault Refusal :=
  complete (modifyM aluInc8 (s.getD x)) s

/-- `DEC LX` (R316). -/
def execDecL (x : Reg) (s : State) : Host.Outcome State Fault Refusal :=
  complete (update (modifyL aluDec8 x)) s

/-- `DEC [DX]` (R317). -/
def execDecM (x : Reg) (s : State) : Host.Outcome State Fault Refusal :=
  complete (modifyM aluDec8 (s.getD x)) s

end Sys2Proof.Machine
end

