-- ==== Sys2Proof/Machine/ArithWide.lean ====
section
/-! DEFINITION. The meanings of 16- and 32-bit arithmetic (spec/46_arith_16_32.md). Each runs on a state whose
`PC` is already past the whole instruction (spec/10_state.md R26, D6; log 18). -/

namespace Sys2Proof.Machine

/-- `ADD W0, IMM16` (R330). -/
def execAddWImm (imm : Half) (s : State) : Host.Outcome State Fault Refusal :=
  complete (update (accumulateW aluAdd imm)) s

/-- `ADD W0, WY` (R331). -/
def execAddWReg (y : Reg) (s : State) : Host.Outcome State Fault Refusal :=
  complete (update (accumulateW aluAdd (s.getW y))) s

/-- `ADD D0, IMM32` (R332). -/
def execAddDImm (imm : Word) (s : State) : Host.Outcome State Fault Refusal :=
  complete (update (accumulateD aluAdd imm)) s

/-- `ADD D0, DY` (R333). -/
def execAddDReg (y : Reg) (s : State) : Host.Outcome State Fault Refusal :=
  complete (update (accumulateD aluAdd (s.getD y))) s

/-- `SUB W0, IMM16` (R334). -/
def execSubWImm (imm : Half) (s : State) : Host.Outcome State Fault Refusal :=
  complete (update (accumulateW aluSub imm)) s

/-- `SUB W0, WY` (R335). -/
def execSubWReg (y : Reg) (s : State) : Host.Outcome State Fault Refusal :=
  complete (update (accumulateW aluSub (s.getW y))) s

/-- `SUB D0, IMM32` (R336). -/
def execSubDImm (imm : Word) (s : State) : Host.Outcome State Fault Refusal :=
  complete (update (accumulateD aluSub imm)) s

/-- `SUB D0, DY` (R337). -/
def execSubDReg (y : Reg) (s : State) : Host.Outcome State Fault Refusal :=
  complete (update (accumulateD aluSub (s.getD y))) s

/-- `INC WX` (R338). -/
def execIncW (x : Reg) (s : State) : Host.Outcome State Fault Refusal :=
  complete (update (modifyW aluIncWide x)) s

/-- `INC DX` (R339). -/
def execIncD (x : Reg) (s : State) : Host.Outcome State Fault Refusal :=
  complete (update (modifyD aluIncWide x)) s

/-- `DEC WX` (R340). -/
def execDecW (x : Reg) (s : State) : Host.Outcome State Fault Refusal :=
  complete (update (modifyW aluDecWide x)) s

/-- `DEC DX` (R341). -/
def execDecD (x : Reg) (s : State) : Host.Outcome State Fault Refusal :=
  complete (update (modifyD aluDecWide x)) s

end Sys2Proof.Machine
end

