-- ==== Sys2Proof/Machine/BitTest.lean ====
section
/-! DEFINITION. The meanings of bit test and manipulation (spec/49_bit_test.md). Each runs on a state whose
`PC` is already past the whole instruction (spec/10_state.md R26, D6; log 18). -/

namespace Sys2Proof.Machine

/-- `BIT Y, LX` (R401). -/
def execBitL (x : Reg) (b : Nibble) (s : State) : Host.Outcome State Fault Refusal :=
  complete (checkBit b (update fun t => t.setFlags (bitTestFlags t.flags (t.getL x) b))) s

/-- `BIT Y, [DX]` (R402). -/
def execBitM (x : Reg) (b : Nibble) (s : State) : Host.Outcome State Fault Refusal :=
  complete (checkBit b (withByte (s.getD x) fun v t => t.setFlags (bitTestFlags t.flags v b))) s

/-- `SET Y, LX` (R403). -/
def execSetL (x : Reg) (b : Nibble) (s : State) : Host.Outcome State Fault Refusal :=
  complete (checkBit b (update (modifyL (aluSetBit b) x))) s

/-- `SET Y, [DX]` (R404). -/
def execSetM (x : Reg) (b : Nibble) (s : State) : Host.Outcome State Fault Refusal :=
  complete (checkBit b (modifyM (aluSetBit b) (s.getD x))) s

/-- `RES Y, LX` (R405). -/
def execResL (x : Reg) (b : Nibble) (s : State) : Host.Outcome State Fault Refusal :=
  complete (checkBit b (update (modifyL (aluResBit b) x))) s

/-- `RES Y, [DX]` (R406). -/
def execResM (x : Reg) (b : Nibble) (s : State) : Host.Outcome State Fault Refusal :=
  complete (checkBit b (modifyM (aluResBit b) (s.getD x))) s

/-- `TOG Y, LX` (R407). -/
def execTogL (x : Reg) (b : Nibble) (s : State) : Host.Outcome State Fault Refusal :=
  complete (checkBit b (update (modifyL (aluTogBit b) x))) s

/-- `TOG Y, [DX]` (R408). -/
def execTogM (x : Reg) (b : Nibble) (s : State) : Host.Outcome State Fault Refusal :=
  complete (checkBit b (modifyM (aluTogBit b) (s.getD x))) s

end Sys2Proof.Machine
end

