-- ==== Sys2Proof/Machine/Branch.lean ====
section
/-! DEFINITION. The meanings of jumps, calls, interrupts and returns (spec/44_branch.md). Each runs on a state whose
`PC` is already past the whole instruction (spec/10_state.md R26, D6; log 18). -/

namespace Sys2Proof.Machine

/-- `JMP X, IMM32` (R281). -/
def execJmpImm (c : Nibble) (target : Word) (s : State) : Host.Outcome State Fault Refusal :=
  complete (ifCond c (update fun t => t.setPc target)) s

/-- `JMP X, DY` (R282). -/
def execJmpReg (c : Nibble) (y : Reg) (s : State) : Host.Outcome State Fault Refusal :=
  complete (ifCond c (update fun t => t.setPc (t.getD y))) s

/-- `JPB X, SIMM16` (R283). -/
def execJpb (c : Nibble) (off : Half) (s : State) : Host.Outcome State Fault Refusal :=
  complete (ifCond c (update fun t => t.setPc (t.pc + off.signExtend 32))) s

/-- `CALL X, IMM32` (R284). -/
def execCall (c : Nibble) (target : Word) (s : State) : Host.Outcome State Fault Refusal :=
  complete (ifCond c (Act.then (push32 s.pc) (update fun t => t.setPc target))) s

/-- `INT XX` (R285). -/
def execInt (n : Byte) (s : State) : Host.Outcome State Fault Refusal :=
  complete
    (if vectorDefined n then Act.then (push32 s.pc) (update fun t => t.setPc (vectorAddress n.toNat))
      else raising .invalidArgument) s

/-- `RET X` (R286). -/
def execRet (c : Nibble) (s : State) : Host.Outcome State Fault Refusal :=
  complete (ifCond c (Act.bind pop32 fun target => update fun t => t.setPc target)) s

/-- `RETI` (R287). -/
def execReti (s : State) : Host.Outcome State Fault Refusal :=
  complete returnFromHandler s

end Sys2Proof.Machine
end

