-- ==== Sys2Proof/Machine/CpuControl.lean ====
section
/-! DEFINITION. The meanings of the CPU control instructions (spec/40_cpu_control.md). Each runs on a state whose
`PC` is already past the whole instruction (spec/10_state.md R26, D6; log 18). -/

namespace Sys2Proof.Machine

/-- `NOP` (R200). -/
def execNop (s : State) : Host.Outcome State Fault Refusal :=
  complete (update id) s

/-- `STOP` (R201). -/
def execStop (s : State) : Host.Outcome State Fault Refusal :=
  complete (update fun t => { t with stopf := true }) s

/-- `HALT` (R202). -/
def execHalt (s : State) : Host.Outcome State Fault Refusal :=
  complete (update fun t => { t with haltf := true }) s

/-- `DI` (R203). -/
def execDi (s : State) : Host.Outcome State Fault Refusal :=
  complete (update fun t => { t with ime := false }) s

/-- `EI` (R204). -/
def execEi (s : State) : Host.Outcome State Fault Refusal :=
  complete (update fun t => { t with imp := true }) s

/-- `EII` (R205). -/
def execEii (s : State) : Host.Outcome State Fault Refusal :=
  complete (update fun t => { t with ime := true }) s

/-- `DAA` (R206). -/
def execDaa (s : State) : Host.Outcome State Fault Refusal :=
  complete (update (modifyL aluDaa 0)) s

/-- `SCF` (R207). -/
def execScf (s : State) : Host.Outcome State Fault Refusal :=
  complete (update fun t => t.setFlags t.flags.setCarry) s

/-- `CCF` (R208). -/
def execCcf (s : State) : Host.Outcome State Fault Refusal :=
  complete (update fun t => t.setFlags t.flags.complementCarry) s

/-- `CLV` (R209). -/
def execClv (s : State) : Host.Outcome State Fault Refusal :=
  complete (update fun t => t.setFlags (t.flags.writeOverflow false)) s

/-- `SEV` (R210). -/
def execSev (s : State) : Host.Outcome State Fault Refusal :=
  complete (update fun t => t.setFlags (t.flags.writeOverflow true)) s

end Sys2Proof.Machine
end

