-- ==== Sys2Proof/Machine/Load16.lean ====
section
/-! DEFINITION. The meanings of 16-bit loads, stores and moves (spec/42_load_store_16.md). Each runs on a state whose
`PC` is already past the whole instruction (spec/10_state.md R26, D6; log 18). -/

namespace Sys2Proof.Machine

/-- `LD WX, IMM16` (R240). -/
def execLdWImm (x : Reg) (imm : Half) (s : State) : Host.Outcome State Fault Refusal :=
  complete (update fun t => t.setW x imm) s

/-- `LD WX, [ADDR32]` (R241). -/
def execLdWAbs (x : Reg) (addr : Word) (s : State) : Host.Outcome State Fault Refusal :=
  complete (loadW x addr) s

/-- `LD WX, [DY]` (R242). -/
def execLdWInd (x : Reg) (y : Reg) (s : State) : Host.Outcome State Fault Refusal :=
  complete (loadW x (s.getD y)) s

/-- `LDQ WX, [ADDR16]` (R243). -/
def execLdqWAbs (x : Reg) (off : Half) (s : State) : Host.Outcome State Fault Refusal :=
  complete (loadW x (quickAddress off)) s

/-- `LDQ WX, [WY]` (R244). -/
def execLdqWInd (x : Reg) (y : Reg) (s : State) : Host.Outcome State Fault Refusal :=
  complete (loadW x (quickAddress (s.getW y))) s

/-- `ST [ADDR32], WY` (R245). -/
def execStAbsW (addr : Word) (y : Reg) (s : State) : Host.Outcome State Fault Refusal :=
  complete (storeW addr y) s

/-- `ST [DX], WY` (R246). -/
def execStIndW (x : Reg) (y : Reg) (s : State) : Host.Outcome State Fault Refusal :=
  complete (storeW (s.getD x) y) s

/-- `STQ [ADDR16], WY` (R247). -/
def execStqAbsW (off : Half) (y : Reg) (s : State) : Host.Outcome State Fault Refusal :=
  complete (storeW (quickAddress off) y) s

/-- `STQ [WX], WY` (R248). -/
def execStqIndW (x : Reg) (y : Reg) (s : State) : Host.Outcome State Fault Refusal :=
  complete (storeW (quickAddress (s.getW x)) y) s

/-- `MV WX, WY` (R249). -/
def execMvWW (x : Reg) (y : Reg) (s : State) : Host.Outcome State Fault Refusal :=
  complete (update fun t => t.setW x (t.getW y)) s

/-- `MWH DX, WY` (R250). -/
def execMwh (x : Reg) (y : Reg) (s : State) : Host.Outcome State Fault Refusal :=
  complete (update fun t => t.setD x (t.getW y ++ t.getW x)) s

/-- `MWL WX, DY` (R251). -/
def execMwl (x : Reg) (y : Reg) (s : State) : Host.Outcome State Fault Refusal :=
  complete (update fun t => t.setW x ((t.getD y).extractLsb' 16 16)) s

end Sys2Proof.Machine
end

