-- ==== Sys2Proof/Machine/Load32Stack.lean ====
section
/-! DEFINITION. The meanings of 32-bit loads, stores and moves, and the stack (spec/43_load_store_32_stack.md). Each runs on a state whose
`PC` is already past the whole instruction (spec/10_state.md R26, D6; log 18). -/

namespace Sys2Proof.Machine

/-- `LD DX, IMM32` (R260). -/
def execLdDImm (x : Reg) (imm : Word) (s : State) : Host.Outcome State Fault Refusal :=
  complete (update fun t => t.setD x imm) s

/-- `LD DX, [ADDR32]` (R261). -/
def execLdDAbs (x : Reg) (addr : Word) (s : State) : Host.Outcome State Fault Refusal :=
  complete (loadD x addr) s

/-- `LD DX, [DY]` (R262). -/
def execLdDInd (x : Reg) (y : Reg) (s : State) : Host.Outcome State Fault Refusal :=
  complete (loadD x (s.getD y)) s

/-- `LDQ DX, [ADDR16]` (R263). -/
def execLdqDAbs (x : Reg) (off : Half) (s : State) : Host.Outcome State Fault Refusal :=
  complete (loadD x (quickAddress off)) s

/-- `LDQ DX, [WY]` (R264). -/
def execLdqDInd (x : Reg) (y : Reg) (s : State) : Host.Outcome State Fault Refusal :=
  complete (loadD x (quickAddress (s.getW y))) s

/-- `LSP IMM32` (R265). -/
def execLsp (imm : Word) (s : State) : Host.Outcome State Fault Refusal :=
  complete (update fun t => t.setSp imm) s

/-- `POP DX` (R266). -/
def execPop (x : Reg) (s : State) : Host.Outcome State Fault Refusal :=
  complete (Act.bind pop32 fun v => update fun t => t.setD x v) s

/-- `ST [ADDR32], DY` (R267). -/
def execStAbsD (addr : Word) (y : Reg) (s : State) : Host.Outcome State Fault Refusal :=
  complete (storeD addr y) s

/-- `ST [DX], DY` (R268). -/
def execStIndD (x : Reg) (y : Reg) (s : State) : Host.Outcome State Fault Refusal :=
  complete (storeD (s.getD x) y) s

/-- `STQ [ADDR16], DY` (R269). -/
def execStqAbsD (off : Half) (y : Reg) (s : State) : Host.Outcome State Fault Refusal :=
  complete (storeD (quickAddress off) y) s

/-- `STQ [WX], DY` (R270). -/
def execStqIndD (x : Reg) (y : Reg) (s : State) : Host.Outcome State Fault Refusal :=
  complete (storeD (quickAddress (s.getW x)) y) s

/-- `SSP [ADDR32]` (R271). -/
def execSsp (addr : Word) (s : State) : Host.Outcome State Fault Refusal :=
  complete (memWrite32 addr s.sp) s

/-- `PUSH DY` (R272). -/
def execPush (y : Reg) (s : State) : Host.Outcome State Fault Refusal :=
  complete (push32 (s.getD y)) s

/-- `MV DX, DY` (R273). -/
def execMvDD (x : Reg) (y : Reg) (s : State) : Host.Outcome State Fault Refusal :=
  complete (update fun t => t.setD x (t.getD y)) s

/-- `SPO DX` (R274). -/
def execSpo (x : Reg) (s : State) : Host.Outcome State Fault Refusal :=
  complete (update fun t => t.setD x t.sp) s

/-- `SPI DY` (R275). -/
def execSpi (y : Reg) (s : State) : Host.Outcome State Fault Refusal :=
  complete (update fun t => t.setSp (t.getD y)) s

end Sys2Proof.Machine
end

