-- ==== Sys2Proof/Machine/Load8.lean ====
section
/-! DEFINITION. The meanings of 8-bit loads, stores and moves (spec/41_load_store_8.md). Each runs on a state whose
`PC` is already past the whole instruction (spec/10_state.md R26, D6; log 18). -/

namespace Sys2Proof.Machine

/-- `LD LX, IMM8` (R220). -/
def execLdLImm (x : Reg) (imm : Byte) (s : State) : Host.Outcome State Fault Refusal :=
  complete (update fun t => t.setL x imm) s

/-- `LD LX, [ADDR32]` (R221). -/
def execLdLAbs (x : Reg) (addr : Word) (s : State) : Host.Outcome State Fault Refusal :=
  complete (loadL x addr) s

/-- `LD LX, [DY]` (R222). -/
def execLdLInd (x : Reg) (y : Reg) (s : State) : Host.Outcome State Fault Refusal :=
  complete (loadL x (s.getD y)) s

/-- `LDQ LX, [ADDR16]` (R223). -/
def execLdqLAbs (x : Reg) (off : Half) (s : State) : Host.Outcome State Fault Refusal :=
  complete (loadL x (quickAddress off)) s

/-- `LDQ LX, [WY]` (R224). -/
def execLdqLInd (x : Reg) (y : Reg) (s : State) : Host.Outcome State Fault Refusal :=
  complete (loadL x (quickAddress (s.getW y))) s

/-- `LDP LX, [ADDR8]` (R225). -/
def execLdpLAbs (x : Reg) (off : Byte) (s : State) : Host.Outcome State Fault Refusal :=
  complete (loadL x (portAddress off)) s

/-- `LDP LX, [LY]` (R226). -/
def execLdpLInd (x : Reg) (y : Reg) (s : State) : Host.Outcome State Fault Refusal :=
  complete (loadL x (portAddress (s.getL y))) s

/-- `ST [ADDR32], LY` (R227). -/
def execStAbsL (addr : Word) (y : Reg) (s : State) : Host.Outcome State Fault Refusal :=
  complete (storeL addr y) s

/-- `ST [DX], LY` (R228). -/
def execStIndL (x : Reg) (y : Reg) (s : State) : Host.Outcome State Fault Refusal :=
  complete (storeL (s.getD x) y) s

/-- `STQ [ADDR16], LY` (R229). -/
def execStqAbsL (off : Half) (y : Reg) (s : State) : Host.Outcome State Fault Refusal :=
  complete (storeL (quickAddress off) y) s

/-- `STQ [WX], LY` (R230). -/
def execStqIndL (x : Reg) (y : Reg) (s : State) : Host.Outcome State Fault Refusal :=
  complete (storeL (quickAddress (s.getW x)) y) s

/-- `STP [ADDR8], LY` (R231). -/
def execStpAbsL (off : Byte) (y : Reg) (s : State) : Host.Outcome State Fault Refusal :=
  complete (storeL (portAddress off) y) s

/-- `STP [LX], LY` (R232). -/
def execStpIndL (x : Reg) (y : Reg) (s : State) : Host.Outcome State Fault Refusal :=
  complete (storeL (portAddress (s.getL x)) y) s

/-- `MV LX, LY` (R233). -/
def execMvLL (x : Reg) (y : Reg) (s : State) : Host.Outcome State Fault Refusal :=
  complete (update fun t => t.setL x (t.getL y)) s

/-- `MV HX, LY` (R234). -/
def execMvHL (x : Reg) (y : Reg) (s : State) : Host.Outcome State Fault Refusal :=
  complete (update fun t => t.setH x (t.getL y)) s

/-- `MV LX, HY` (R235). -/
def execMvLH (x : Reg) (y : Reg) (s : State) : Host.Outcome State Fault Refusal :=
  complete (update fun t => t.setL x (t.getH y)) s

end Sys2Proof.Machine
end

