-- ==== Sys2Proof/Machine/Logic8.lean ====
section
/-! DEFINITION. The meanings of 8-bit logic and compare (spec/47_logic_8.md). Each runs on a state whose
`PC` is already past the whole instruction (spec/10_state.md R26, D6; log 18). -/

namespace Sys2Proof.Machine

/-- `AND L0, IMM8` (R350). -/
def execAndImm (imm : Byte) (s : State) : Host.Outcome State Fault Refusal :=
  complete (update (accumulateL aluAnd imm)) s

/-- `AND L0, LY` (R351). -/
def execAndReg (y : Reg) (s : State) : Host.Outcome State Fault Refusal :=
  complete (update (accumulateL aluAnd (s.getL y))) s

/-- `AND L0, [DY]` (R352). -/
def execAndInd (y : Reg) (s : State) : Host.Outcome State Fault Refusal :=
  complete (withByte (s.getD y) (accumulateL aluAnd)) s

/-- `OR L0, IMM8` (R353). -/
def execOrImm (imm : Byte) (s : State) : Host.Outcome State Fault Refusal :=
  complete (update (accumulateL aluOr imm)) s

/-- `OR L0, LY` (R354). -/
def execOrReg (y : Reg) (s : State) : Host.Outcome State Fault Refusal :=
  complete (update (accumulateL aluOr (s.getL y))) s

/-- `OR L0, [DY]` (R355). -/
def execOrInd (y : Reg) (s : State) : Host.Outcome State Fault Refusal :=
  complete (withByte (s.getD y) (accumulateL aluOr)) s

/-- `XOR L0, IMM8` (R356). -/
def execXorImm (imm : Byte) (s : State) : Host.Outcome State Fault Refusal :=
  complete (update (accumulateL aluXor imm)) s

/-- `XOR L0, LY` (R357). -/
def execXorReg (y : Reg) (s : State) : Host.Outcome State Fault Refusal :=
  complete (update (accumulateL aluXor (s.getL y))) s

/-- `XOR L0, [DY]` (R358). -/
def execXorInd (y : Reg) (s : State) : Host.Outcome State Fault Refusal :=
  complete (withByte (s.getD y) (accumulateL aluXor)) s

/-- `NOT LX` (R359). -/
def execNotL (x : Reg) (s : State) : Host.Outcome State Fault Refusal :=
  complete (update (modifyL aluNot x)) s

/-- `NOT [DX]` (R360). -/
def execNotM (x : Reg) (s : State) : Host.Outcome State Fault Refusal :=
  complete (modifyM aluNot (s.getD x)) s

/-- `CMP L0, IMM8` (R361). -/
def execCmpImm (imm : Byte) (s : State) : Host.Outcome State Fault Refusal :=
  complete (update (compareL aluSub imm)) s

/-- `CMP L0, LY` (R362). -/
def execCmpReg (y : Reg) (s : State) : Host.Outcome State Fault Refusal :=
  complete (update (compareL aluSub (s.getL y))) s

/-- `CMP L0, [DY]` (R363). -/
def execCmpInd (y : Reg) (s : State) : Host.Outcome State Fault Refusal :=
  complete (withByte (s.getD y) (compareL aluSub)) s

end Sys2Proof.Machine
end

