-- ==== Sys2Proof/Machine/ShiftRotate.lean ====
section
/-! DEFINITION. The meanings of shifts, swaps and rotates (spec/48_shift_swap_rotate.md). Each runs on a state whose
`PC` is already past the whole instruction (spec/10_state.md R26, D6; log 18). -/

namespace Sys2Proof.Machine

/-- `SLA LX` (R371). -/
def execSlaL (x : Reg) (s : State) : Host.Outcome State Fault Refusal :=
  complete (update (modifyL aluSla x)) s

/-- `SLA [DX]` (R372). -/
def execSlaM (x : Reg) (s : State) : Host.Outcome State Fault Refusal :=
  complete (modifyM aluSla (s.getD x)) s

/-- `SRA LX` (R373). -/
def execSraL (x : Reg) (s : State) : Host.Outcome State Fault Refusal :=
  complete (update (modifyL aluSra x)) s

/-- `SRA [DX]` (R374). -/
def execSraM (x : Reg) (s : State) : Host.Outcome State Fault Refusal :=
  complete (modifyM aluSra (s.getD x)) s

/-- `SRL LX` (R375). -/
def execSrlL (x : Reg) (s : State) : Host.Outcome State Fault Refusal :=
  complete (update (modifyL aluSrl x)) s

/-- `SRL [DX]` (R376). -/
def execSrlM (x : Reg) (s : State) : Host.Outcome State Fault Refusal :=
  complete (modifyM aluSrl (s.getD x)) s

/-- `SWAP LX` (R377). -/
def execSwapL (x : Reg) (s : State) : Host.Outcome State Fault Refusal :=
  complete (update (modifyL (aluSwap 4) x)) s

/-- `SWAP [DX]` (R378). -/
def execSwapM (x : Reg) (s : State) : Host.Outcome State Fault Refusal :=
  complete (modifyM (aluSwap 4) (s.getD x)) s

/-- `SWAP WX` (R379). -/
def execSwapW (x : Reg) (s : State) : Host.Outcome State Fault Refusal :=
  complete (update (modifyW (aluSwap 8) x)) s

/-- `SWAP DX` (R380). -/
def execSwapD (x : Reg) (s : State) : Host.Outcome State Fault Refusal :=
  complete (update (modifyD (aluSwap 16) x)) s

/-- `RLA` (R381). -/
def execRla (s : State) : Host.Outcome State Fault Refusal :=
  complete (update (modifyL (clearZ aluRl) 0)) s

/-- `RL LX` (R382). -/
def execRlL (x : Reg) (s : State) : Host.Outcome State Fault Refusal :=
  complete (update (modifyL aluRl x)) s

/-- `RL [DX]` (R383). -/
def execRlM (x : Reg) (s : State) : Host.Outcome State Fault Refusal :=
  complete (modifyM aluRl (s.getD x)) s

/-- `RLCA` (R384). -/
def execRlca (s : State) : Host.Outcome State Fault Refusal :=
  complete (update (modifyL (clearZ aluRlc) 0)) s

/-- `RLC LX` (R385). -/
def execRlcL (x : Reg) (s : State) : Host.Outcome State Fault Refusal :=
  complete (update (modifyL aluRlc x)) s

/-- `RLC [DX]` (R386). -/
def execRlcM (x : Reg) (s : State) : Host.Outcome State Fault Refusal :=
  complete (modifyM aluRlc (s.getD x)) s

/-- `RRA` (R387). -/
def execRra (s : State) : Host.Outcome State Fault Refusal :=
  complete (update (modifyL (clearZ aluRr) 0)) s

/-- `RR LX` (R388). -/
def execRrL (x : Reg) (s : State) : Host.Outcome State Fault Refusal :=
  complete (update (modifyL aluRr x)) s

/-- `RR [DX]` (R389). -/
def execRrM (x : Reg) (s : State) : Host.Outcome State Fault Refusal :=
  complete (modifyM aluRr (s.getD x)) s

/-- `RRCA` (R390). -/
def execRrca (s : State) : Host.Outcome State Fault Refusal :=
  complete (update (modifyL (clearZ aluRrc) 0)) s

/-- `RRC LX` (R391). -/
def execRrcL (x : Reg) (s : State) : Host.Outcome State Fault Refusal :=
  complete (update (modifyL aluRrc x)) s

/-- `RRC [DX]` (R392). -/
def execRrcM (x : Reg) (s : State) : Host.Outcome State Fault Refusal :=
  complete (modifyM aluRrc (s.getD x)) s

end Sys2Proof.Machine
end

