-- ==== Sys2Proof/Machine/Dispatch.lean ====
section
/-! DEFINITION. The meaning of every instruction: one arm per constructor of `Instr`, each one call of its meaning. -/

namespace Sys2Proof.Machine

/-- What an instruction does, on a state whose `PC` is past it (R500 steps 4 to 6). -/
def exec (i : Instr) (s : State) : Host.Outcome State Fault Refusal :=
  match i with
  | .nop => Sys2Proof.Machine.execNop s
  | .stop => Sys2Proof.Machine.execStop s
  | .halt => Sys2Proof.Machine.execHalt s
  | .di => Sys2Proof.Machine.execDi s
  | .ei => Sys2Proof.Machine.execEi s
  | .eii => Sys2Proof.Machine.execEii s
  | .daa => Sys2Proof.Machine.execDaa s
  | .scf => Sys2Proof.Machine.execScf s
  | .ccf => Sys2Proof.Machine.execCcf s
  | .clv => Sys2Proof.Machine.execClv s
  | .sev => Sys2Proof.Machine.execSev s
  | .ldLImm x imm => Sys2Proof.Machine.execLdLImm x imm s
  | .ldLAbs x addr => Sys2Proof.Machine.execLdLAbs x addr s
  | .ldLInd x y => Sys2Proof.Machine.execLdLInd x y s
  | .ldqLAbs x off => Sys2Proof.Machine.execLdqLAbs x off s
  | .ldqLInd x y => Sys2Proof.Machine.execLdqLInd x y s
  | .ldpLAbs x off => Sys2Proof.Machine.execLdpLAbs x off s
  | .ldpLInd x y => Sys2Proof.Machine.execLdpLInd x y s
  | .stAbsL addr y => Sys2Proof.Machine.execStAbsL addr y s
  | .stIndL x y => Sys2Proof.Machine.execStIndL x y s
  | .stqAbsL off y => Sys2Proof.Machine.execStqAbsL off y s
  | .stqIndL x y => Sys2Proof.Machine.execStqIndL x y s
  | .stpAbsL off y => Sys2Proof.Machine.execStpAbsL off y s
  | .stpIndL x y => Sys2Proof.Machine.execStpIndL x y s
  | .mvLL x y => Sys2Proof.Machine.execMvLL x y s
  | .mvHL x y => Sys2Proof.Machine.execMvHL x y s
  | .mvLH x y => Sys2Proof.Machine.execMvLH x y s
  | .ldWImm x imm => Sys2Proof.Machine.execLdWImm x imm s
  | .ldWAbs x addr => Sys2Proof.Machine.execLdWAbs x addr s
  | .ldWInd x y => Sys2Proof.Machine.execLdWInd x y s
  | .ldqWAbs x off => Sys2Proof.Machine.execLdqWAbs x off s
  | .ldqWInd x y => Sys2Proof.Machine.execLdqWInd x y s
  | .stAbsW addr y => Sys2Proof.Machine.execStAbsW addr y s
  | .stIndW x y => Sys2Proof.Machine.execStIndW x y s
  | .stqAbsW off y => Sys2Proof.Machine.execStqAbsW off y s
  | .stqIndW x y => Sys2Proof.Machine.execStqIndW x y s
  | .mvWW x y => Sys2Proof.Machine.execMvWW x y s
  | .mwh x y => Sys2Proof.Machine.execMwh x y s
  | .mwl x y => Sys2Proof.Machine.execMwl x y s
  | .ldDImm x imm => Sys2Proof.Machine.execLdDImm x imm s
  | .ldDAbs x addr => Sys2Proof.Machine.execLdDAbs x addr s
  | .ldDInd x y => Sys2Proof.Machine.execLdDInd x y s
  | .ldqDAbs x off => Sys2Proof.Machine.execLdqDAbs x off s
  | .ldqDInd x y => Sys2Proof.Machine.execLdqDInd x y s
  | .lsp imm => Sys2Proof.Machine.execLsp imm s
  | .pop x => Sys2Proof.Machine.execPop x s
  | .stAbsD addr y => Sys2Proof.Machine.execStAbsD addr y s
  | .stIndD x y => Sys2Proof.Machine.execStIndD x y s
  | .stqAbsD off y => Sys2Proof.Machine.execStqAbsD off y s
  | .stqIndD x y => Sys2Proof.Machine.execStqIndD x y s
  | .ssp addr => Sys2Proof.Machine.execSsp addr s
  | .push y => Sys2Proof.Machine.execPush y s
  | .mvDD x y => Sys2Proof.Machine.execMvDD x y s
  | .spo x => Sys2Proof.Machine.execSpo x s
  | .spi y => Sys2Proof.Machine.execSpi y s
  | .jmpImm c target => Sys2Proof.Machine.execJmpImm c target s
  | .jmpReg c y => Sys2Proof.Machine.execJmpReg c y s
  | .jpb c off => Sys2Proof.Machine.execJpb c off s
  | .call c target => Sys2Proof.Machine.execCall c target s
  | .int n => Sys2Proof.Machine.execInt n s
  | .ret c => Sys2Proof.Machine.execRet c s
  | .reti => Sys2Proof.Machine.execReti s
  | .addLImm imm => Sys2Proof.Machine.execAddLImm imm s
  | .addLReg y => Sys2Proof.Machine.execAddLReg y s
  | .addLInd y => Sys2Proof.Machine.execAddLInd y s
  | .adcLImm imm => Sys2Proof.Machine.execAdcLImm imm s
  | .adcLReg y => Sys2Proof.Machine.execAdcLReg y s
  | .adcLInd y => Sys2Proof.Machine.execAdcLInd y s
  | .subLImm imm => Sys2Proof.Machine.execSubLImm imm s
  | .subLReg y => Sys2Proof.Machine.execSubLReg y s
  | .subLInd y => Sys2Proof.Machine.execSubLInd y s
  | .sbcLImm imm => Sys2Proof.Machine.execSbcLImm imm s
  | .sbcLReg y => Sys2Proof.Machine.execSbcLReg y s
  | .sbcLInd y => Sys2Proof.Machine.execSbcLInd y s
  | .incL x => Sys2Proof.Machine.execIncL x s
  | .incM x => Sys2Proof.Machine.execIncM x s
  | .decL x => Sys2Proof.Machine.execDecL x s
  | .decM x => Sys2Proof.Machine.execDecM x s
  | .addWImm imm => Sys2Proof.Machine.execAddWImm imm s
  | .addWReg y => Sys2Proof.Machine.execAddWReg y s
  | .addDImm imm => Sys2Proof.Machine.execAddDImm imm s
  | .addDReg y => Sys2Proof.Machine.execAddDReg y s
  | .subWImm imm => Sys2Proof.Machine.execSubWImm imm s
  | .subWReg y => Sys2Proof.Machine.execSubWReg y s
  | .subDImm imm => Sys2Proof.Machine.execSubDImm imm s
  | .subDReg y => Sys2Proof.Machine.execSubDReg y s
  | .incW x => Sys2Proof.Machine.execIncW x s
  | .incD x => Sys2Proof.Machine.execIncD x s
  | .decW x => Sys2Proof.Machine.execDecW x s
  | .decD x => Sys2Proof.Machine.execDecD x s
  | .andImm imm => Sys2Proof.Machine.execAndImm imm s
  | .andReg y => Sys2Proof.Machine.execAndReg y s
  | .andInd y => Sys2Proof.Machine.execAndInd y s
  | .orImm imm => Sys2Proof.Machine.execOrImm imm s
  | .orReg y => Sys2Proof.Machine.execOrReg y s
  | .orInd y => Sys2Proof.Machine.execOrInd y s
  | .xorImm imm => Sys2Proof.Machine.execXorImm imm s
  | .xorReg y => Sys2Proof.Machine.execXorReg y s
  | .xorInd y => Sys2Proof.Machine.execXorInd y s
  | .notL x => Sys2Proof.Machine.execNotL x s
  | .notM x => Sys2Proof.Machine.execNotM x s
  | .cmpImm imm => Sys2Proof.Machine.execCmpImm imm s
  | .cmpReg y => Sys2Proof.Machine.execCmpReg y s
  | .cmpInd y => Sys2Proof.Machine.execCmpInd y s
  | .slaL x => Sys2Proof.Machine.execSlaL x s
  | .slaM x => Sys2Proof.Machine.execSlaM x s
  | .sraL x => Sys2Proof.Machine.execSraL x s
  | .sraM x => Sys2Proof.Machine.execSraM x s
  | .srlL x => Sys2Proof.Machine.execSrlL x s
  | .srlM x => Sys2Proof.Machine.execSrlM x s
  | .swapL x => Sys2Proof.Machine.execSwapL x s
  | .swapM x => Sys2Proof.Machine.execSwapM x s
  | .swapW x => Sys2Proof.Machine.execSwapW x s
  | .swapD x => Sys2Proof.Machine.execSwapD x s
  | .rla => Sys2Proof.Machine.execRla s
  | .rlL x => Sys2Proof.Machine.execRlL x s
  | .rlM x => Sys2Proof.Machine.execRlM x s
  | .rlca => Sys2Proof.Machine.execRlca s
  | .rlcL x => Sys2Proof.Machine.execRlcL x s
  | .rlcM x => Sys2Proof.Machine.execRlcM x s
  | .rra => Sys2Proof.Machine.execRra s
  | .rrL x => Sys2Proof.Machine.execRrL x s
  | .rrM x => Sys2Proof.Machine.execRrM x s
  | .rrca => Sys2Proof.Machine.execRrca s
  | .rrcL x => Sys2Proof.Machine.execRrcL x s
  | .rrcM x => Sys2Proof.Machine.execRrcM x s
  | .bitL x b => Sys2Proof.Machine.execBitL x b s
  | .bitM x b => Sys2Proof.Machine.execBitM x b s
  | .setL x b => Sys2Proof.Machine.execSetL x b s
  | .setM x b => Sys2Proof.Machine.execSetM x b s
  | .resL x b => Sys2Proof.Machine.execResL x b s
  | .resM x b => Sys2Proof.Machine.execResM x b s
  | .togL x b => Sys2Proof.Machine.execTogL x b s
  | .togM x b => Sys2Proof.Machine.execTogM x b s

end Sys2Proof.Machine
end

