-- ==== Sys2Proof/Machine/Environment.lean ====
section
/-! DEFINITION. What the environment does to the machine between frames (spec/00_scope.md R11, spec/60_exceptions.md R525,
spec/70_reset_and_hazards.md R600; log 10). -/

namespace Sys2Proof.Machine

/-- The exception of a code; `none` for `0x0B` to `0xFF` (R509, R522). -/
def Exc.ofCode (code : Byte) : Option Exc :=
  match code with
  | 0x00 => some .ok
  | 0x01 => some .invalidInstruction
  | 0x02 => some .invalidArgument
  | 0x03 => some .invalidReadAccess
  | 0x04 => some .invalidWriteAccess
  | 0x05 => some .invalidExecuteAccess
  | 0x06 => some .divideByZero
  | 0x07 => some .stackOverflow
  | 0x08 => some .stackUnderflow
  | 0x09 => some .hardwareError
  | 0x0A => some .doubleFault
  | _ => none

/-- The hardware reset (R600, R48): general registers, flags and the RAM half take free values, the ROM half stays as
loaded (log 14). -/
def hardwareReset (s : State) : State :=
  { s with
    d := Vector.ofFn (Config.resetRegister s.fresh)
    pc := s.platform.resetPc
    sp := stackAddress s.platform.resetSp
    flags :=
      { z := Config.resetFlag s.fresh 0
        n := Config.resetFlag s.fresh 1
        h := Config.resetFlag s.fresh 2
        c := Config.resetFlag s.fresh 3
        v := Config.resetFlag s.fresh 4 }
    stopf := false
    haltf := false
    ime := false
    imp := false
    df := false
    ie := 0x00000001
    irq := 0x00000000
    ec := 0x00
    mem := Memory.writeRam (Memory.romHalf s.mem) (Config.resetRam s.fresh)
    fresh := s.fresh + 1 }

/-- One move. A raise is not delivered while the Stop flag is set (R525); the Stop flag of a double fault is cleared by
reset only (R36; log 11); an undefined code is refused (R522, D36; log 12). -/
def applyMove (move : EnvMove) (s : State) : Except Refusal State :=
  match move with
  | .requestIrq i => .ok { s with irq := s.irq ||| ((1 : Word) <<< i.val) }
  | .writeIe v => .ok (s.setIe v)
  | .raise code =>
    match Exc.ofCode code with
    | none => .error (.undefinedExceptionCode code)
    | some e => .ok (if s.stopf then s else raise e s)
  | .clearStop => .ok (if s.df then s else { s with stopf := false })
  | .reset => .ok (hardwareReset s)
  | .pokeByte a b => .ok { s with mem := s.mem.write a.toNat b }
  | .remapBus bus => .ok { s with platform := { s.platform with bus := bus } }

/-- The moves of a batch, in order. -/
def applyMoves (moves : List EnvMove) (s : State) : Except Refusal State :=
  match moves with
  | [] => .ok s
  | move :: rest =>
    match applyMove move s with
    | .ok t => applyMoves rest t
    | .error r => .error r

/-- Delivers the next batch of the environment's moves, if one is left. -/
def deliver (s : State) : Except Refusal State :=
  match s.env with
  | [] => .ok s
  | batch :: rest => applyMoves batch { s with env := rest }

end Sys2Proof.Machine
end

