-- ==== Sys2Proof/Decode.lean ====
section
/-! DEFINITION. The decoder, total on any bytes, and after it the encoder (spec/30_encoding.md R100 to R112).
Opcode layout `IIIIIIII XXXX YYYY`, stored low byte first (R101, D5; log 18). -/

namespace Sys2Proof

/-- Why bytes are no instruction. -/
inductive DecodeError where
  /-- The list ends before the instruction does. -/
  | truncated
  /-- The identifier is one of the 122 undefined ones: `INVALID_INSTRUCTION` (R111). -/
  | undefinedIdentifier (ii : Byte)
  /-- A field that carries no argument is non-zero and `STRICT_FIELDS` is set (R109, D7). -/
  | unusedField
deriving DecidableEq, Repr

/-- How many immediate bytes follow the opcode; a function of the identifier alone (R102). -/
def immLength (ii : Byte) : Nat :=
  if [0x10, 0x15, 0x1B, 0x50, 0x53, 0x56, 0x59, 0x70, 0x73, 0x76, 0x7D].contains ii then 1
  else if [0x13, 0x19, 0x20, 0x23, 0x29, 0x33, 0x39, 0x42, 0x60, 0x64].contains ii then 2
  else if [0x11, 0x17, 0x21, 0x27, 0x30, 0x31, 0x35, 0x37, 0x3B, 0x40, 0x43, 0x62, 0x66].contains ii then 4
  else 0

/-- The instructions of family `0x0***`, by the low nibble of the identifier. -/
def buildControl (op : Nibble) : Option Instr :=
  match op with
  | 0x0 => some .nop
  | 0x1 => some .stop
  | 0x2 => some .halt
  | 0x3 => some .di
  | 0x4 => some .ei
  | 0x5 => some .eii
  | 0x6 => some .daa
  | 0x7 => some .scf
  | 0x8 => some .ccf
  | 0x9 => some .clv
  | 0xA => some .sev
  | _ => none

/-- The instructions of family `0x1***`, by the low nibble of the identifier. -/
def buildLoad8 (op x y : Nibble) (imm : Word) : Option Instr :=
  match op with
  | 0x0 => some (.ldLImm x.toFin (imm.setWidth 8))
  | 0x1 => some (.ldLAbs x.toFin imm)
  | 0x2 => some (.ldLInd x.toFin y.toFin)
  | 0x3 => some (.ldqLAbs x.toFin (imm.setWidth 16))
  | 0x4 => some (.ldqLInd x.toFin y.toFin)
  | 0x5 => some (.ldpLAbs x.toFin (imm.setWidth 8))
  | 0x6 => some (.ldpLInd x.toFin y.toFin)
  | 0x7 => some (.stAbsL imm y.toFin)
  | 0x8 => some (.stIndL x.toFin y.toFin)
  | 0x9 => some (.stqAbsL (imm.setWidth 16) y.toFin)
  | 0xA => some (.stqIndL x.toFin y.toFin)
  | 0xB => some (.stpAbsL (imm.setWidth 8) y.toFin)
  | 0xC => some (.stpIndL x.toFin y.toFin)
  | 0xD => some (.mvLL x.toFin y.toFin)
  | 0xE => some (.mvHL x.toFin y.toFin)
  | 0xF => some (.mvLH x.toFin y.toFin)
  | _ => none

/-- The instructions of family `0x2***`, by the low nibble of the identifier. -/
def buildLoad16 (op x y : Nibble) (imm : Word) : Option Instr :=
  match op with
  | 0x0 => some (.ldWImm x.toFin (imm.setWidth 16))
  | 0x1 => some (.ldWAbs x.toFin imm)
  | 0x2 => some (.ldWInd x.toFin y.toFin)
  | 0x3 => some (.ldqWAbs x.toFin (imm.setWidth 16))
  | 0x4 => some (.ldqWInd x.toFin y.toFin)
  | 0x7 => some (.stAbsW imm y.toFin)
  | 0x8 => some (.stIndW x.toFin y.toFin)
  | 0x9 => some (.stqAbsW (imm.setWidth 16) y.toFin)
  | 0xA => some (.stqIndW x.toFin y.toFin)
  | 0xD => some (.mvWW x.toFin y.toFin)
  | 0xE => some (.mwh x.toFin y.toFin)
  | 0xF => some (.mwl x.toFin y.toFin)
  | _ => none

/-- The instructions of family `0x3***`, by the low nibble of the identifier. -/
def buildLoad32 (op x y : Nibble) (imm : Word) : Option Instr :=
  match op with
  | 0x0 => some (.ldDImm x.toFin imm)
  | 0x1 => some (.ldDAbs x.toFin imm)
  | 0x2 => some (.ldDInd x.toFin y.toFin)
  | 0x3 => some (.ldqDAbs x.toFin (imm.setWidth 16))
  | 0x4 => some (.ldqDInd x.toFin y.toFin)
  | 0x5 => some (.lsp imm)
  | 0x6 => some (.pop x.toFin)
  | 0x7 => some (.stAbsD imm y.toFin)
  | 0x8 => some (.stIndD x.toFin y.toFin)
  | 0x9 => some (.stqAbsD (imm.setWidth 16) y.toFin)
  | 0xA => some (.stqIndD x.toFin y.toFin)
  | 0xB => some (.ssp imm)
  | 0xC => some (.push y.toFin)
  | 0xD => some (.mvDD x.toFin y.toFin)
  | 0xE => some (.spo x.toFin)
  | 0xF => some (.spi y.toFin)
  | _ => none

/-- The instructions of family `0x4***`, by the low nibble of the identifier. -/
def buildBranch (op x y : Nibble) (imm : Word) : Option Instr :=
  match op with
  | 0x0 => some (.jmpImm x imm)
  | 0x1 => some (.jmpReg x y.toFin)
  | 0x2 => some (.jpb x (imm.setWidth 16))
  | 0x3 => some (.call x imm)
  | 0x4 => some (.int (x ++ y))
  | 0x5 => some (.ret x)
  | 0x6 => some .reti
  | _ => none

/-- The instructions of family `0x5***`, by the low nibble of the identifier. -/
def buildArith8 (op x y : Nibble) (imm : Word) : Option Instr :=
  match op with
  | 0x0 => some (.addLImm (imm.setWidth 8))
  | 0x1 => some (.addLReg y.toFin)
  | 0x2 => some (.addLInd y.toFin)
  | 0x3 => some (.adcLImm (imm.setWidth 8))
  | 0x4 => some (.adcLReg y.toFin)
  | 0x5 => some (.adcLInd y.toFin)
  | 0x6 => some (.subLImm (imm.setWidth 8))
  | 0x7 => some (.subLReg y.toFin)
  | 0x8 => some (.subLInd y.toFin)
  | 0x9 => some (.sbcLImm (imm.setWidth 8))
  | 0xA => some (.sbcLReg y.toFin)
  | 0xB => some (.sbcLInd y.toFin)
  | 0xC => some (.incL x.toFin)
  | 0xD => some (.incM x.toFin)
  | 0xE => some (.decL x.toFin)
  | 0xF => some (.decM x.toFin)
  | _ => none

/-- The instructions of family `0x6***`, by the low nibble of the identifier. -/
def buildArithWide (op x y : Nibble) (imm : Word) : Option Instr :=
  match op with
  | 0x0 => some (.addWImm (imm.setWidth 16))
  | 0x1 => some (.addWReg y.toFin)
  | 0x2 => some (.addDImm imm)
  | 0x3 => some (.addDReg y.toFin)
  | 0x4 => some (.subWImm (imm.setWidth 16))
  | 0x5 => some (.subWReg y.toFin)
  | 0x6 => some (.subDImm imm)
  | 0x7 => some (.subDReg y.toFin)
  | 0xC => some (.incW x.toFin)
  | 0xD => some (.incD x.toFin)
  | 0xE => some (.decW x.toFin)
  | 0xF => some (.decD x.toFin)
  | _ => none

/-- The instructions of family `0x7***`, by the low nibble of the identifier. -/
def buildLogic8 (op x y : Nibble) (imm : Word) : Option Instr :=
  match op with
  | 0x0 => some (.andImm (imm.setWidth 8))
  | 0x1 => some (.andReg y.toFin)
  | 0x2 => some (.andInd y.toFin)
  | 0x3 => some (.orImm (imm.setWidth 8))
  | 0x4 => some (.orReg y.toFin)
  | 0x5 => some (.orInd y.toFin)
  | 0x6 => some (.xorImm (imm.setWidth 8))
  | 0x7 => some (.xorReg y.toFin)
  | 0x8 => some (.xorInd y.toFin)
  | 0x9 => some (.notL x.toFin)
  | 0xA => some (.notM x.toFin)
  | 0xD => some (.cmpImm (imm.setWidth 8))
  | 0xE => some (.cmpReg y.toFin)
  | 0xF => some (.cmpInd y.toFin)
  | _ => none

/-- The instructions of family `0x8***`, by the low nibble of the identifier. -/
def buildShift (op x : Nibble) : Option Instr :=
  match op with
  | 0x0 => some (.slaL x.toFin)
  | 0x1 => some (.slaM x.toFin)
  | 0x2 => some (.sraL x.toFin)
  | 0x3 => some (.sraM x.toFin)
  | 0x4 => some (.srlL x.toFin)
  | 0x5 => some (.srlM x.toFin)
  | 0x6 => some (.swapL x.toFin)
  | 0x7 => some (.swapM x.toFin)
  | 0x8 => some (.swapW x.toFin)
  | 0x9 => some (.swapD x.toFin)
  | _ => none

/-- The instructions of family `0x9***`, by the low nibble of the identifier. -/
def buildRotate (op x : Nibble) : Option Instr :=
  match op with
  | 0x0 => some .rla
  | 0x1 => some (.rlL x.toFin)
  | 0x2 => some (.rlM x.toFin)
  | 0x3 => some .rlca
  | 0x4 => some (.rlcL x.toFin)
  | 0x5 => some (.rlcM x.toFin)
  | 0x6 => some .rra
  | 0x7 => some (.rrL x.toFin)
  | 0x8 => some (.rrM x.toFin)
  | 0x9 => some .rrca
  | 0xA => some (.rrcL x.toFin)
  | 0xB => some (.rrcM x.toFin)
  | _ => none

/-- The instructions of family `0xA***`, by the low nibble of the identifier. -/
def buildBit (op x y : Nibble) : Option Instr :=
  match op with
  | 0x0 => some (.bitL x.toFin y)
  | 0x1 => some (.bitM x.toFin y)
  | 0x2 => some (.setL x.toFin y)
  | 0x3 => some (.setM x.toFin y)
  | 0x4 => some (.resL x.toFin y)
  | 0x5 => some (.resM x.toFin y)
  | 0x6 => some (.togL x.toFin y)
  | 0x7 => some (.togM x.toFin y)
  | _ => none

/-- The instruction an identifier, its two fields and its immediate stand for; `none` where the identifier is
undefined. The identifier alone selects the instruction (R100, R110). -/
def build (ii : Byte) (x y : Nibble) (imm : Word) : Option Instr :=
  let op : Nibble := ii.extractLsb' 0 4
  match (ii.extractLsb' 4 4 : Nibble) with
  | 0x0 => buildControl op
  | 0x1 => buildLoad8 op x y imm
  | 0x2 => buildLoad16 op x y imm
  | 0x3 => buildLoad32 op x y imm
  | 0x4 => buildBranch op x y imm
  | 0x5 => buildArith8 op x y imm
  | 0x6 => buildArithWide op x y imm
  | 0x7 => buildLogic8 op x y imm
  | 0x8 => buildShift op x
  | 0x9 => buildRotate op x
  | 0xA => buildBit op x y
  | _ => none

/-- The bits of the low opcode byte that carry an argument, by the format of the identifier (R103). -/
def fieldMask (ii : Byte) : Byte :=
  if [0x00, 0x01, 0x02, 0x03, 0x04, 0x05, 0x06, 0x07, 0x08, 0x09, 0x0A, 0x35, 0x3B, 0x46, 0x50, 0x53, 0x56,
    0x59, 0x60, 0x62, 0x64, 0x66, 0x70, 0x73, 0x76, 0x7D, 0x90, 0x93, 0x96, 0x99].contains ii then 0x00
  else if [0x10, 0x11, 0x13, 0x15, 0x20, 0x21, 0x23, 0x30, 0x31, 0x33, 0x36, 0x3E, 0x40, 0x42, 0x43, 0x45, 0x5C,
    0x5D, 0x5E, 0x5F, 0x6C, 0x6D, 0x6E, 0x6F, 0x79, 0x7A, 0x80, 0x81, 0x82, 0x83, 0x84, 0x85, 0x86, 0x87,
    0x88, 0x89, 0x91, 0x92, 0x94, 0x95, 0x97, 0x98, 0x9A, 0x9B].contains ii then 0xF0
  else if [0x17, 0x19, 0x1B, 0x27, 0x29, 0x37, 0x39, 0x3C, 0x3F, 0x51, 0x52, 0x54, 0x55, 0x57, 0x58, 0x5A, 0x5B,
    0x61, 0x63, 0x65, 0x67, 0x71, 0x72, 0x74, 0x75, 0x77, 0x78, 0x7E, 0x7F].contains ii then 0x0F
  else 0xFF

/-- One instruction from its low opcode byte (fields X and Y), its identifier byte and its immediate. With `strict`
(parameter `STRICT_FIELDS`) a non-zero unused field is refused, otherwise ignored (R109). -/
def decodeParts (strict : Bool) (lo ii : Byte) (imm : Word) : Except DecodeError Instr :=
  match build ii (lo.extractLsb' 4 4) (lo.extractLsb' 0 4) imm with
  | none => .error (.undefinedIdentifier ii)
  | some i => if strict && (lo &&& ~~~fieldMask ii) != 0 then .error .unusedField else .ok i

/-- The instruction at the head of a list of bytes, and the bytes after it (R112). An undefined identifier is
reported after the two opcode bytes, no immediate being looked at (R111). -/
def decode (strict : Bool) (bytes : List Byte) : Except DecodeError (Instr × List Byte) :=
  match bytes with
  | lo :: ii :: rest =>
    if rest.length < immLength ii then .error .truncated
    else (decodeParts strict lo ii (joinBytes (rest.take (immLength ii)))).map fun i => (i, rest.drop (immLength ii))
  | _ => .error .truncated

/-- The two opcode bytes in memory order: fields X and Y, then the identifier (R100, R101). -/
def opcode (ii : Byte) (x y : Nibble) : List Byte := [x ++ y, ii]

/-- A register number as a field. -/
def regField (r : Reg) : Nibble := .ofFin r

/-- The words of an instruction, byte by byte in ascending address order: the encoding tables of R103 and R110 read the
other way. Fields that carry no argument are 0, as an assembler emits them (R109). -/
def encode (i : Instr) : List Byte :=
  match i with
  | .nop => opcode 0x00 0 0
  | .stop => opcode 0x01 0 0
  | .halt => opcode 0x02 0 0
  | .di => opcode 0x03 0 0
  | .ei => opcode 0x04 0 0
  | .eii => opcode 0x05 0 0
  | .daa => opcode 0x06 0 0
  | .scf => opcode 0x07 0 0
  | .ccf => opcode 0x08 0 0
  | .clv => opcode 0x09 0 0
  | .sev => opcode 0x0A 0 0
  | .ldLImm x imm => opcode 0x10 (regField x) 0 ++ [imm]
  | .ldLAbs x addr => opcode 0x11 (regField x) 0 ++ wordBytes addr
  | .ldLInd x y => opcode 0x12 (regField x) (regField y)
  | .ldqLAbs x off => opcode 0x13 (regField x) 0 ++ halfBytes off
  | .ldqLInd x y => opcode 0x14 (regField x) (regField y)
  | .ldpLAbs x off => opcode 0x15 (regField x) 0 ++ [off]
  | .ldpLInd x y => opcode 0x16 (regField x) (regField y)
  | .stAbsL addr y => opcode 0x17 0 (regField y) ++ wordBytes addr
  | .stIndL x y => opcode 0x18 (regField x) (regField y)
  | .stqAbsL off y => opcode 0x19 0 (regField y) ++ halfBytes off
  | .stqIndL x y => opcode 0x1A (regField x) (regField y)
  | .stpAbsL off y => opcode 0x1B 0 (regField y) ++ [off]
  | .stpIndL x y => opcode 0x1C (regField x) (regField y)
  | .mvLL x y => opcode 0x1D (regField x) (regField y)
  | .mvHL x y => opcode 0x1E (regField x) (regField y)
  | .mvLH x y => opcode 0x1F (regField x) (regField y)
  | .ldWImm x imm => opcode 0x20 (regField x) 0 ++ halfBytes imm
  | .ldWAbs x addr => opcode 0x21 (regField x) 0 ++ wordBytes addr
  | .ldWInd x y => opcode 0x22 (regField x) (regField y)
  | .ldqWAbs x off => opcode 0x23 (regField x) 0 ++ halfBytes off
  | .ldqWInd x y => opcode 0x24 (regField x) (regField y)
  | .stAbsW addr y => opcode 0x27 0 (regField y) ++ wordBytes addr
  | .stIndW x y => opcode 0x28 (regField x) (regField y)
  | .stqAbsW off y => opcode 0x29 0 (regField y) ++ halfBytes off
  | .stqIndW x y => opcode 0x2A (regField x) (regField y)
  | .mvWW x y => opcode 0x2D (regField x) (regField y)
  | .mwh x y => opcode 0x2E (regField x) (regField y)
  | .mwl x y => opcode 0x2F (regField x) (regField y)
  | .ldDImm x imm => opcode 0x30 (regField x) 0 ++ wordBytes imm
  | .ldDAbs x addr => opcode 0x31 (regField x) 0 ++ wordBytes addr
  | .ldDInd x y => opcode 0x32 (regField x) (regField y)
  | .ldqDAbs x off => opcode 0x33 (regField x) 0 ++ halfBytes off
  | .ldqDInd x y => opcode 0x34 (regField x) (regField y)
  | .lsp imm => opcode 0x35 0 0 ++ wordBytes imm
  | .pop x => opcode 0x36 (regField x) 0
  | .stAbsD addr y => opcode 0x37 0 (regField y) ++ wordBytes addr
  | .stIndD x y => opcode 0x38 (regField x) (regField y)
  | .stqAbsD off y => opcode 0x39 0 (regField y) ++ halfBytes off
  | .stqIndD x y => opcode 0x3A (regField x) (regField y)
  | .ssp addr => opcode 0x3B 0 0 ++ wordBytes addr
  | .push y => opcode 0x3C 0 (regField y)
  | .mvDD x y => opcode 0x3D (regField x) (regField y)
  | .spo x => opcode 0x3E (regField x) 0
  | .spi y => opcode 0x3F 0 (regField y)
  | .jmpImm c target => opcode 0x40 c 0 ++ wordBytes target
  | .jmpReg c y => opcode 0x41 c (regField y)
  | .jpb c off => opcode 0x42 c 0 ++ halfBytes off
  | .call c target => opcode 0x43 c 0 ++ wordBytes target
  | .int n => opcode 0x44 (n.extractLsb' 4 4) (n.extractLsb' 0 4)
  | .ret c => opcode 0x45 c 0
  | .reti => opcode 0x46 0 0
  | .addLImm imm => opcode 0x50 0 0 ++ [imm]
  | .addLReg y => opcode 0x51 0 (regField y)
  | .addLInd y => opcode 0x52 0 (regField y)
  | .adcLImm imm => opcode 0x53 0 0 ++ [imm]
  | .adcLReg y => opcode 0x54 0 (regField y)
  | .adcLInd y => opcode 0x55 0 (regField y)
  | .subLImm imm => opcode 0x56 0 0 ++ [imm]
  | .subLReg y => opcode 0x57 0 (regField y)
  | .subLInd y => opcode 0x58 0 (regField y)
  | .sbcLImm imm => opcode 0x59 0 0 ++ [imm]
  | .sbcLReg y => opcode 0x5A 0 (regField y)
  | .sbcLInd y => opcode 0x5B 0 (regField y)
  | .incL x => opcode 0x5C (regField x) 0
  | .incM x => opcode 0x5D (regField x) 0
  | .decL x => opcode 0x5E (regField x) 0
  | .decM x => opcode 0x5F (regField x) 0
  | .addWImm imm => opcode 0x60 0 0 ++ halfBytes imm
  | .addWReg y => opcode 0x61 0 (regField y)
  | .addDImm imm => opcode 0x62 0 0 ++ wordBytes imm
  | .addDReg y => opcode 0x63 0 (regField y)
  | .subWImm imm => opcode 0x64 0 0 ++ halfBytes imm
  | .subWReg y => opcode 0x65 0 (regField y)
  | .subDImm imm => opcode 0x66 0 0 ++ wordBytes imm
  | .subDReg y => opcode 0x67 0 (regField y)
  | .incW x => opcode 0x6C (regField x) 0
  | .incD x => opcode 0x6D (regField x) 0
  | .decW x => opcode 0x6E (regField x) 0
  | .decD x => opcode 0x6F (regField x) 0
  | .andImm imm => opcode 0x70 0 0 ++ [imm]
  | .andReg y => opcode 0x71 0 (regField y)
  | .andInd y => opcode 0x72 0 (regField y)
  | .orImm imm => opcode 0x73 0 0 ++ [imm]
  | .orReg y => opcode 0x74 0 (regField y)
  | .orInd y => opcode 0x75 0 (regField y)
  | .xorImm imm => opcode 0x76 0 0 ++ [imm]
  | .xorReg y => opcode 0x77 0 (regField y)
  | .xorInd y => opcode 0x78 0 (regField y)
  | .notL x => opcode 0x79 (regField x) 0
  | .notM x => opcode 0x7A (regField x) 0
  | .cmpImm imm => opcode 0x7D 0 0 ++ [imm]
  | .cmpReg y => opcode 0x7E 0 (regField y)
  | .cmpInd y => opcode 0x7F 0 (regField y)
  | .slaL x => opcode 0x80 (regField x) 0
  | .slaM x => opcode 0x81 (regField x) 0
  | .sraL x => opcode 0x82 (regField x) 0
  | .sraM x => opcode 0x83 (regField x) 0
  | .srlL x => opcode 0x84 (regField x) 0
  | .srlM x => opcode 0x85 (regField x) 0
  | .swapL x => opcode 0x86 (regField x) 0
  | .swapM x => opcode 0x87 (regField x) 0
  | .swapW x => opcode 0x88 (regField x) 0
  | .swapD x => opcode 0x89 (regField x) 0
  | .rla => opcode 0x90 0 0
  | .rlL x => opcode 0x91 (regField x) 0
  | .rlM x => opcode 0x92 (regField x) 0
  | .rlca => opcode 0x93 0 0
  | .rlcL x => opcode 0x94 (regField x) 0
  | .rlcM x => opcode 0x95 (regField x) 0
  | .rra => opcode 0x96 0 0
  | .rrL x => opcode 0x97 (regField x) 0
  | .rrM x => opcode 0x98 (regField x) 0
  | .rrca => opcode 0x99 0 0
  | .rrcL x => opcode 0x9A (regField x) 0
  | .rrcM x => opcode 0x9B (regField x) 0
  | .bitL x b => opcode 0xA0 (regField x) b
  | .bitM x b => opcode 0xA1 (regField x) b
  | .setL x b => opcode 0xA2 (regField x) b
  | .setM x b => opcode 0xA3 (regField x) b
  | .resL x b => opcode 0xA4 (regField x) b
  | .resM x b => opcode 0xA5 (regField x) b
  | .togL x b => opcode 0xA6 (regField x) b
  | .togM x b => opcode 0xA7 (regField x) b

/-- Byte `k` of an instruction whose bits are `w`, with every bit from `nbits` up read as zero. -/
def tableByte (nbits w k : Nat) : Byte := BitVec.ofNat 8 (w % 2 ^ nbits / 2 ^ (8 * k))

/-- The instruction the decoder reads from the bits `w`, numbered as spec/opcode_table.json numbers them: the 16-bit
opcode first (its low byte at the lowest address), then the immediate bytes. Every bit from `nbits` up is 0. -/
def decodeTableWord (nbits w : Nat) : Option Instr :=
  match decode false ((List.range 6).map (tableByte nbits w)) with
  | .ok (i, _) => some i
  | .error _ => none

end Sys2Proof
end

