-- ==== Sys2Proof/Machine/Fetch.lean ====
section
/-! DEFINITION. Fetching and decoding one instruction (spec/20_memory.md R82, spec/30_encoding.md R112). -/

namespace Sys2Proof.Machine

/-- `Fetch8()` (R82): `PC` advances only if the read is answered. -/
def fetch8 : Act Byte := fun s =>
  match busRead s.pc s with
  | .done b t => .done b (t.setPc (t.pc + 1))
  | .raised e t => .raised e t

/-- A byte of the opcode: a refused read is reported as `INVALID_EXECUTE_ACCESS` (R82, R516; log 23). -/
def fetchOpcodeByte : Act Byte := fun s =>
  match fetch8 s with
  | .done b t => .done b t
  | .raised _ t => .raised .invalidExecuteAccess t

/-- `FetchImm(n)`: a refused read stays `INVALID_READ_ACCESS` (R82, D16). -/
def fetchImmediate (n : Nat) : Act (List Byte) :=
  match n with
  | 0 => Act.pure []
  | k + 1 =>
    Act.bind fetch8 fun b =>
    Act.bind (fetchImmediate k) fun rest =>
    Act.pure (b :: rest)

/-- What a fetch brings: the low opcode byte, the identifier and the immediate. -/
structure Fetched where
  lo : Byte
  ii : Byte
  imm : Word
deriving DecidableEq, Repr

/-- All the bytes of the instruction at `PC`, before it does anything else (R104, R112, D6; log 18). -/
def fetchInstruction : Act Fetched :=
  Act.bind fetchOpcodeByte fun lo =>
  Act.bind fetchOpcodeByte fun ii =>
  Act.bind (fetchImmediate (immLength ii)) fun imm =>
  Act.pure { lo := lo, ii := ii, imm := joinBytes imm }

end Sys2Proof.Machine
end

