-- ==== Sys2Proof/Machine/Frame.lean ====
section
/-! DEFINITION. The checks that open a frame of execution (spec/60_exceptions.md R501 to R505). -/

namespace Sys2Proof.Machine

/-- The enabled and pending interrupts, `IE & IRQ`. -/
def State.pending (s : State) : Word := s.ie &&& s.irq

/-- The Halt check (R502): a halted CPU stays halted (`none`) unless an enabled interrupt is pending, whatever `IME` is. -/
def haltCheck (s : State) : Option State :=
  if s.haltf then (if s.pending = 0 then none else some { s with haltf := false }) else some s

/-- The interrupts the CPU will service: the enabled and pending ones, and with `IME` clear only vector 0 (R503, D22; log 27). -/
def State.candidates (s : State) : Word := if s.ime then s.pending else s.pending &&& 0x00000001

/-- The index of the lowest set bit, the highest-priority vector (R503). -/
def lowestSet (w : Word) : Option Nat := (List.range 32).find? fun i => w.getLsbD i

/-- The vector that is serviced in this frame, if any (R503). -/
def State.selectedVector (s : State) : Option Nat := lowestSet s.candidates

/-- Acknowledges and services vector `i` (R504, R505). A refused push raises `STACK_OVERFLOW`; the request stays
acknowledged (log 28). -/
def serviceInterrupt (i : Nat) (s : State) : State :=
  match service i (acknowledge i s) with
  | .done _ t => t
  | .raised e t => raise e t

/-- The interrupt check and service (R503 to R505). -/
def interruptCheck (s : State) : State :=
  match s.selectedVector with
  | some i => serviceInterrupt i s
  | none => s

end Sys2Proof.Machine
end

