-- ==== Sys2Proof/Machine/Run.lean ====
section
/-! DEFINITION. One frame of execution (spec/60_exceptions.md R500): what Step.lean glues together. -/

namespace Sys2Proof.Machine

/-- Executes what a fetch brought. An undefined identifier raises `INVALID_INSTRUCTION` with `PC` past the opcode
(R111, R512); a non-zero unused field is refused only under `STRICT_FIELDS` (R109). The decoder's other error cannot
arise: the fetch has brought every byte. -/
def executeFetched (f : Fetched) (s : State) : Host.Outcome State Fault Refusal :=
  match decodeParts s.platform.strictFields f.lo f.ii f.imm with
  | .ok i => exec i s
  | .error .unusedField => .refused .unusedField
  | .error _ => .next (raise .invalidInstruction s)

/-- Fetches, decodes and executes the instruction at `PC` (R112). A refused fetch raises, with the `PC` of the
refused byte (R516, R523). -/
def runInstruction (s : State) : Host.Outcome State Fault Refusal :=
  match fetchInstruction s with
  | .done f t => executeFetched f t
  | .raised e t => .next (raise e t)

/-- One frame (R500): Stop check, Halt check, interrupt check and service, then one instruction. A frame whose
interrupt service ends in a double fault ends there (R500); otherwise it goes on to the handler's first instruction
(D39; log 28). -/
def frame (s : State) : Host.Outcome State Fault Refusal :=
  if s.stopf then .next s
  else
    match haltCheck s with
    | none => .next s
    | some t => if (interruptCheck t).stopf then .next (interruptCheck t) else runInstruction (interruptCheck t)

/-- The environment's moves, then one frame (R525, R526). -/
def deliverThenFrame (s : State) : Host.Outcome State Fault Refusal :=
  match deliver s with
  | .ok t => frame t
  | .error r => .refused r

/-- The bytes of an instruction whose bits are `w`, written at an address upwards: six, the longest instruction's. -/
def placeBytes (m : Memory) (a : Word) (nbits w : Nat) : Memory :=
  (List.range 6).foldl (fun m k => Memory.write m (a + BitVec.ofNat 32 k).toNat (tableByte nbits w k)) m

/-- An instruction placed in memory at `PC` by the environment (log 6). -/
def placeInstruction (s : State) (nbits w : Nat) : State := { s with mem := placeBytes s.mem s.pc nbits w }

end Sys2Proof.Machine
end

