-- ==== Sys2Proof/Machine/Step.lean ====
section
/-! DEFINITION. The step of the machine, and how the host places an instruction where the step fetches it. -/

namespace Sys2Proof.Machine

/-- One step: the environment's moves due before this frame, then the frame (spec/60_exceptions.md R500, R525). -/
def step (s : State) : Host.Outcome State Fault Refusal := deliverThenFrame s

/-- `s` with the instruction whose bits are `w` stored at `PC`, as the environment loads a program (log 6). -/
def State.withFetchWord (s : State) (nbits w : Nat) : State := placeInstruction s nbits w

end Sys2Proof.Machine
end

