-- ==== Sys2Proof/Safety.lean ====
section
/-! DEFINITION. The terms the claims are stated in: the invariant of the machine, and what a frame leaves unchanged. -/

namespace Sys2Proof.Machine

/-! ### The invariant -/

/-- What holds of every state the machine reaches: `SP[31] = 1` (R28), `IE[0] = 1` (R40), memory in its canonical form,
`EC` one of the codes the CPU writes (R42, R521: never `0x0A`, by D18, log 25, and where a platform maps `EC` by log 9), and the
Stop flag set whenever the Double Fault flag is (R43, R511; log 11). -/
structure State.Inv (s : State) : Prop where
  stackHalf : s.sp.msb = true
  vectorZeroEnabled : s.ie.getLsbD 0 = true
  memoryForm : s.mem.wf = true
  exceptionCode : s.ec.toNat < 0x0A
  doubleFaultStops : s.df = true → s.stopf = true

/-! ### Addresses that behave as memory -/

/-- A write to the address completes, and changes at most the memory there: the RAM half, and the bus stores the byte in plain
memory or ignores it (R77). -/
def State.Takes (s : State) (a : Word) : Prop :=
  a.msb = true ∧ (s.platform.writePolicy a = .memory ∨ s.platform.writePolicy a = .ignore)

/-- The address of byte `k` counted down from the stack pointer, bit 31 forced (R28, R83): the `k`-th byte a push writes. -/
def pushAddress (sp : Word) (k : Nat) : Word := stackAddress (sp - BitVec.ofNat 32 k)

/-- The address of byte `k` counted up from the stack pointer, bit 31 forced (R28, R84): byte `k`, from 0, that a pop reads. -/
def popAddress (sp : Word) (k : Nat) : Word := stackAddress (sp + BitVec.ofNat 32 k)

/-- Writes to the `n` bytes from an address up, modulo `2^32`, are all stored or ignored (R79). -/
def State.TakesAll (s : State) (a : Word) (n : Nat) : Prop := ∀ k, k < n → s.Takes (a + BitVec.ofNat 32 k)

/-- The `n` bytes from an address up, modulo `2^32`, read as the bytes of `v`, little-endian (R78). -/
def State.Holds {w : Nat} (s : State) (a : Word) (n : Nat) (v : BitVec w) : Prop :=
  ∀ k, k < n → s.peek (a + BitVec.ofNat 32 k) = some (byteAt v k)

/-- The four bytes a push writes are all stored or ignored. -/
def State.StackTakes (s : State) : Prop := ∀ k, k < 4 → s.Takes (pushAddress s.sp (k + 1))

/-- The four bytes a pop reads are those of `v`, little-endian. -/
def State.StackHolds (s : State) (v : Word) : Prop := ∀ k, k < 4 → s.peek (popAddress s.sp k) = some (byteAt v k)

/-- Byte `k` of a push, from 0, is the first that is refused: the bytes before it are stored or ignored (R83). -/
structure State.PushRefusedAt (s : State) (k : Nat) : Prop where
  lt : k < 4
  taken : ∀ j, j < k → s.Takes (pushAddress s.sp (j + 1))
  refused : s.platform.writePolicy (pushAddress s.sp (k + 1)) = .refuse

/-- Where a pop reads byte `k`, from 0: the first at `SP` itself, the others with bit 31 forced (R28, R84). -/
def popByteAddress (sp : Word) (k : Nat) : Word := if k = 0 then sp else popAddress sp k

/-- Byte `k` of a pop, from 0, is the first that is refused: the bytes before it are answered (R84). -/
structure State.PopRefusedAt (s : State) (k : Nat) : Prop where
  lt : k < 4
  answered : ∀ j, j < k → ∃ b, s.peek (popByteAddress s.sp j) = some b
  refused : s.platform.readPolicy (popByteAddress s.sp k) = .refuse

/-- Of the `n` bytes from an address up, byte `k` is the first whose read is refused (R78). -/
structure State.ReadRefusedAt (s : State) (a : Word) (n k : Nat) : Prop where
  lt : k < n
  answered : ∀ j, j < k → ∃ b, s.peek (a + BitVec.ofNat 32 j) = some b
  refused : s.platform.readPolicy (a + BitVec.ofNat 32 k) = .refuse

/-- A write to the address is refused, by the CPU's own check or by the virtual hardware (R77). -/
def State.RefusesWrite (s : State) (a : Word) : Prop := a.msb = false ∨ s.platform.writePolicy a = .refuse

/-- Of the `n` bytes from an address up, byte `k` is the first whose write is refused: those before it are stored or
ignored (R79). -/
structure State.WriteRefusedAt (s : State) (a : Word) (n k : Nat) : Prop where
  lt : k < n
  taken : s.TakesAll a k
  refused : s.RefusesWrite (a + BitVec.ofNat 32 k)

/-! ### Frames: what changed and what did not -/

/-- Memory reads as before at every address. -/
def MemoryKept (s t : State) : Prop := ∀ a : Word, t.mem.read a.toNat = s.mem.read a.toNat

/-- Memory reads as before but at those of the `n` addresses from `a` up that the bus does not ignore, which hold the bytes of
`v`, little-endian. -/
def MemoryWritten {w : Nat} (s t : State) (a : Word) (n : Nat) (v : BitVec w) : Prop :=
  (∀ k, k < n → s.platform.writePolicy (a + BitVec.ofNat 32 k) = .memory →
      t.mem.read (a + BitVec.ofNat 32 k).toNat = byteAt v k) ∧
    ∀ b : Word, (∀ k, k < n → b = a + BitVec.ofNat 32 k → s.platform.writePolicy b = .ignore) →
      t.mem.read b.toNat = s.mem.read b.toNat

/-- Memory reads as before but at those of the first `n` bytes a push writes that the bus does not ignore, which hold the bytes
of `v`, the most significant first. -/
def BytesPushed (s t : State) (v : Word) (n : Nat) : Prop :=
  (∀ k, k < n → s.platform.writePolicy (pushAddress s.sp (k + 1)) = .memory →
      t.mem.read (pushAddress s.sp (k + 1)).toNat = byteAt v (3 - k)) ∧
    ∀ b : Word, (∀ k, k < n → b = pushAddress s.sp (k + 1) → s.platform.writePolicy b = .ignore) →
      t.mem.read b.toNat = s.mem.read b.toNat

/-- `BytesPushed` of all four bytes. -/
def MemoryPushed (s t : State) (v : Word) : Prop := BytesPushed s t v 4

/-- A push of `v` abandoned at byte `k`, from 0: the bytes before it are written, `SP` keeps its `k + 1` decrements, and
nothing else has changed (R83, R524). -/
structure PushAbandoned (s t : State) (v : Word) (k : Nat) : Prop where
  sp : t.sp = pushAddress s.sp (k + 1)
  memory : BytesPushed s t v k
  rest : t = { s with sp := t.sp, mem := t.mem }

/-- A store of `v` from `a` up abandoned at byte `k`, from 0: the bytes before it are written, and nothing else has changed
(R79, R524). -/
structure StoreAbandoned (s t : State) (a v : Word) (k : Nat) : Prop where
  memory : MemoryWritten s t a k v
  rest : t = { s with mem := t.mem }

/-- Every general register is unchanged. -/
def RegistersKept (s t : State) : Prop := ∀ r : Reg, t.getD r = s.getD r

/-- Bits `low` to `low + width - 1` of register `x` hold the low bits of `v`; every other bit of every general register
is unchanged (R23). -/
def RegisterBits {w : Nat} (s t : State) (x : Reg) (low width : Nat) (v : BitVec w) : Prop :=
  ∀ (r : Reg) (k : Nat), (t.getD r).getLsbD k =
    if r = x ∧ low ≤ k ∧ k < low + width then v.getLsbD (k - low) else (s.getD r).getLsbD k

/-- `PC` and `SP` are unchanged (in `exec`, `PC` is already past the instruction). -/
structure PointersKept (s t : State) : Prop where
  pc : t.pc = s.pc
  sp : t.sp = s.sp

/-- The platform and the environment are unchanged, and no free value was used. -/
structure OutsideKept (s t : State) : Prop where
  platform : t.platform = s.platform
  env : t.env = s.env
  fresh : t.fresh = s.fresh

/-- The power flags and the interrupt and exception registers but for `IME` and `IMP` are unchanged. -/
structure SystemKept (s t : State) : Prop where
  stopf : t.stopf = s.stopf
  haltf : t.haltf = s.haltf
  df : t.df = s.df
  ie : t.ie = s.ie
  irq : t.irq = s.irq
  ec : t.ec = s.ec

/-- The end of a frame whose instruction does not touch `IME` or `IMP`: the promotion (R507). -/
structure Promoted (s t : State) : Prop where
  ime : t.ime = (s.ime || s.imp)
  imp : t.imp = false

/-- What an instruction leaves alone that writes no control state. -/
structure ControlKept (s t : State) : Prop where
  system : SystemKept s t
  promoted : Promoted s t
  outside : OutsideKept s t

/-- An instruction that writes nothing but bits of one general register. -/
structure WritesOnlyRegister {w : Nat} (s t : State) (x : Reg) (low width : Nat) (v : BitVec w) : Prop where
  bits : RegisterBits s t x low width v
  flags : t.flags = s.flags
  pointers : PointersKept s t
  memory : MemoryKept s t
  control : ControlKept s t

/-- An instruction that writes nothing but bits of one general register and the flags. -/
structure WritesRegisterAndFlags {w : Nat} (s t : State) (x : Reg) (low width : Nat) (v : BitVec w) (f : Flags) : Prop where
  bits : RegisterBits s t x low width v
  flags : t.flags = f
  pointers : PointersKept s t
  memory : MemoryKept s t
  control : ControlKept s t

/-- An instruction that writes nothing but the flags. -/
structure WritesOnlyFlags (s t : State) (f : Flags) : Prop where
  registers : RegistersKept s t
  flags : t.flags = f
  pointers : PointersKept s t
  memory : MemoryKept s t
  control : ControlKept s t

/-- An instruction that writes nothing but `n` bytes of memory from `a` up, and the flags. -/
structure WritesMemory {w : Nat} (s t : State) (a : Word) (n : Nat) (v : BitVec w) (f : Flags) : Prop where
  registers : RegistersKept s t
  flags : t.flags = f
  pointers : PointersKept s t
  memory : MemoryWritten s t a n v
  control : ControlKept s t

/-- An instruction that writes nothing but `PC`. -/
structure WritesOnlyPc (s t : State) (target : Word) : Prop where
  registers : RegistersKept s t
  flags : t.flags = s.flags
  pc : t.pc = target
  sp : t.sp = s.sp
  memory : MemoryKept s t
  control : ControlKept s t

/-- An instruction that pushes `v`, leaves `PC` at `target`, and writes nothing else. -/
structure PushesAndGoes (s t : State) (v target : Word) : Prop where
  registers : RegistersKept s t
  flags : t.flags = s.flags
  pc : t.pc = target
  sp : t.sp = pushAddress s.sp 4
  memory : MemoryPushed s t v
  control : ControlKept s t

/-! ### The values of the operations, in the spec's words -/

/-- `r` and `f` are what an addition gives (R300): wrap-around, `H` and `C` the carries out of the low part and of the
whole, `V` signed overflow. -/
structure AddResult {w : Nat} (a b : BitVec w) (carry : Nat) (r : BitVec w) (f : Flags) : Prop where
  value : r.toNat = (a.toNat + b.toNat + carry) % 2 ^ w
  z : f.z = decide (r.toNat = 0)
  n : f.n = false
  h : f.h = decide (2 ^ (w - 4) ≤ a.toNat % 2 ^ (w - 4) + b.toNat % 2 ^ (w - 4) + carry)
  c : f.c = decide (2 ^ w ≤ a.toNat + b.toNat + carry)
  v : f.v = decide (a.toInt + b.toInt + carry < -2 ^ (w - 1) ∨ 2 ^ (w - 1) ≤ a.toInt + b.toInt + carry)

/-- `r` and `f` are what a subtraction gives (R301): wrap-around, `H` and `C` the borrows, `V` signed overflow. -/
structure SubResult {w : Nat} (a b : BitVec w) (borrow : Nat) (r : BitVec w) (f : Flags) : Prop where
  value : (r.toNat : Int) = ((a.toNat : Int) - b.toNat - borrow) % 2 ^ w
  z : f.z = decide (r.toNat = 0)
  n : f.n = true
  h : f.h = decide (((a.toNat % 2 ^ (w - 4) : Nat) : Int) - (b.toNat % 2 ^ (w - 4) : Nat) - borrow < 0)
  c : f.c = decide ((a.toNat : Int) - b.toNat - borrow < 0)
  v : f.v = decide (a.toInt - b.toInt - borrow < -2 ^ (w - 1) ∨ 2 ^ (w - 1) ≤ a.toInt - b.toInt - borrow)

/-- `f` is `old` with `Z` set from a result, `N` and `H` cleared and `C` given: the flags of the shifts and rotates. -/
def ShiftFlags (old : Flags) (zero carry : Bool) (f : Flags) : Prop :=
  f = { z := zero, n := false, h := false, c := carry, v := old.v }

/-- The execution conditions the source defines, each with its value under some flags (R280). -/
def conditionTable (f : Flags) : List (Nibble × Bool) :=
  [(0x0, true), (0x1, f.z), (0x2, !f.z), (0x3, f.c), (0x4, !f.c), (0x5, f.v), (0x6, !f.v)]

/-- The exceptions with their codes, number by number (R509). -/
def exceptionTable : List (Exc × Byte) :=
  [(.ok, 0x00), (.invalidInstruction, 0x01), (.invalidArgument, 0x02), (.invalidReadAccess, 0x03), (.invalidWriteAccess, 0x04),
    (.invalidExecuteAccess, 0x05), (.divideByZero, 0x06), (.stackOverflow, 0x07), (.stackUnderflow, 0x08),
    (.hardwareError, 0x09), (.doubleFault, 0x0A)]

/-! ### Shapes of instructions, for claims about several at once -/

/-- A byte operation on one operand in its two forms, `OP LX` and `OP [DX]` (R370): `P old v r f` relates the flags before,
the operand, the result and the flags after. The memory form is one read and one write of the byte at `D[x]`; where the bus
ignores the write, the flags are written all the same. -/
def ByteOperation (onRegister onMemory : Reg → Instr) (P : Flags → Byte → Byte → Flags → Prop) : Prop :=
  ∀ (s : State) (x : Reg),
    (∃ t r f, exec (onRegister x) s = .next t ∧ P s.flags (s.getL x) r f ∧ WritesRegisterAndFlags s t x 0 8 r f) ∧
    ∀ v : Byte, s.mem.wf = true → s.Holds (s.getD x) 1 v → s.Takes (s.getD x) →
      ∃ t r f, exec (onMemory x) s = .next t ∧ P s.flags v r f ∧ WritesMemory s t (s.getD x) 1 r f

/-- An operation on `L0` and a byte in its three forms, `OP L0, IMM8`, `OP L0, LY` and `OP L0, [DY]`: `P old a b r f`
relates the flags before, `L0`, the operand, the result (which goes to `L0`) and the flags after. -/
def AccumulatorOperation (immediate : Byte → Instr) (onRegister onMemory : Reg → Instr)
    (P : Flags → Byte → Byte → Byte → Flags → Prop) : Prop :=
  ∀ s : State,
    (∀ b : Byte, ∃ t r f,
      exec (immediate b) s = .next t ∧ P s.flags (s.getL 0) b r f ∧ WritesRegisterAndFlags s t 0 0 8 r f) ∧
    (∀ y : Reg, ∃ t r f,
      exec (onRegister y) s = .next t ∧ P s.flags (s.getL 0) (s.getL y) r f ∧ WritesRegisterAndFlags s t 0 0 8 r f) ∧
    ∀ (y : Reg) (b : Byte), s.Holds (s.getD y) 1 b → ∃ t r f,
      exec (onMemory y) s = .next t ∧ P s.flags (s.getL 0) b r f ∧ WritesRegisterAndFlags s t 0 0 8 r f

/-! ### The Flags columns -/

/-- One character of a Flags column (R7): unchanged, cleared, set, or set from the result. -/
inductive FlagEffect where
  | kept | cleared | set | result
deriving DecidableEq, Repr

/-- Whether a flag changed as a column says; `result` allows either value. -/
def FlagEffect.allows (e : FlagEffect) (before after : Bool) : Bool :=
  match e with
  | .kept => after == before
  | .cleared => !after
  | .set => after
  | .result => true

/-- A Flags column, in the order `ZNHCV` (R7). -/
structure FlagColumn where
  z : FlagEffect
  n : FlagEffect
  h : FlagEffect
  c : FlagEffect
  v : FlagEffect
deriving DecidableEq, Repr

/-- Whether all five flags changed as a column says. -/
def FlagColumn.allows (col : FlagColumn) (before after : Flags) : Bool :=
  col.z.allows before.z after.z && col.n.allows before.n after.n && col.h.allows before.h after.h &&
    col.c.allows before.c after.c && col.v.allows before.v after.v

/-- The summary of R35: the Flags column of every instruction; `-----` for those R35 does not list. -/
def flagColumn (i : Instr) : FlagColumn :=
  match i with
  | .clv =>
    ⟨.kept, .kept, .kept, .kept, .cleared⟩
  | .sev =>
    ⟨.kept, .kept, .kept, .kept, .set⟩
  | .scf =>
    ⟨.kept, .cleared, .cleared, .set, .kept⟩
  | .ccf =>
    ⟨.kept, .cleared, .cleared, .result, .kept⟩
  | .notL .. | .notM .. =>
    ⟨.kept, .set, .set, .kept, .cleared⟩
  | .rla | .rlca | .rra | .rrca =>
    ⟨.cleared, .cleared, .cleared, .result, .kept⟩
  | .daa =>
    ⟨.result, .kept, .cleared, .result, .kept⟩
  | .swapL .. | .swapM .. | .swapW .. | .swapD .. =>
    ⟨.result, .cleared, .cleared, .cleared, .kept⟩
  | .orImm .. | .orReg .. | .orInd .. | .xorImm .. | .xorReg .. | .xorInd .. =>
    ⟨.result, .cleared, .cleared, .cleared, .cleared⟩
  | .slaL .. | .slaM .. | .sraL .. | .sraM .. | .srlL .. | .srlM .. | .rlL .. | .rlM .. | .rlcL .. | .rlcM ..
  | .rrL .. | .rrM .. | .rrcL .. | .rrcM .. =>
    ⟨.result, .cleared, .cleared, .result, .kept⟩
  | .bitL .. | .bitM .. =>
    ⟨.result, .cleared, .set, .kept, .kept⟩
  | .andImm .. | .andReg .. | .andInd .. =>
    ⟨.result, .cleared, .set, .cleared, .cleared⟩
  | .incW .. | .incD .. =>
    ⟨.result, .cleared, .result, .kept, .kept⟩
  | .incL .. | .incM .. =>
    ⟨.result, .cleared, .result, .kept, .result⟩
  | .addLImm .. | .addLReg .. | .addLInd .. | .adcLImm .. | .adcLReg .. | .adcLInd .. | .addWImm ..
  | .addWReg .. | .addDImm .. | .addDReg .. =>
    ⟨.result, .cleared, .result, .result, .result⟩
  | .decW .. | .decD .. =>
    ⟨.result, .set, .result, .kept, .kept⟩
  | .decL .. | .decM .. =>
    ⟨.result, .set, .result, .kept, .result⟩
  | .subLImm .. | .subLReg .. | .subLInd .. | .sbcLImm .. | .sbcLReg .. | .sbcLInd .. | .subWImm ..
  | .subWReg .. | .subDImm .. | .subDReg .. | .cmpImm .. | .cmpReg .. | .cmpInd .. =>
    ⟨.result, .set, .result, .result, .result⟩
  | .nop | .stop | .halt | .di | .ei | .eii | .ldLImm .. | .ldLAbs .. | .ldLInd .. | .ldqLAbs .. | .ldqLInd ..
  | .ldpLAbs .. | .ldpLInd .. | .stAbsL .. | .stIndL .. | .stqAbsL .. | .stqIndL .. | .stpAbsL .. | .stpIndL ..
  | .mvLL .. | .mvHL .. | .mvLH .. | .ldWImm .. | .ldWAbs .. | .ldWInd .. | .ldqWAbs .. | .ldqWInd ..
  | .stAbsW .. | .stIndW .. | .stqAbsW .. | .stqIndW .. | .mvWW .. | .mwh .. | .mwl .. | .ldDImm ..
  | .ldDAbs .. | .ldDInd .. | .ldqDAbs .. | .ldqDInd .. | .lsp .. | .pop .. | .stAbsD .. | .stIndD ..
  | .stqAbsD .. | .stqIndD .. | .ssp .. | .push .. | .mvDD .. | .spo .. | .spi .. | .jmpImm .. | .jmpReg ..
  | .jpb .. | .call .. | .int .. | .ret .. | .reti | .setL .. | .setM .. | .resL .. | .resM .. | .togL ..
  | .togM .. =>
    ⟨.kept, .kept, .kept, .kept, .kept⟩

/-! ### The data accesses of the instructions -/

/-- What an instruction whose first effect is a write stores: the address of its first byte, how many bytes, and their
value, in the low bits. These are the stores and `SSP` (R515); the stack is not among them. -/
def storeOperand (i : Instr) (s : State) : Option (Word × Nat × Word) :=
  match i with
  | .stAbsL addr y => some (addr, 1, (s.getL y).setWidth 32)
  | .stIndL x y => some (s.getD x, 1, (s.getL y).setWidth 32)
  | .stqAbsL off y => some (quickAddress off, 1, (s.getL y).setWidth 32)
  | .stqIndL x y => some (quickAddress (s.getW x), 1, (s.getL y).setWidth 32)
  | .stpAbsL off y => some (portAddress off, 1, (s.getL y).setWidth 32)
  | .stpIndL x y => some (portAddress (s.getL x), 1, (s.getL y).setWidth 32)
  | .stAbsW addr y => some (addr, 2, (s.getW y).setWidth 32)
  | .stIndW x y => some (s.getD x, 2, (s.getW y).setWidth 32)
  | .stqAbsW off y => some (quickAddress off, 2, (s.getW y).setWidth 32)
  | .stqIndW x y => some (quickAddress (s.getW x), 2, (s.getW y).setWidth 32)
  | .stAbsD addr y => some (addr, 4, s.getD y)
  | .stIndD x y => some (s.getD x, 4, s.getD y)
  | .stqAbsD off y => some (quickAddress off, 4, s.getD y)
  | .stqIndD x y => some (quickAddress (s.getW x), 4, s.getD y)
  | .ssp addr => some (addr, 4, s.sp)
  | _ => none

/-- The address of the first byte an instruction writes to memory, for the instructions whose first effect is a write. -/
def storeAddress (i : Instr) (s : State) : Option Word := (storeOperand i s).map fun operand => operand.1

/-- The address of the byte a read-modify-write instruction reads and then writes (R81); `none` for every other
instruction, and where the bit number is undefined. -/
def modifyAddress (i : Instr) (s : State) : Option Word :=
  match i with
  | .incM x | .decM x | .notM x | .slaM x | .sraM x | .srlM x | .swapM x | .rlM x | .rlcM x | .rrM x | .rrcM x =>
    some (s.getD x)
  | .setM x b | .resM x b | .togM x b => if bitDefined b then some (s.getD x) else none
  | _ => none

/-- What an instruction whose first effect is a read of data reads: the address of its first byte and how many bytes. These
are the loads, the memory operands of the accumulator instructions, `BIT` on memory and the read-modify-write instructions
(R514); the stack is not among them. -/
def readOperand (i : Instr) (s : State) : Option (Word × Nat) :=
  match i with
  | .ldLAbs _ addr => some (addr, 1)
  | .ldLInd _ y => some (s.getD y, 1)
  | .ldqLAbs _ off => some (quickAddress off, 1)
  | .ldqLInd _ y => some (quickAddress (s.getW y), 1)
  | .ldpLAbs _ off => some (portAddress off, 1)
  | .ldpLInd _ y => some (portAddress (s.getL y), 1)
  | .ldWAbs _ addr => some (addr, 2)
  | .ldWInd _ y => some (s.getD y, 2)
  | .ldqWAbs _ off => some (quickAddress off, 2)
  | .ldqWInd _ y => some (quickAddress (s.getW y), 2)
  | .ldDAbs _ addr => some (addr, 4)
  | .ldDInd _ y => some (s.getD y, 4)
  | .ldqDAbs _ off => some (quickAddress off, 4)
  | .ldqDInd _ y => some (quickAddress (s.getW y), 4)
  | .addLInd y | .adcLInd y | .subLInd y | .sbcLInd y | .andInd y | .orInd y | .xorInd y | .cmpInd y => some (s.getD y, 1)
  | .bitM x b => if bitDefined b then some (s.getD x, 1) else none
  | i => (modifyAddress i s).map fun a => (a, 1)

/-- The instruction that does with an immediate value what a load or an accumulator instruction does with the value of its
memory operand. -/
def immediateForm (i : Instr) (v : Word) : Option Instr :=
  match i with
  | .ldLAbs x _ | .ldLInd x _ | .ldqLAbs x _ | .ldqLInd x _ | .ldpLAbs x _ | .ldpLInd x _ => some (.ldLImm x (v.setWidth 8))
  | .ldWAbs x _ | .ldWInd x _ | .ldqWAbs x _ | .ldqWInd x _ => some (.ldWImm x (v.setWidth 16))
  | .ldDAbs x _ | .ldDInd x _ | .ldqDAbs x _ | .ldqDInd x _ => some (.ldDImm x v)
  | .addLInd _ => some (.addLImm (v.setWidth 8))
  | .adcLInd _ => some (.adcLImm (v.setWidth 8))
  | .subLInd _ => some (.subLImm (v.setWidth 8))
  | .sbcLInd _ => some (.sbcLImm (v.setWidth 8))
  | .andInd _ => some (.andImm (v.setWidth 8))
  | .orInd _ => some (.orImm (v.setWidth 8))
  | .xorInd _ => some (.xorImm (v.setWidth 8))
  | .cmpInd _ => some (.cmpImm (v.setWidth 8))
  | _ => none

/-- The register that holds the address of the one byte of memory that `BIT` tests or a read-modify-write instruction changes,
and the instruction that does the same to `L` of that register. -/
def registerForm (i : Instr) : Option (Reg × Instr) :=
  match i with
  | .bitM x b => some (x, .bitL x b)
  | .incM x => some (x, .incL x)
  | .decM x => some (x, .decL x)
  | .notM x => some (x, .notL x)
  | .slaM x => some (x, .slaL x)
  | .sraM x => some (x, .sraL x)
  | .srlM x => some (x, .srlL x)
  | .swapM x => some (x, .swapL x)
  | .rlM x => some (x, .rlL x)
  | .rlcM x => some (x, .rlcL x)
  | .rrM x => some (x, .rrL x)
  | .rrcM x => some (x, .rrcL x)
  | .setM x b => some (x, .setL x b)
  | .resM x b => some (x, .resL x b)
  | .togM x b => some (x, .togL x b)
  | _ => none

/-! ### Accesses, byte by byte on the bus -/

/-- `n` byte reads at ascending addresses modulo `2^32`, the first refusal ending them (R78). -/
def readBytes (n : Nat) (a : Word) : Act (List Byte) :=
  match n with
  | 0 => Act.pure []
  | k + 1 =>
    Act.bind (readBytes k a) fun bytes =>
    Act.bind (busRead (a + BitVec.ofNat 32 k)) fun b =>
    Act.pure (bytes ++ [b])

/-- The low `n` bytes of `v` written at ascending addresses modulo `2^32`, the first refusal ending them (R79). -/
def writeBytes (n : Nat) (a v : Word) : Act Unit :=
  match n with
  | 0 => Act.pure ()
  | k + 1 => Act.then (writeBytes k a v) (busWrite (a + BitVec.ofNat 32 k) (byteAt v k))

/-- The first `n` bytes of `v`, the most significant first, each written where `SP` points after its decrement (R83). -/
def stackWrite (n : Nat) (v : Word) : Act Unit :=
  match n with
  | 0 => Act.pure ()
  | k + 1 =>
    Act.then (stackWrite k v) fun s =>
      busWrite (pushAddress s.sp 1) (byteAt v (3 - k)) { s with sp := pushAddress s.sp 1 }

/-- `n` bytes read where `SP` points, which each byte that is answered increments (R84). -/
def stackRead (n : Nat) : Act (List Byte) :=
  match n with
  | 0 => Act.pure []
  | k + 1 =>
    Act.bind (stackRead k) fun bytes =>
    Act.bind (fun s => busRead s.sp s) fun b =>
    Act.then (update fun s => { s with sp := popAddress s.sp 1 }) <|
    Act.pure (bytes ++ [b])

/-- `n` bytes read where `PC` points, which each byte that is answered increments (R82). -/
def fetchBytes (n : Nat) : Act (List Byte) :=
  match n with
  | 0 => Act.pure []
  | k + 1 =>
    Act.bind (fetchBytes k) fun bytes =>
    Act.bind (fun s => busRead s.pc s) fun b =>
    Act.then (update fun s => s.setPc (s.pc + 1)) <|
    Act.pure (bytes ++ [b])

end Sys2Proof.Machine
end

