-- ==== Sys2Proof/Certificates/Slice0/Obligations.lean ====
section
/-! DEFINITION. The statements for the provers. Each docstring names what it formalises; the shapes and frames are
those of Safety.lean. `exec` runs on a state whose `PC` is already past the instruction. -/

open Sys2Proof Sys2Proof.Machine

/-! ### Encoding -/

/-- Decode and encode agree (R100 to R110; the opcode byte order is the spec's decision D5, log 18): the bytes of any
instruction, with any bytes after them, decode to that instruction, whether or not `STRICT_FIELDS` is set. -/
def Obligations.decode_of_encode : Prop :=
  ∀ (strict : Bool) (i : Instr) (rest : List Byte), decode strict (encode i ++ rest) = .ok (i, rest)

/-- Words written out from the encodings of R110 decode to the instructions they stand for, one per family. Two points of them
are decisions of the spec, not the source's: the low opcode byte comes first in memory (R101, D5; log 18), and `0x6D` has its
register in field X (C3, D37; log 31). -/
def Obligations.written_words_decode : Prop :=
  decode false [0x00, 0x05] = .ok (.eii, []) ∧
  decode false [0x10, 0x11, 0x00, 0x10, 0x00, 0x80] = .ok (.ldLAbs 1 0x80001000, []) ∧
  decode false [0x12, 0x2E] = .ok (.mwh 1 2, []) ∧
  decode false [0x30, 0x30, 0xBE, 0xBA, 0xFE, 0xCA] = .ok (.ldDImm 3 0xCAFEBABE, []) ∧
  decode false [0x20, 0x42, 0xF8, 0xFF] = .ok (.jpb 2 0xFFF8, []) ∧
  decode false [0x00, 0x50, 0x3A] = .ok (.addLImm 0x3A, []) ∧
  decode false [0x70, 0x6D] = .ok (.incD 7, []) ∧
  decode false [0x03, 0x7E] = .ok (.cmpReg 3, []) ∧
  decode false [0x40, 0x89] = .ok (.swapD 4, []) ∧
  decode false [0x50, 0x9B] = .ok (.rrcM 5, []) ∧
  decode false [0x63, 0xA7] = .ok (.togM 6 3, [])

/-- The length is a function of the identifier (R102), and the identifiers without an instruction are those of R111: with
enough bytes to read, an opcode either is reported undefined, after its two bytes, or is an instruction that takes its two
bytes and the immediate of its identifier. That it is one with ANY fields, unused ones being ignored, is the spec's decision
D7 (R109; log 19); with `STRICT_FIELDS` set, one whose low byte is not what the encoder emits, zeros in the unused fields, is
refused. -/
def Obligations.identifier_decides_the_length : Prop :=
  ∀ (lo ii : Byte) (rest : List Byte), 4 ≤ rest.length →
    let n := ii.toNat
    if (0x0B ≤ n ∧ n ≤ 0x0F) ∨ n = 0x25 ∨ n = 0x26 ∨ n = 0x2B ∨ n = 0x2C ∨ (0x47 ≤ n ∧ n ≤ 0x4F) ∨ (0x68 ≤ n ∧ n ≤ 0x6B) ∨
        n = 0x7B ∨ n = 0x7C ∨ (0x8A ≤ n ∧ n ≤ 0x8F) ∨ (0x9C ≤ n ∧ n ≤ 0x9F) ∨ 0xA8 ≤ n then
      ∀ strict, decode strict (lo :: ii :: rest) = .error (.undefinedIdentifier ii)
    else
      ∃ i after, after = rest.drop (
          if ii ∈ [0x10, 0x15, 0x1B, 0x50, 0x53, 0x56, 0x59, 0x70, 0x73, 0x76, 0x7D] then 1
          else if ii ∈ [0x13, 0x19, 0x20, 0x23, 0x29, 0x33, 0x39, 0x42, 0x60, 0x64] then 2
          else if ii ∈ [0x11, 0x17, 0x21, 0x27, 0x30, 0x31, 0x35, 0x37, 0x3B, 0x40, 0x43, 0x62, 0x66] then 4
          else 0) ∧
        decode false (lo :: ii :: rest) = .ok (i, after) ∧
        decode true (lo :: ii :: rest) = if (encode i).head? = some lo then .ok (i, after) else .error .unusedField

/-! ### The step -/

/-- A step runs the decoded instruction (R500, R112): after the environment's moves that are due, which leave `t`, with the CPU
neither stopped nor halted and no interrupt to service, if the bytes at `PC` are readable and decode to `i`, the step is `exec`
of `i` on `t` with `PC` past those bytes and nothing else changed. Under `STRICT_FIELDS` an instruction with a non-zero unused
field is refused by name (R3, R109, D7; log 19). Then the same for every answer of the bus, a device's among them: the step is
`runInstruction` of `t`, the fetch is byte by byte through `busRead` (R82), and it changes nothing but `PC` and the counter of
the free values (log 15). -/
def Obligations.step_runs_the_decoded_instruction : Prop :=
  (∀ (s t : State) (bytes : List Byte) (i : Instr),
    deliver s = .ok t → t.stopf = false → t.haltf = false → t.selectedVector = none →
    (∀ k b, bytes[k]? = some b → t.peek (t.pc + BitVec.ofNat 32 k) = some b) →
    (decode t.platform.strictFields bytes = .ok (i, []) → step s = exec i (t.setPc (t.pc + BitVec.ofNat 32 bytes.length))) ∧
    (decode false bytes = .ok (i, []) → decode t.platform.strictFields bytes = .error .unusedField →
      step s = .refused .unusedField)) ∧
  -- byte by byte on the bus
  (∀ s t : State, deliver s = .ok t → t.stopf = false → t.haltf = false → t.selectedVector = none →
    step s = runInstruction t) ∧
  ∀ (t u : State) (bytes : List Byte) (i : Instr), fetchBytes bytes.length t = .done bytes u →
    u = { t with pc := t.pc + BitVec.ofNat 32 bytes.length, fresh := u.fresh } ∧
    (decode t.platform.strictFields bytes = .ok (i, []) → runInstruction t = exec i u) ∧
    (decode false bytes = .ok (i, []) → decode t.platform.strictFields bytes = .error .unusedField →
      runInstruction t = .refused .unusedField)

/-- `INVALID_INSTRUCTION` (R111, R512): an undefined identifier raises it after its two bytes were fetched, with `PC` past them
and nothing else changed, whatever the fields are. `t` is what the environment's moves that are due leave. The second clause is
over every answer of the bus, byte by byte (`step_runs_the_decoded_instruction` gives the step from it). -/
def Obligations.undefined_identifier_raises : Prop :=
  ∀ (t : State) (lo ii : Byte),
    ((0x0B ≤ ii.toNat ∧ ii.toNat ≤ 0x0F) ∨ ii ∈ [0x25, 0x26, 0x2B, 0x2C, 0x7B, 0x7C] ∨ (0x47 ≤ ii.toNat ∧ ii.toNat ≤ 0x4F) ∨
      (0x68 ≤ ii.toNat ∧ ii.toNat ≤ 0x6B) ∨ (0x8A ≤ ii.toNat ∧ ii.toNat ≤ 0x8F) ∨
      (0x9C ≤ ii.toNat ∧ ii.toNat ≤ 0x9F) ∨ 0xA8 ≤ ii.toNat) →
    (∀ s, deliver s = .ok t → t.stopf = false → t.haltf = false → t.selectedVector = none →
      t.peek t.pc = some lo → t.peek (t.pc + 1) = some ii →
      step s = .next (raise .invalidInstruction (t.setPc (t.pc + 2)))) ∧
    (∀ u, fetchBytes 2 t = .done [lo, ii] u → runInstruction t = .next (raise .invalidInstruction u))

/-- A refused fetch (R82, R514, R516, R523; D16, D17, log 23 and 24): a refused opcode byte raises `INVALID_EXECUTE_ACCESS`, any
refused immediate byte `INVALID_READ_ACCESS`, both with `PC` at the refused byte. `t` is what the environment's moves that are
due leave. The second part is over every answer of the bus, byte by byte, so that a device may answer or refuse any byte
(`step_runs_the_decoded_instruction` gives the step from it): nothing but `PC` and the counter of the free values (log 15) has
changed at the raise. -/
def Obligations.refused_fetch_raises : Prop :=
  (∀ (s t : State) (lo ii : Byte), deliver s = .ok t → t.stopf = false → t.haltf = false → t.selectedVector = none →
    (t.platform.readPolicy t.pc = .refuse → step s = .next (raise .invalidExecuteAccess t)) ∧
    (t.peek t.pc = some lo → t.platform.readPolicy (t.pc + 1) = .refuse →
      step s = .next (raise .invalidExecuteAccess (t.setPc (t.pc + 1)))) ∧
    (t.peek t.pc = some lo → t.peek (t.pc + 1) = some ii → ∀ k, t.ReadRefusedAt (t.pc + 2) (immLength ii) k →
      step s = .next (raise .invalidReadAccess (t.setPc (t.pc + 2 + BitVec.ofNat 32 k))))) ∧
  -- byte by byte on the bus
  ∀ (t u w : State) (k : Nat) (bytes : List Byte) (e : Exc),
    fetchBytes k t = .done bytes u → busRead u.pc u = .raised e w →
    w = { t with pc := t.pc + BitVec.ofNat 32 k, fresh := w.fresh } ∧
    (k < 2 → runInstruction t = .next (raise .invalidExecuteAccess w)) ∧
    (∀ ii, 2 ≤ k → bytes[1]? = some ii → k < 2 + immLength ii → runInstruction t = .next (raise .invalidReadAccess w))

/-- The Stop check and the Halt check (R501, R502), after the environment's moves that are due, which leave `t`: a stopped CPU
does nothing, pending interrupts or not; a halted one does nothing while no enabled interrupt is pending; with `IME` clear an
enabled pending request other than vector 0's wakes it without being serviced. -/
def Obligations.stopped_and_halted_frames : Prop :=
  ∀ s t : State, deliver s = .ok t →
    (t.stopf = true → step s = .next t) ∧
    (t.stopf = false → t.haltf = true → t.ie &&& t.irq = 0 → step s = .next t) ∧
    (t.stopf = false → t.haltf = true → t.ie &&& t.irq ≠ 0 → t.ime = false → t.irq.getLsbD 0 = false →
      step s = runInstruction { t with haltf := false })

/-! ### Interrupts -/

/-- Selection (R503; vector 0 with `IME` clear is the spec's decision D22, log 27): the vector serviced is the lowest
whose `IE` and `IRQ` bits are both set; with `IME` clear only vector 0 is considered. -/
def Obligations.lowest_ready_vector_is_selected : Prop :=
  ∀ (s : State) (i : Nat), s.selectedVector = some i ↔
    i < 32 ∧ s.ie.getLsbD i = true ∧ s.irq.getLsbD i = true ∧ (s.ime = true ∨ i = 0) ∧
      ∀ j, j < i → ¬(s.ie.getLsbD j = true ∧ s.irq.getLsbD j = true)

/-- `Acknowledge(i)` (R504): bit `i` of `IRQ`, `IME` and `HALTF` are cleared, and nothing else changes. -/
def Obligations.acknowledge_clears_request_ime_and_halt : Prop :=
  ∀ (s : State) (i : Nat), i < 32 → ∀ t, t = acknowledge i s →
    (∀ k, t.irq.getLsbD k = (s.irq.getLsbD k && decide (k ≠ i))) ∧ t.ime = false ∧ t.haltf = false ∧
    RegistersKept s t ∧ t.flags = s.flags ∧ PointersKept s t ∧ MemoryKept s t ∧ OutsideKept s t ∧
    t.ie = s.ie ∧ t.imp = s.imp ∧ t.ec = s.ec ∧ t.stopf = s.stopf ∧ t.df = s.df

/-- `VectorAddress(i)` (R506): `0x1000 + i * 0x80`, each slot of 128 bytes inside `0x1000` to `0x1FFF`, in the read-only
half. -/
def Obligations.vector_addresses : Prop :=
  ∀ i, i < 32 → (vectorAddress i).toNat = 0x1000 + i * 0x80 ∧ (vectorAddress i).toNat + 0x7F ≤ 0x1FFF ∧
    (vectorAddress i).msb = false ∧
    vectorAddress 0 = 0x00001000 ∧ vectorAddress 1 = 0x00001080 ∧ vectorAddress 2 = 0x00001100 ∧ vectorAddress 31 = 0x00001F80

/-- Servicing an interrupt (R502 to R505; D38, log 22), after the environment's moves that are due, which leave `s`: whether the
CPU is halted or not, with stack bytes that are stored or ignored, the request is acknowledged, `PC` is pushed and loaded with
the vector's address, and the same frame runs the instruction there (D39, log 28). -/
def Obligations.interrupt_is_serviced_then_handler_runs : Prop :=
  ∀ (before s : State) (i : Nat), deliver before = .ok s → s.stopf = false → s.selectedVector = some i → s.mem.wf = true →
    s.StackTakes →
    ∃ t, step before = runInstruction t ∧ t.pc = vectorAddress i ∧ t.sp = pushAddress s.sp 4 ∧ MemoryPushed s t s.pc ∧
      (∀ k, t.irq.getLsbD k = (s.irq.getLsbD k && decide (k ≠ i))) ∧ t.ime = false ∧ t.haltf = false ∧
      RegistersKept s t ∧ t.flags = s.flags ∧ t.ie = s.ie ∧ t.imp = s.imp ∧ t.ec = s.ec ∧ t.stopf = s.stopf ∧
      t.df = s.df ∧ OutsideKept s t

/-! ### Exceptions -/

/-- Taking an exception (R509, R510; the saved `PC` is D17, log 24): each of the eleven exceptions has the code R509 gives it.
With none being handled and stack bytes that are stored or ignored, `EC` gets the code, vector 0's request, `IME` and `HALTF`
are cleared, `PC` is pushed and becomes `0x1000`, and the rest is as it was. -/
def Obligations.raise_enters_the_handler : Prop :=
  (∀ (e : Exc) (code : Byte), e.code = code ↔ (e, code) ∈ exceptionTable) ∧
  ∀ (s : State) (e : Exc) (code : Byte), (e, code) ∈ exceptionTable → code ≠ 0x00 → code ≠ 0x0A → s.ec = 0 → s.mem.wf = true →
    s.StackTakes → ∀ t, t = raise e s →
      t.ec = code ∧ t.pc = 0x00001000 ∧ t.sp = pushAddress s.sp 4 ∧ MemoryPushed s t s.pc ∧
      (∀ k, t.irq.getLsbD k = (s.irq.getLsbD k && decide (k ≠ 0))) ∧ t.ime = false ∧ t.haltf = false ∧ t.imp = s.imp ∧
      RegistersKept s t ∧ t.flags = s.flags ∧ t.ie = s.ie ∧ t.df = s.df ∧ t.stopf = s.stopf ∧ OutsideKept s t

/-- Double faults (R511, R521, R522; `EC` after one is D18, log 25): a raise while `EC` is non-zero, or of `DOUBLE_FAULT`,
sets `DF` and `STOPF` and nothing else; so does a push refused while vector 0 is entered, at its first byte or a later one,
`EC` then holding the code and `SP` the decrements made; raising `OK` does nothing. -/
def Obligations.double_faults : Prop :=
  ∀ (s : State) (e : Exc),
    (e ≠ .ok → s.ec ≠ 0 → raise e s = { s with df := true, stopf := true }) ∧
    raise .doubleFault s = { s with df := true, stopf := true } ∧
    raise .ok s = s ∧
    (e ≠ .ok → e ≠ .doubleFault → s.ec = 0 → s.platform.writePolicy (pushAddress s.sp 1) = .refuse →
      raise e s = { acknowledge 0 s with ec := e.code, sp := pushAddress s.sp 1, df := true, stopf := true }) ∧
    (e ≠ .ok → e ≠ .doubleFault → s.ec = 0 → s.mem.wf = true → ∀ k, s.PushRefusedAt k →
      ∃ u, PushAbandoned (acknowledge 0 { s with ec := e.code }) u s.pc k ∧ raise e s = { u with df := true, stopf := true })

/-- A double fault is left by a hardware reset only (R36, R43, R511; that the move `clearStop` then does nothing is log 11): while
`DF` and `STOPF` are set, a step whose moves of the environment hold no reset leaves both set and the CPU's registers, `PC`,
`SP` and flags as they were. -/
def Obligations.only_reset_leaves_a_double_fault : Prop :=
  ∀ (s t : State), s.df = true → s.stopf = true → (∀ batch, s.env.head? = some batch → EnvMove.reset ∉ batch) →
    step s = .next t →
    t.df = true ∧ t.stopf = true ∧ RegistersKept s t ∧ t.flags = s.flags ∧ PointersKept s t ∧ t.ime = s.ime ∧
      t.imp = s.imp ∧ t.haltf = s.haltf ∧ t.ec = s.ec

/-- The argument check (R112, R280, R285, R400, R513; conditions 7 to 15 and bits 8 to 15 are D8 and D9, log 20): an
instruction with an undefined condition, bit number or vector raises `INVALID_ARGUMENT` before any other effect. -/
def Obligations.undefined_arguments_raise : Prop :=
  ∀ (s : State) (x y : Reg) (c b : Nibble) (n : Byte) (w : Word) (h : Half),
    (7 ≤ c.toNat → ∀ i ∈ [Instr.jmpImm c w, .jmpReg c y, .jpb c h, .call c w, .ret c],
      exec i s = .next (raise .invalidArgument s)) ∧
    (0x20 ≤ n.toNat → exec (.int n) s = .next (raise .invalidArgument s)) ∧
    (8 ≤ b.toNat → ∀ i ∈ [Instr.bitL x b, .bitM x b, .setL x b, .setM x b, .resL x b, .resM x b, .togL x b, .togM x b],
      exec i s = .next (raise .invalidArgument s))

/-- The CPU's own write check (R72, R77, R515): a store or `SSP` whose first byte lies in the read-only half raises
`INVALID_WRITE_ACCESS` with nothing written; a read-modify-write there that can read its byte does so at its write. -/
def Obligations.stores_to_the_read_only_half_raise : Prop :=
  ∀ (s : State) (i : Instr) (a : Word), a.msb = false →
    (storeAddress i s = some a → exec i s = .next (raise .invalidWriteAccess s)) ∧
    (modifyAddress i s = some a → ∀ b, s.peek a = some b → exec i s = .next (raise .invalidWriteAccess s))

/-- Partial stores (R79, R515, R524; D12, log 21): a store or `SSP` refused at a byte, by the CPU's own check or by the virtual
hardware, has written the bytes below (those the bus does not ignore), changes nothing else, and raises
`INVALID_WRITE_ACCESS`; one that starts at the last address writes a byte there and raises at address 0. -/
def Obligations.stores_past_the_top_are_partial : Prop :=
  ∀ s : State,
    (∀ (i : Instr) (a v : Word) (n k : Nat), s.mem.wf = true → storeOperand i s = some (a, n, v) → s.WriteRefusedAt a n k →
      ∃ u, StoreAbandoned s u a v k ∧ exec i s = .next (raise .invalidWriteAccess u)) ∧
    (∀ x y : Reg, s.platform.writePolicy 0xFFFFFFFF = .memory → s.getD x = 0xFFFFFFFF →
      exec (.stIndW x y) s = .next (raise .invalidWriteAccess { s with mem := s.mem.write 0xFFFFFFFF (s.getL y) }) ∧
      exec (.stIndD x y) s = .next (raise .invalidWriteAccess { s with mem := s.mem.write 0xFFFFFFFF (s.getL y) }))

/-- The bus's answers, byte by byte (R72, R76, R77), and that every instruction that accesses data does so through them, one byte
after the other at ascending addresses (R78, R79, R81; D10 to D12, log 21): a load or an accumulator operation does what its
immediate form does with the value read, `BIT` on memory what it does to a register with that value, a read-modify-write writes
what its register form gives and then the flags; the first refusal ends the instruction. Then, over every form, what a refused,
an open-bus or an ignored access does (R514, R515, R524). The accesses of the stack are those of `refused_stack_bytes`. -/
def Obligations.bus_answers : Prop :=
  ∀ s : State,
    -- one byte
    (∀ a : Word,
      (s.platform.readPolicy a = .memory → busRead a s = .done (s.mem.read a.toNat) s) ∧
      (s.platform.readPolicy a = .openBus → busRead a s = .done 0xFF s) ∧
      (s.platform.readPolicy a = .refuse → busRead a s = .raised .invalidReadAccess s) ∧
      ∀ b : Byte,
        (a.msb = false → busWrite a b s = .raised .invalidWriteAccess s) ∧
        (a.msb = true → s.platform.writePolicy a = .memory → s.mem.wf = true → ∃ t, busWrite a b s = .done () t ∧
          t = { s with mem := t.mem } ∧ ∀ c : Word, t.mem.read c.toNat = if c = a then b else s.mem.read c.toNat) ∧
        (a.msb = true → s.platform.writePolicy a = .ignore → busWrite a b s = .done () s) ∧
        (a.msb = true → s.platform.writePolicy a = .refuse → busWrite a b s = .raised .invalidWriteAccess s)) ∧
    -- every read of data
    (∀ i a n, readOperand i s = some (a, n) →
      (∀ e t, readBytes n a s = .raised e t → exec i s = .next (raise e t)) ∧
      (∀ bytes t, readBytes n a s = .done bytes t →
        (∀ j, immediateForm i (joinBytes bytes) = some j → exec i s = exec j t) ∧
        (∀ x b u, i = .bitM x b → exec (.bitL x b) (t.setL x ((joinBytes bytes).setWidth 8)) = .next u →
          exec i s = exec .nop (t.setFlags u.flags)))) ∧
    -- every write of data
    (∀ i a n v, storeOperand i s = some (a, n, v) →
      (∀ e t, writeBytes n a v s = .raised e t → exec i s = .next (raise e t)) ∧
      (∀ t, writeBytes n a v s = .done () t → exec i s = exec .nop t)) ∧
    (∀ i x j a b t u, modifyAddress i s = some a → registerForm i = some (x, j) → busRead a s = .done b t →
      exec j (t.setL x b) = .next u →
      (∀ e w, busWrite a (u.getL x) t = .raised e w → exec i s = .next (raise e w)) ∧
      (∀ w, busWrite a (u.getL x) t = .done () w → exec i s = exec .nop (w.setFlags u.flags))) ∧
    -- a byte that is refused
    (∀ i a n k, readOperand i s = some (a, n) → s.ReadRefusedAt a n k → exec i s = .next (raise .invalidReadAccess s)) ∧
    (∀ i a, s.RefusesWrite a →
      (storeAddress i s = some a → exec i s = .next (raise .invalidWriteAccess s)) ∧
      (modifyAddress i s = some a → ∀ b, s.peek a = some b → exec i s = .next (raise .invalidWriteAccess s))) ∧
    -- open bus at every byte
    (∀ i a n, readOperand i s = some (a, n) → (∀ k, k < n → s.platform.readPolicy (a + BitVec.ofNat 32 k) = .openBus) →
      (∀ j, immediateForm i 0xFFFFFFFF = some j → exec i s = exec j s) ∧
      (∀ x b u, i = .bitM x b → exec (.bitL x b) (s.setL x 0xFF) = .next u → exec i s = exec .nop (s.setFlags u.flags))) ∧
    (∀ i x j a u, modifyAddress i s = some a → registerForm i = some (x, j) → s.platform.readPolicy a = .openBus →
      exec j (s.setL x 0xFF) = .next u →
      (∀ e w, busWrite a (u.getL x) s = .raised e w → exec i s = .next (raise e w)) ∧
      (∀ w, busWrite a (u.getL x) s = .done () w → exec i s = exec .nop (w.setFlags u.flags))) ∧
    -- ignored at every byte
    (∀ i a n v, storeOperand i s = some (a, n, v) →
      (∀ k, k < n → (a + BitVec.ofNat 32 k).msb = true ∧ s.platform.writePolicy (a + BitVec.ofNat 32 k) = .ignore) →
      exec i s = exec .nop s) ∧
    (∀ i x j a b u, modifyAddress i s = some a → registerForm i = some (x, j) → s.peek a = some b → a.msb = true →
      s.platform.writePolicy a = .ignore → exec j (s.setL x b) = .next u → exec i s = exec .nop (s.setFlags u.flags))

/-- A window on a device, for every access, each of which meets it byte by byte (data: `bus_answers`; stack: `refused_stack_bytes`;
fetch: `step_runs_the_decoded_instruction`, `undefined_identifier_raises`, `refused_fetch_raises`), and
spelled out for the loads and accumulator operations that read one byte, every read of data it refuses, and the stores of one
byte. That a device answers a read with a byte or refuses it, and takes a write or refuses it, is R76 and R77. The rest is THE
MODEL'S CHOICE (DESIGN CHOICE, log 8 and 15): the answer is a free value, each access uses one number of the counter `fresh`,
and the access leaves memory and all other state as it was, a device changing what it owns between frames only (log 10). -/
def Obligations.device_windows : Prop :=
  ∀ (s : State) (a : Word),
    (s.platform.readPolicy a = .device →
      match Config.deviceRead s.fresh a with
      | some b => busRead a s = .done b { s with fresh := s.fresh + 1 } ∧
          ∀ i j, readOperand i s = some (a, 1) → immediateForm i (b.setWidth 32) = some j →
            exec i s = exec j { s with fresh := s.fresh + 1 }
      | none => busRead a s = .raised .invalidReadAccess { s with fresh := s.fresh + 1 } ∧
          ∀ i n, readOperand i s = some (a, n) → exec i s = .next (raise .invalidReadAccess { s with fresh := s.fresh + 1 })) ∧
    (a.msb = true → s.platform.writePolicy a = .device →
      (∀ b, busWrite a b s = if Config.deviceAccepts s.fresh a b then .done () { s with fresh := s.fresh + 1 }
        else .raised .invalidWriteAccess { s with fresh := s.fresh + 1 }) ∧
      ∀ i v, storeOperand i s = some (a, 1, v) → exec i s =
        if Config.deviceAccepts s.fresh a (v.setWidth 8) then exec .nop { s with fresh := s.fresh + 1 }
        else .next (raise .invalidWriteAccess { s with fresh := s.fresh + 1 }))

/-- A window on a system register, for every access, each of which meets it byte by byte (data: `bus_answers`; stack:
`refused_stack_bytes`; fetch: `step_runs_the_decoded_instruction`, `undefined_identifier_raises`), and spelled out for the loads
and accumulator operations that read one byte and the stores of one. That a platform may map one is the parameter `SYSREG_MAP`
(R3, D26); that bit 0 of `IE` stays set is R40. The rest is THE MODEL'S CHOICE (DESIGN CHOICE, log 9), R3 and D26 giving no
layout: byte `k` of the window is byte `k` of `IE` or `IRQ`, little-endian, or `EC` at byte 0; a read gives it, a write replaces
it, and `EC` ignores writes; past the end of the register a read gives `0xFF` and a write is ignored. -/
def Obligations.system_register_windows : Prop :=
  ∀ (s : State) (a : Word) (k : Nat), s.platform.regionOffset a = k →
    (∀ r v, s.platform.readPolicy a = .sysReg r →
      (v = match r with
        | .ie => if k < 4 then byteAt s.ie k else 0xFF
        | .irq => if k < 4 then byteAt s.irq k else 0xFF
        | .ec => if k = 0 then s.ec else 0xFF) →
      busRead a s = .done v s ∧
        ∀ i j, readOperand i s = some (a, 1) → immediateForm i (v.setWidth 32) = some j → exec i s = exec j s) ∧
    (∀ r, a.msb = true → s.platform.writePolicy a = .sysReg r → ∀ b : Byte, ∃ t, busWrite a b s = .done () t ∧
      (match r with
        | .ie => t = { s with ie := t.ie } ∧ ∀ j, t.ie.getLsbD j =
            ((decide (j = 0) && decide (k < 4)) || if k < 4 ∧ 8 * k ≤ j ∧ j < 8 * k + 8 then b.getLsbD (j - 8 * k) else s.ie.getLsbD j)
        | .irq => t = { s with irq := t.irq } ∧ ∀ j, t.irq.getLsbD j =
            if k < 4 ∧ 8 * k ≤ j ∧ j < 8 * k + 8 then b.getLsbD (j - 8 * k) else s.irq.getLsbD j
        | .ec => t = s) ∧
      ∀ i v, storeOperand i s = some (a, 1, v) → b = v.setWidth 8 → exec i s = exec .nop t)

/-! ### The environment and reset -/

/-- The environment's moves (R525, R526, D27; `writeIe`: D26, D43, log 30): what each does when it is applied, but for the
hardware reset, which is `hardware_reset`; and that a step delivers the batch that is due, its moves in their order, and then
runs the frame, or is refused by the first move that is. THE MODEL'S CHOICES: the queue of batches (DESIGN CHOICE, log 10);
`remapBus`, R525 giving no such move: `Bus` is a list of regions that the environment may replace between frames (DESIGN CHOICE,
log 7); the form of `pokeByte`, R525 (g) saying only that the environment changes memory it owns: any byte of memory, which is
also how a program is loaded (log 6 and 10); that clearing the Stop flag of a double fault does nothing (log 11); and that an
undefined code is refused when it is delivered, whether or not the CPU is stopped (log 12). -/
def Obligations.environment_moves : Prop :=
  ∀ s : State,
    (∀ i : Fin 32, ∃ t, applyMove (.requestIrq i) s = .ok t ∧ t = { s with irq := t.irq } ∧
      ∀ k, t.irq.getLsbD k = (s.irq.getLsbD k || decide (k = i.val))) ∧
    (∀ v : Word, ∃ t, applyMove (.writeIe v) s = .ok t ∧ t = { s with ie := t.ie } ∧
      ∀ k, t.ie.getLsbD k = (v.getLsbD k || decide (k = 0))) ∧
    (s.stopf = true → ∀ code : Byte, code.toNat ≤ 0x0A → applyMove (.raise code) s = .ok s) ∧
    (s.stopf = false → ∀ e : Exc, applyMove (.raise e.code) s = .ok (raise e s)) ∧
    (∀ code : Byte, 0x0B ≤ code.toNat → applyMove (.raise code) s = .error (.undefinedExceptionCode code)) ∧
    (s.df = true → applyMove .clearStop s = .ok s) ∧
    (s.df = false → applyMove .clearStop s = .ok { s with stopf := false }) ∧
    (∀ (a : Word) (b : Byte), s.mem.wf = true → ∃ t, applyMove (.pokeByte a b) s = .ok t ∧ t = { s with mem := t.mem } ∧
      ∀ c : Word, t.mem.read c.toNat = if c = a then b else s.mem.read c.toNat) ∧
    (∀ bus, ∃ t, applyMove (.remapBus bus) s = .ok t ∧ t = { s with platform := t.platform } ∧
      t.platform = { resetPc := s.platform.resetPc, resetSp := s.platform.resetSp, strictFields := s.platform.strictFields, bus }) ∧
    (s.env = [] → deliver s = .ok s) ∧
    (∀ batch rest, s.env = batch :: rest →
      deliver s = batch.foldlM (fun u move => applyMove move u) { s with env := rest }) ∧
    (∀ t, deliver s = .ok t → step s = frame t) ∧
    (∀ r, deliver s = .error r → step s = .refused r)

/-- The hardware reset (R600, R48; D30, log 5 and 14): the control state takes the table's values, the ROM half stays as
loaded; nothing is said of `D0` to `D15`, the flags and the RAM half. -/
def Obligations.hardware_reset : Prop :=
  ∀ s : State, s.mem.wf = true → ∃ t, applyMove .reset s = .ok t ∧
    t.pc = s.platform.resetPc ∧ t.sp = s.platform.resetSp ||| 0x80000000 ∧
    t.stopf = false ∧ t.haltf = false ∧ t.ime = false ∧ t.imp = false ∧ t.df = false ∧
    t.ie = 0x00000001 ∧ t.irq = 0 ∧ t.ec = 0 ∧ t.mem.wf = true ∧
    (∀ a : Word, a.msb = false → t.mem.read a.toNat = s.mem.read a.toNat) ∧
    t.platform = s.platform ∧ t.env = s.env

/-- The state after reset (R48): the values the spec's table gives, with the default parameters (D30, log 4 and 5). -/
def Obligations.reset_values : Prop :=
  State.reset.pc = 0x00002000 ∧ State.reset.sp = 0xFFFFFFFF ∧ State.reset.stopf = false ∧ State.reset.haltf = false ∧
    State.reset.ime = false ∧ State.reset.imp = false ∧ State.reset.ie = 0x00000001 ∧ State.reset.irq = 0 ∧
    State.reset.ec = 0 ∧ State.reset.df = false

/-! ### Invariants -/

/-- The invariant holds after reset (R48; the values of `EC` and `DF` are the spec's decision D30, log 5). -/
def Obligations.reset_has_the_invariant : Prop := State.reset.Inv

/-- Every step keeps the invariant (R28, R40, R42, R43, R511), whatever the environment does and whatever is executed. Two points
of it are not the source's. That `EC` stays below `0x0A` rests, on a platform that maps `EC`, on THE MODEL'S CHOICE that a store to
the window is ignored (DESIGN CHOICE, log 9), and after a double fault on the spec's decision D18, which leaves `EC` as it was (log
25). That the Stop flag stays set with `DF` rests on the move `clearStop` doing nothing then (log 11). -/
def Obligations.every_step_keeps_the_invariant : Prop :=
  ∀ s t : State, s.Inv → step s = .next t → t.Inv

/-- The read-only half (R72): after the environment's moves that are due, which leave `t`, a step leaves every byte with bit 31
clear as it is in `t`, whatever is executed, exceptions and interrupts included. -/
def Obligations.read_only_half_is_never_written : Prop :=
  ∀ s t u : State, t.mem.wf = true → deliver s = .ok t → step s = .next u →
    ∀ a : Word, a.msb = false → u.mem.read a.toNat = t.mem.read a.toNat

/-- What no instruction writes (R40, R41, R45): on a platform that maps no system register, `IE` is as it was, `IRQ` is as it
was but for bit 0 (cleared when an exception is taken), and the platform and the environment are untouched. -/
def Obligations.no_instruction_writes_ie_or_requests : Prop :=
  ∀ (i : Instr) (s t : State), (∀ a r, s.platform.writePolicy a ≠ .sysReg r) → exec i s = .next t →
    t.ie = s.ie ∧ (∀ k, k ≠ 0 → t.irq.getLsbD k = s.irq.getLsbD k) ∧ (t.irq.getLsbD 0 = true → s.irq.getLsbD 0 = true) ∧
      t.platform = s.platform ∧ t.env = s.env

/-- What writes `EC` (R42, R510, R527; that an instruction that ends in a double fault leaves `EC` as it was is the spec's
decision D18, which R511 says not to rely on; log 25): an instruction leaves it, or is `RETI` and clears it, or takes an
exception (`t = raise e u`) while none is being handled, whose code it then holds; so while one is being handled nothing but
`RETI` changes it. On a platform that maps `EC` this rests on THE MODEL'S CHOICE that a store to the window is ignored (DESIGN
CHOICE, log 9). -/
def Obligations.only_reti_and_exceptions_write_ec : Prop :=
  ∀ (i : Instr) (s t : State), exec i s = .next t →
    t.ec = s.ec ∨ (i = .reti ∧ t.ec = 0) ∨
      (s.ec = 0 ∧ ∃ (e : Exc) (u : State), e ≠ .ok ∧ e ≠ .doubleFault ∧ u.ec = 0 ∧ t = raise e u ∧ t.ec = e.code)

/-- Which instructions write which flags: an instruction that completes changes the flags as its column says (R35), and one
that raises an exception leaves them alone (R524; the spec's decision D12, log 21). An instruction that completes leaves `DF`
as it was, and `EC` unless it is `RETI` (on a platform that maps `EC` by the choice of log 9); a raise changes one of the two,
but where `DF` is set already. -/
def Obligations.flag_columns : Prop :=
  ∀ (i : Instr) (s t : State), exec i s = .next t →
    ((t.ec = s.ec ∨ i = .reti ∧ t.ec = 0) ∧ t.df = s.df ∧ (flagColumn i).allows s.flags t.flags = true) ∨
    (t.flags = s.flags ∧ ∃ (e : Exc) (u : State), e ≠ .ok ∧ u.ec = s.ec ∧ u.flags = s.flags ∧ t = raise e u)

/-! ### CPU control -/

/-- `NOP`, `STOP`, `HALT`, `DI`, `EI`, `EII` (R200 to R205; what `DI`, `EI` and `EII` do to `IMP` is D19 and D20, log 26). -/
def Obligations.power_and_interrupt_control : Prop :=
  ∀ (s : State) (i : Instr), i ∈ [Instr.nop, .stop, .halt, .di, .ei, .eii] → ∃ t, exec i s = .next t ∧
    RegistersKept s t ∧ t.flags = s.flags ∧ PointersKept s t ∧ MemoryKept s t ∧ OutsideKept s t ∧
    t.stopf = (s.stopf || decide (i = .stop)) ∧ t.haltf = (s.haltf || decide (i = .halt)) ∧
    t.ime = (s.imp || (if i = .di then false else if i = .eii then true else s.ime)) ∧
    t.imp = (decide (i = .ei) && !s.imp) ∧
    t.df = s.df ∧ t.ie = s.ie ∧ t.irq = s.irq ∧ t.ec = s.ec

/-- `SCF`, `CCF`, `CLV`, `SEV` (R207 to R210). -/
def Obligations.flag_instructions : Prop :=
  ∀ s : State,
    (∃ t, exec .scf s = .next t ∧ WritesOnlyFlags s t { z := s.flags.z, n := false, h := false, c := true, v := s.flags.v }) ∧
    (∃ t, exec .ccf s = .next t ∧
      WritesOnlyFlags s t { z := s.flags.z, n := false, h := false, c := !s.flags.c, v := s.flags.v }) ∧
    (∃ t, exec .clv s = .next t ∧
      WritesOnlyFlags s t { z := s.flags.z, n := s.flags.n, h := s.flags.h, c := s.flags.c, v := false }) ∧
    (∃ t, exec .sev s = .next t ∧
      WritesOnlyFlags s t { z := s.flags.z, n := s.flags.n, h := s.flags.h, c := s.flags.c, v := true })

/-- `DAA` (R206; the algorithm is PRESUMED, D31, log 16): after an addition `0x60` is added if `C` or `L0 > 0x99` and `0x06` if
`H` or the low nibble exceeds 9; after a subtraction they are subtracted if `C` and if `H`; `C` is set if it was or if `0x60`
was added. -/
def Obligations.daa_adjusts : Prop :=
  ∀ s : State, ∃ t r f, exec .daa s = .next t ∧ WritesRegisterAndFlags s t 0 0 8 r f ∧
    (let a := (s.getL 0).toNat
     let high := s.flags.c || decide (0x99 < a)
     let low := s.flags.h || decide (9 < a % 16)
     (if s.flags.n then
        (r : Byte).toNat = (a + 512 - (if s.flags.c then 0x60 else 0) - (if s.flags.h then 0x06 else 0)) % 256
      else r.toNat = (a + (if high then 0x60 else 0) + (if low then 0x06 else 0)) % 256) ∧
     f = { z := decide (r.toNat = 0), n := s.flags.n, h := false,
           c := s.flags.c || (!s.flags.n && decide (0x99 < a)), v := s.flags.v })

/-- Decimal addition (a consequence of R302 and R206; the algorithm is PRESUMED, log 16): `ADD` then `DAA` on two packed
two-digit decimal numbers leaves the two digits of their sum in `L0` and the carry out of them in `C`. -/
def Obligations.add_then_daa_adds_decimals : Prop :=
  ∀ (s t u : State) (b : Byte) (p q : Nat), p < 100 → q < 100 →
    (s.getL 0).toNat = p / 10 * 16 + p % 10 → b.toNat = q / 10 * 16 + q % 10 →
    exec (.addLImm b) s = .next t → exec .daa t = .next u →
    (u.getL 0).toNat = (p + q) % 100 / 10 * 16 + (p + q) % 10 ∧ u.flags.c = decide (100 ≤ p + q)

/-! ### Loads, stores, moves -/

/-- Immediate loads and register moves (R220, R233 to R235, R240, R249 to R251, R260, R273, R274; the bits of the views and
the bits a narrow write keeps are D2 and D4, log 17). -/
def Obligations.immediate_loads_and_moves : Prop :=
  ∀ (s : State) (x y : Reg),
    (∀ imm, ∃ t, exec (.ldLImm x imm) s = .next t ∧ WritesOnlyRegister s t x 0 8 imm) ∧
    (∀ imm, ∃ t, exec (.ldWImm x imm) s = .next t ∧ WritesOnlyRegister s t x 0 16 imm) ∧
    (∀ imm, ∃ t, exec (.ldDImm x imm) s = .next t ∧ WritesOnlyRegister s t x 0 32 imm) ∧
    (∃ t, exec (.mvLL x y) s = .next t ∧ WritesOnlyRegister s t x 0 8 (s.getD y)) ∧
    (∃ t, exec (.mvHL x y) s = .next t ∧ WritesOnlyRegister s t x 8 8 (s.getD y)) ∧
    (∃ t, exec (.mvLH x y) s = .next t ∧ WritesOnlyRegister s t x 0 8 (s.getD y >>> 8)) ∧
    (∃ t, exec (.mvWW x y) s = .next t ∧ WritesOnlyRegister s t x 0 16 (s.getD y)) ∧
    (∃ t, exec (.mwh x y) s = .next t ∧ WritesOnlyRegister s t x 16 16 (s.getD y)) ∧
    (∃ t, exec (.mwl x y) s = .next t ∧ WritesOnlyRegister s t x 0 16 (s.getD y >>> 16)) ∧
    (∃ t, exec (.mvDD x y) s = .next t ∧ WritesOnlyRegister s t x 0 32 (s.getD y)) ∧
    (∃ t, exec (.spo x) s = .next t ∧ WritesOnlyRegister s t x 0 32 s.sp)

/-- The windows (R74): the offset of `LDQ` and `STQ` is unsigned from `0xFFFF0000`, that of `LDP` and `STP` from `0xFFFFFF00`, and
both windows lie in the RAM half. -/
def Obligations.windows : Prop :=
  (∀ off : Half, (quickAddress off).toNat = 0xFFFF0000 + off.toNat ∧ (quickAddress off).msb = true) ∧
  (∀ off : Byte, (portAddress off).toNat = 0xFFFFFF00 + off.toNat ∧ (portAddress off).msb = true)

/-- 8-bit loads (R221 to R226): where the byte can be read, it goes to `L[x]` and nothing else changes. -/
def Obligations.byte_loads : Prop :=
  ∀ (s : State) (x y : Reg) (v : Byte),
    (∀ addr, s.Holds addr 1 v → ∃ t, exec (.ldLAbs x addr) s = .next t ∧ WritesOnlyRegister s t x 0 8 v) ∧
    (s.Holds (s.getD y) 1 v → ∃ t, exec (.ldLInd x y) s = .next t ∧ WritesOnlyRegister s t x 0 8 v) ∧
    (∀ off, s.Holds (quickAddress off) 1 v → ∃ t, exec (.ldqLAbs x off) s = .next t ∧ WritesOnlyRegister s t x 0 8 v) ∧
    (s.Holds (quickAddress (s.getW y)) 1 v → ∃ t, exec (.ldqLInd x y) s = .next t ∧ WritesOnlyRegister s t x 0 8 v) ∧
    (∀ off, s.Holds (portAddress off) 1 v → ∃ t, exec (.ldpLAbs x off) s = .next t ∧ WritesOnlyRegister s t x 0 8 v) ∧
    (s.Holds (portAddress (s.getL y)) 1 v → ∃ t, exec (.ldpLInd x y) s = .next t ∧ WritesOnlyRegister s t x 0 8 v)

/-- 16- and 32-bit loads (R241 to R244, R261 to R264; byte order R91, wrap D11, log 21). -/
def Obligations.wide_loads : Prop :=
  ∀ (s : State) (x y : Reg) (v : Half) (w : Word),
    (∀ addr, s.Holds addr 2 v → ∃ t, exec (.ldWAbs x addr) s = .next t ∧ WritesOnlyRegister s t x 0 16 v) ∧
    (s.Holds (s.getD y) 2 v → ∃ t, exec (.ldWInd x y) s = .next t ∧ WritesOnlyRegister s t x 0 16 v) ∧
    (∀ off, s.Holds (quickAddress off) 2 v → ∃ t, exec (.ldqWAbs x off) s = .next t ∧ WritesOnlyRegister s t x 0 16 v) ∧
    (s.Holds (quickAddress (s.getW y)) 2 v → ∃ t, exec (.ldqWInd x y) s = .next t ∧ WritesOnlyRegister s t x 0 16 v) ∧
    (∀ addr, s.Holds addr 4 w → ∃ t, exec (.ldDAbs x addr) s = .next t ∧ WritesOnlyRegister s t x 0 32 w) ∧
    (s.Holds (s.getD y) 4 w → ∃ t, exec (.ldDInd x y) s = .next t ∧ WritesOnlyRegister s t x 0 32 w) ∧
    (∀ off, s.Holds (quickAddress off) 4 w → ∃ t, exec (.ldqDAbs x off) s = .next t ∧ WritesOnlyRegister s t x 0 32 w) ∧
    (s.Holds (quickAddress (s.getW y)) 4 w → ∃ t, exec (.ldqDInd x y) s = .next t ∧ WritesOnlyRegister s t x 0 32 w)

/-- 8-bit stores (R227 to R232): where the bus does not ignore the byte, `L[y]` is stored, and nothing else changes. -/
def Obligations.byte_stores : Prop :=
  ∀ (s : State) (x y : Reg), s.mem.wf = true →
    (∀ addr, s.TakesAll addr 1 → ∃ t, exec (.stAbsL addr y) s = .next t ∧ WritesMemory s t addr 1 (s.getL y) s.flags) ∧
    (s.TakesAll (s.getD x) 1 → ∃ t, exec (.stIndL x y) s = .next t ∧ WritesMemory s t (s.getD x) 1 (s.getL y) s.flags) ∧
    (∀ off, s.TakesAll (quickAddress off) 1 →
      ∃ t, exec (.stqAbsL off y) s = .next t ∧ WritesMemory s t (quickAddress off) 1 (s.getL y) s.flags) ∧
    (s.TakesAll (quickAddress (s.getW x)) 1 →
      ∃ t, exec (.stqIndL x y) s = .next t ∧ WritesMemory s t (quickAddress (s.getW x)) 1 (s.getL y) s.flags) ∧
    (∀ off, s.TakesAll (portAddress off) 1 →
      ∃ t, exec (.stpAbsL off y) s = .next t ∧ WritesMemory s t (portAddress off) 1 (s.getL y) s.flags) ∧
    (s.TakesAll (portAddress (s.getL x)) 1 →
      ∃ t, exec (.stpIndL x y) s = .next t ∧ WritesMemory s t (portAddress (s.getL x)) 1 (s.getL y) s.flags)

/-- 16- and 32-bit stores and `SSP` (R245 to R248, R267 to R271; byte order R91): each byte that the bus does not ignore is
stored, and nothing else changes. -/
def Obligations.wide_stores : Prop :=
  ∀ (s : State) (x y : Reg), s.mem.wf = true →
    (∀ addr, s.TakesAll addr 2 → ∃ t, exec (.stAbsW addr y) s = .next t ∧ WritesMemory s t addr 2 (s.getW y) s.flags) ∧
    (s.TakesAll (s.getD x) 2 → ∃ t, exec (.stIndW x y) s = .next t ∧ WritesMemory s t (s.getD x) 2 (s.getW y) s.flags) ∧
    (∀ off, s.TakesAll (quickAddress off) 2 →
      ∃ t, exec (.stqAbsW off y) s = .next t ∧ WritesMemory s t (quickAddress off) 2 (s.getW y) s.flags) ∧
    (s.TakesAll (quickAddress (s.getW x)) 2 →
      ∃ t, exec (.stqIndW x y) s = .next t ∧ WritesMemory s t (quickAddress (s.getW x)) 2 (s.getW y) s.flags) ∧
    (∀ addr, s.TakesAll addr 4 → ∃ t, exec (.stAbsD addr y) s = .next t ∧ WritesMemory s t addr 4 (s.getD y) s.flags) ∧
    (s.TakesAll (s.getD x) 4 → ∃ t, exec (.stIndD x y) s = .next t ∧ WritesMemory s t (s.getD x) 4 (s.getD y) s.flags) ∧
    (∀ off, s.TakesAll (quickAddress off) 4 →
      ∃ t, exec (.stqAbsD off y) s = .next t ∧ WritesMemory s t (quickAddress off) 4 (s.getD y) s.flags) ∧
    (s.TakesAll (quickAddress (s.getW x)) 4 →
      ∃ t, exec (.stqIndD x y) s = .next t ∧ WritesMemory s t (quickAddress (s.getW x)) 4 (s.getD y) s.flags) ∧
    (∀ addr, s.TakesAll addr 4 → ∃ t, exec (.ssp addr) s = .next t ∧ WritesMemory s t addr 4 s.sp s.flags)

/-! ### The stack -/

/-- `LSP` and `SPI` (R265, R275; forcing bit 31 is D14, log 22): `SP` takes the value with bit 31 set, nothing else changes. -/
def Obligations.stack_pointer_writes : Prop :=
  ∀ (s : State) (i : Instr) (v : Word), (i = .lsp v ∨ ∃ y, i = .spi y ∧ v = s.getD y) →
    ∃ t, exec i s = .next t ∧ (∀ k, t.sp.getLsbD k = (decide (k = 31) || v.getLsbD k)) ∧ t.pc = s.pc ∧
      RegistersKept s t ∧ t.flags = s.flags ∧ MemoryKept s t ∧ ControlKept s t

/-- `PUSH` and `POP` (R272, R266; the order of the bytes is D15, log 22); a byte of a push may be one that the bus ignores. -/
def Obligations.push_and_pop : Prop :=
  ∀ (s : State) (r : Reg),
    (s.mem.wf = true → s.StackTakes → ∃ t, exec (.push r) s = .next t ∧ PushesAndGoes s t (s.getD r) s.pc) ∧
    (s.sp.msb = true → ∀ v, s.StackHolds v → ∃ t, exec (.pop r) s = .next t ∧ RegisterBits s t r 0 32 v ∧
      t.flags = s.flags ∧ t.pc = s.pc ∧ t.sp = popAddress s.sp 4 ∧ MemoryKept s t ∧ ControlKept s t)

/-- `POP` undoes `PUSH` (R84, D15): with a stack that is plain memory, the value comes back and `SP` is restored. -/
def Obligations.pop_after_push_restores : Prop :=
  ∀ (s t : State) (x y : Reg), s.mem.wf = true → s.sp.msb = true →
    (∀ k, k < 4 → s.platform.readPolicy (pushAddress s.sp (k + 1)) = .memory ∧
      s.platform.writePolicy (pushAddress s.sp (k + 1)) = .memory) →
    exec (.push y) s = .next t → ∃ u, exec (.pop x) t = .next u ∧ u.getD x = s.getD y ∧ u.sp = s.sp

/-- The accesses of the stack (R83, R84): every push is four byte writes on the bus and every pop four byte reads, each with its
step of `SP`, whatever the bus answers; one that is refused, the first or a later one, is reported as `STACK_OVERFLOW` or
`STACK_UNDERFLOW` (R284, R285, R505, R518, R519; that `CALL` and `INT` report it as `PUSH` does is D16, log 23), with the bytes
pushed and the steps of `SP` kept and `PC` not loaded. The push of an interrupt's service does so too, its request lost, and the
frame goes on unless that is a double fault (log 28); the push that enters vector 0 for an exception ends in a double fault
(R511). -/
def Obligations.refused_stack_bytes : Prop :=
  ∀ (s : State) (r : Reg) (c : Nibble) (target : Word) (n : Byte), (c, true) ∈ conditionTable s.flags → n.toNat ≤ 0x1F →
    -- every push, byte by byte
    ((∀ t, stackWrite 4 (s.getD r) s = .done () t → exec (.push r) s = exec .nop t) ∧
      (∀ e t, stackWrite 4 (s.getD r) s = .raised e t → exec (.push r) s = .next (raise .stackOverflow t))) ∧
    ((∀ t, stackWrite 4 s.pc s = .done () t → exec (.call c target) s = exec .nop (t.setPc target) ∧
        exec (.int n) s = exec .nop (t.setPc (BitVec.ofNat 32 (0x1000 + n.toNat * 0x80)))) ∧
      (∀ e t, stackWrite 4 s.pc s = .raised e t →
        exec (.call c target) s = .next (raise .stackOverflow t) ∧ exec (.int n) s = .next (raise .stackOverflow t))) ∧
    (∀ before i, deliver before = .ok s → s.stopf = false → s.selectedVector = some i →
      (∀ t, stackWrite 4 s.pc (acknowledge i s) = .done () t → step before = runInstruction (t.setPc (vectorAddress i))) ∧
      (∀ e t u, stackWrite 4 s.pc (acknowledge i s) = .raised e t → u = raise .stackOverflow t →
        step before = if u.stopf then .next u else runInstruction u)) ∧
    (∀ x : Exc, x ≠ .ok → x ≠ .doubleFault → s.ec = 0 →
      (∀ t, stackWrite 4 s.pc (acknowledge 0 { s with ec := x.code }) = .done () t → raise x s = t.setPc 0x00001000) ∧
      (∀ e t, stackWrite 4 s.pc (acknowledge 0 { s with ec := x.code }) = .raised e t →
        raise x s = { t with df := true, stopf := true })) ∧
    -- every pop, byte by byte
    ((∀ bytes t v, stackRead 4 s = .done bytes t → v = joinBytes bytes →
        exec (.pop r) s = exec (.ldDImm r v) t ∧ exec (.ret c) s = exec .nop (t.setPc v) ∧
        exec .reti s = exec .nop { t.setPc v with ime := true, ec := 0 }) ∧
      (∀ e t, stackRead 4 s = .raised e t → ∀ i ∈ [Instr.pop r, .ret c, .reti], exec i s = .next (raise .stackUnderflow t))) ∧
    -- a byte that is refused
    (s.platform.writePolicy (pushAddress s.sp 1) = .refuse → ∀ i ∈ [Instr.push r, .call c target, .int n],
      exec i s = .next (raise .stackOverflow { s with sp := pushAddress s.sp 1 })) ∧
    (∀ k, s.mem.wf = true → s.PushRefusedAt k →
      (∃ u, PushAbandoned s u (s.getD r) k ∧ exec (.push r) s = .next (raise .stackOverflow u)) ∧
      (∃ u, PushAbandoned s u s.pc k ∧ exec (.call c target) s = .next (raise .stackOverflow u) ∧
        exec (.int n) s = .next (raise .stackOverflow u)) ∧
      (∀ before i, deliver before = .ok s → s.stopf = false → s.selectedVector = some i →
        ∃ u t, PushAbandoned (acknowledge i s) u s.pc k ∧ t = raise .stackOverflow u ∧
          step before = if t.stopf then .next t else runInstruction t)) ∧
    (∀ k, s.PopRefusedAt k → ∀ i ∈ [Instr.pop r, .ret c, .reti],
      exec i s = .next (raise .stackUnderflow { s with sp := popByteAddress s.sp k }))

/-! ### Branches -/

/-- `JMP` and `JPB` (R280 to R283; the base of `JPB` is D33, log 18): the target is taken exactly if the condition is met, for
each of the seven conditions; nothing but `PC` changes. -/
def Obligations.jumps : Prop :=
  ∀ (s : State) (c : Nibble) (m : Bool) (y : Reg) (target : Word) (off : Half), (c, m) ∈ conditionTable s.flags →
    (∃ t, exec (.jmpImm c target) s = .next t ∧ WritesOnlyPc s t (if m then target else s.pc)) ∧
    (∃ t, exec (.jmpReg c y) s = .next t ∧ WritesOnlyPc s t (if m then s.getD y else s.pc)) ∧
    (∃ t, exec (.jpb c off) s = .next t ∧
      WritesOnlyPc s t (if m then BitVec.ofInt 32 (s.pc.toNat + off.toInt) else s.pc))

/-- `CALL` (R284) and `INT` (R285; that it touches no interrupt state is D23, log 29): the address of the next instruction is
pushed and `PC` gets the target; a call not taken changes nothing. -/
def Obligations.calls : Prop :=
  ∀ (s : State) (c : Nibble) (m : Bool) (target : Word) (n : Byte), (c, m) ∈ conditionTable s.flags →
    (m = false → ∃ t, exec (.call c target) s = .next t ∧ WritesOnlyPc s t s.pc) ∧
    (m = true → s.mem.wf = true → s.StackTakes →
      ∃ t, exec (.call c target) s = .next t ∧ PushesAndGoes s t s.pc target) ∧
    (n.toNat ≤ 0x1F → s.mem.wf = true → s.StackTakes →
      ∃ t, exec (.int n) s = .next t ∧ PushesAndGoes s t s.pc (BitVec.ofNat 32 (0x1000 + n.toNat * 0x80)))

/-- `RET` (R286) and `RETI` (R287; both effects unconditional, D24, log 29): `PC` is popped; `RETI` also sets `IME` and clears
`EC`. -/
def Obligations.returns : Prop :=
  ∀ (s : State) (c : Nibble) (m : Bool) (v : Word), s.sp.msb = true → (c, m) ∈ conditionTable s.flags →
    (m = false → ∃ t, exec (.ret c) s = .next t ∧ WritesOnlyPc s t s.pc) ∧
    (m = true → s.StackHolds v → ∃ t, exec (.ret c) s = .next t ∧ t.pc = v ∧ t.sp = popAddress s.sp 4 ∧
      RegistersKept s t ∧ t.flags = s.flags ∧ MemoryKept s t ∧ ControlKept s t) ∧
    (s.StackHolds v → ∃ t, exec .reti s = .next t ∧ t.pc = v ∧ t.sp = popAddress s.sp 4 ∧ t.ime = true ∧ t.ec = 0 ∧
      RegistersKept s t ∧ t.flags = s.flags ∧ MemoryKept s t ∧ OutsideKept s t ∧ t.imp = false ∧
      t.stopf = s.stopf ∧ t.haltf = s.haltf ∧ t.df = s.df ∧ t.ie = s.ie ∧ t.irq = s.irq)

/-! ### Arithmetic -/

/-- 8-bit `ADD` and `ADC`, all forms (R300, R302 to R307; `H`, `C`, `V` with a carry coming in are D25, log 30). -/
def Obligations.byte_additions : Prop :=
  AccumulatorOperation .addLImm .addLReg .addLInd (fun _ a b r f => AddResult a b 0 r f) ∧
  AccumulatorOperation .adcLImm .adcLReg .adcLInd (fun old a b r f => AddResult a b old.c.toNat r f)

/-- 8-bit `SUB` and `SBC`, all forms (R301, R308 to R313; D25, log 30). -/
def Obligations.byte_subtractions : Prop :=
  AccumulatorOperation .subLImm .subLReg .subLInd (fun _ a b r f => SubResult a b 0 r f) ∧
  AccumulatorOperation .sbcLImm .sbcLReg .sbcLInd (fun old a b r f => SubResult a b old.c.toNat r f)

/-- `CMP`, all forms (R361 to R363): the flags of `SUB`, and no register is written. -/
def Obligations.compares : Prop :=
  ∀ s : State,
    (∀ b, ∃ t r f, exec (.cmpImm b) s = .next t ∧ SubResult (s.getL 0) b 0 r f ∧ WritesOnlyFlags s t f) ∧
    (∀ y, ∃ t r f, exec (.cmpReg y) s = .next t ∧ SubResult (s.getL 0) (s.getL y) 0 r f ∧ WritesOnlyFlags s t f) ∧
    (∀ y b, s.Holds (s.getD y) 1 b →
      ∃ t r f, exec (.cmpInd y) s = .next t ∧ SubResult (s.getL 0) b 0 r f ∧ WritesOnlyFlags s t f)

/-- 8-bit `INC` and `DEC`, register and memory (R314 to R317): `C` is kept; `H` exactly from a low nibble of 15 (or 0), `V`
exactly from `0x7F` (or `0x80`). -/
def Obligations.byte_increments : Prop :=
  ByteOperation .incL .incM (fun old v r f => r.toNat = (v.toNat + 1) % 256 ∧
    f = { z := decide (r.toNat = 0), n := false, h := decide (v.toNat % 16 = 15), c := old.c, v := decide (v = 0x7F) }) ∧
  ByteOperation .decL .decM (fun old v r f => r.toNat = (v.toNat + 255) % 256 ∧
    f = { z := decide (r.toNat = 0), n := true, h := decide (v.toNat % 16 = 0), c := old.c, v := decide (v = 0x80) })

/-- 16- and 32-bit `ADD` and `SUB`, all forms (R330 to R337). -/
def Obligations.wide_additions_and_subtractions : Prop :=
  ∀ (s : State) (y : Reg),
    (∀ b, ∃ t r f, exec (.addWImm b) s = .next t ∧ AddResult (s.getW 0) b 0 r f ∧ WritesRegisterAndFlags s t 0 0 16 r f) ∧
    (∃ t r f, exec (.addWReg y) s = .next t ∧ AddResult (s.getW 0) (s.getW y) 0 r f ∧
      WritesRegisterAndFlags s t 0 0 16 r f) ∧
    (∀ b, ∃ t r f, exec (.addDImm b) s = .next t ∧ AddResult (s.getD 0) b 0 r f ∧ WritesRegisterAndFlags s t 0 0 32 r f) ∧
    (∃ t r f, exec (.addDReg y) s = .next t ∧ AddResult (s.getD 0) (s.getD y) 0 r f ∧
      WritesRegisterAndFlags s t 0 0 32 r f) ∧
    (∀ b, ∃ t r f, exec (.subWImm b) s = .next t ∧ SubResult (s.getW 0) b 0 r f ∧ WritesRegisterAndFlags s t 0 0 16 r f) ∧
    (∃ t r f, exec (.subWReg y) s = .next t ∧ SubResult (s.getW 0) (s.getW y) 0 r f ∧
      WritesRegisterAndFlags s t 0 0 16 r f) ∧
    (∀ b, ∃ t r f, exec (.subDImm b) s = .next t ∧ SubResult (s.getD 0) b 0 r f ∧ WritesRegisterAndFlags s t 0 0 32 r f) ∧
    (∃ t r f, exec (.subDReg y) s = .next t ∧ SubResult (s.getD 0) (s.getD y) 0 r f ∧
      WritesRegisterAndFlags s t 0 0 32 r f)

/-- 16- and 32-bit `INC` and `DEC` (R338 to R341; the register field of the 32-bit forms is D37, log 31): `C` and `V` are kept,
`H` comes exactly from low 12 (or 28) bits that are all ones (or all zeros). -/
def Obligations.wide_increments : Prop :=
  ∀ (s : State) (x : Reg),
    (∃ t r, exec (.incW x) s = .next t ∧ (r : Half).toNat = ((s.getW x).toNat + 1) % 2 ^ 16 ∧
      WritesRegisterAndFlags s t x 0 16 r
        { s.flags with z := decide (r.toNat = 0), n := false, h := decide ((s.getW x).toNat % 2 ^ 12 = 2 ^ 12 - 1) }) ∧
    (∃ t r, exec (.incD x) s = .next t ∧ (r : Word).toNat = ((s.getD x).toNat + 1) % 2 ^ 32 ∧
      WritesRegisterAndFlags s t x 0 32 r
        { s.flags with z := decide (r.toNat = 0), n := false, h := decide ((s.getD x).toNat % 2 ^ 28 = 2 ^ 28 - 1) }) ∧
    (∃ t r, exec (.decW x) s = .next t ∧ (r : Half).toNat = ((s.getW x).toNat + (2 ^ 16 - 1)) % 2 ^ 16 ∧
      WritesRegisterAndFlags s t x 0 16 r
        { s.flags with z := decide (r.toNat = 0), n := true, h := decide ((s.getW x).toNat % 2 ^ 12 = 0) }) ∧
    (∃ t r, exec (.decD x) s = .next t ∧ (r : Word).toNat = ((s.getD x).toNat + (2 ^ 32 - 1)) % 2 ^ 32 ∧
      WritesRegisterAndFlags s t x 0 32 r
        { s.flags with z := decide (r.toNat = 0), n := true, h := decide ((s.getD x).toNat % 2 ^ 28 = 0) })

/-! ### Logic, shifts, rotates, bits -/

/-- `AND`, `OR`, `XOR`, all forms (R350 to R358): bit by bit; flags `?0100`, `?0000`, `?0000`. -/
def Obligations.logic : Prop :=
  AccumulatorOperation .andImm .andReg .andInd (fun _ a b r f =>
    (∀ k, r.getLsbD k = (a.getLsbD k && b.getLsbD k)) ∧
      f = { z := decide (r = 0), n := false, h := true, c := false, v := false }) ∧
  AccumulatorOperation .orImm .orReg .orInd (fun _ a b r f =>
    (∀ k, r.getLsbD k = (a.getLsbD k || b.getLsbD k)) ∧
      f = { z := decide (r = 0), n := false, h := false, c := false, v := false }) ∧
  AccumulatorOperation .xorImm .xorReg .xorInd (fun _ a b r f =>
    (∀ k, r.getLsbD k = (a.getLsbD k != b.getLsbD k)) ∧
      f = { z := decide (r = 0), n := false, h := false, c := false, v := false })

/-- `NOT` (R359, R360): every bit complemented, `Z` and `C` kept. -/
def Obligations.complement : Prop :=
  ByteOperation .notL .notM (fun old v r f => r.toNat = 255 - v.toNat ∧
    f = { z := old.z, n := true, h := true, c := old.c, v := false })

/-- `SLA`, `SRA`, `SRL` (R371 to R376): doubling, signed and unsigned halving; `C` is the bit shifted out. -/
def Obligations.shifts : Prop :=
  ByteOperation .slaL .slaM (fun old v r f => r.toNat = 2 * v.toNat % 256 ∧
    ShiftFlags old (decide (r = 0)) (decide (128 ≤ v.toNat)) f) ∧
  ByteOperation .sraL .sraM (fun old v r f => r.toInt = v.toInt / 2 ∧
    ShiftFlags old (decide (r = 0)) (decide (v.toNat % 2 = 1)) f) ∧
  ByteOperation .srlL .srlM (fun old v r f => r.toNat = v.toNat / 2 ∧
    ShiftFlags old (decide (r = 0)) (decide (v.toNat % 2 = 1)) f)

/-- `SWAP` (R377 to R380): the two halves exchanged, at 8, 16 and 32 bits; `C` is cleared, `V` kept. -/
def Obligations.swaps : Prop :=
  ByteOperation .swapL .swapM (fun old v r f => r.toNat = v.toNat % 16 * 16 + v.toNat / 16 ∧
    ShiftFlags old (decide (r = 0)) false f) ∧
  (∀ (s : State) (x : Reg),
    (∃ t r f, exec (.swapW x) s = .next t ∧ WritesRegisterAndFlags s t x 0 16 r f ∧
      (r : Half).toNat = (s.getW x).toNat % 2 ^ 8 * 2 ^ 8 + (s.getW x).toNat / 2 ^ 8 ∧
      ShiftFlags s.flags (decide (r = 0)) false f) ∧
    (∃ t r f, exec (.swapD x) s = .next t ∧ WritesRegisterAndFlags s t x 0 32 r f ∧
      (r : Word).toNat = (s.getD x).toNat % 2 ^ 16 * 2 ^ 16 + (s.getD x).toNat / 2 ^ 16 ∧
      ShiftFlags s.flags (decide (r = 0)) false f))

/-- `RL`, `RLC`, `RR`, `RRC` (R382, R383, R385, R386, R388, R389, R391, R392; the flags of `RRC` are D32, log 31). -/
def Obligations.rotates : Prop :=
  ByteOperation .rlL .rlM (fun old v r f => r.toNat = 2 * v.toNat % 256 + old.c.toNat ∧
    ShiftFlags old (decide (r = 0)) (decide (128 ≤ v.toNat)) f) ∧
  ByteOperation .rlcL .rlcM (fun old v r f => r.toNat = 2 * v.toNat % 256 + v.toNat / 128 ∧
    ShiftFlags old (decide (r = 0)) (decide (128 ≤ v.toNat)) f) ∧
  ByteOperation .rrL .rrM (fun old v r f => r.toNat = v.toNat / 2 + 128 * old.c.toNat ∧
    ShiftFlags old (decide (r = 0)) (decide (v.toNat % 2 = 1)) f) ∧
  ByteOperation .rrcL .rrcM (fun old v r f => r.toNat = v.toNat / 2 + 128 * (v.toNat % 2) ∧
    ShiftFlags old (decide (r = 0)) (decide (v.toNat % 2 = 1)) f)

/-- `RLA`, `RLCA`, `RRA`, `RRCA` (R381, R384, R387, R390): the rotates on `L0` with `Z` always cleared. -/
def Obligations.accumulator_rotates : Prop :=
  ∀ s : State,
    (∃ t r f, exec .rla s = .next t ∧ WritesRegisterAndFlags s t 0 0 8 r f ∧
      (r : Byte).toNat = 2 * (s.getL 0).toNat % 256 + s.flags.c.toNat ∧
      ShiftFlags s.flags false (decide (128 ≤ (s.getL 0).toNat)) f) ∧
    (∃ t r f, exec .rlca s = .next t ∧ WritesRegisterAndFlags s t 0 0 8 r f ∧
      (r : Byte).toNat = 2 * (s.getL 0).toNat % 256 + (s.getL 0).toNat / 128 ∧
      ShiftFlags s.flags false (decide (128 ≤ (s.getL 0).toNat)) f) ∧
    (∃ t r f, exec .rra s = .next t ∧ WritesRegisterAndFlags s t 0 0 8 r f ∧
      (r : Byte).toNat = (s.getL 0).toNat / 2 + 128 * s.flags.c.toNat ∧
      ShiftFlags s.flags false (decide ((s.getL 0).toNat % 2 = 1)) f) ∧
    (∃ t r f, exec .rrca s = .next t ∧ WritesRegisterAndFlags s t 0 0 8 r f ∧
      (r : Byte).toNat = (s.getL 0).toNat / 2 + 128 * ((s.getL 0).toNat % 2) ∧
      ShiftFlags s.flags false (decide ((s.getL 0).toNat % 2 = 1)) f)

/-- `BIT` (R401, R402): `Z` is the complement of the tested bit, `N` cleared, `H` set, and nothing else is written. -/
def Obligations.bit_tests : Prop :=
  ∀ (s : State) (x : Reg) (b : Nibble), b.toNat ≤ 7 →
    (∃ t, exec (.bitL x b) s = .next t ∧
      WritesOnlyFlags s t { s.flags with z := !(s.getD x).getLsbD b.toNat, n := false, h := true }) ∧
    ∀ v : Byte, s.Holds (s.getD x) 1 v → ∃ t, exec (.bitM x b) s = .next t ∧
      WritesOnlyFlags s t { s.flags with z := !v.getLsbD b.toNat, n := false, h := true }

/-- `SET`, `RES`, `TOG` (R403 to R408): bit `b` is set, cleared or toggled, the other seven and the flags are kept. -/
def Obligations.bit_changes : Prop :=
  ∀ b : Nibble, b.toNat ≤ 7 →
    ByteOperation (.setL · b) (.setM · b) (fun old v r f =>
      (∀ k, r.getLsbD k = (v.getLsbD k || decide (k = b.toNat))) ∧ f = old) ∧
    ByteOperation (.resL · b) (.resM · b) (fun old v r f =>
      (∀ k, r.getLsbD k = (v.getLsbD k && decide (k ≠ b.toNat))) ∧ f = old) ∧
    ByteOperation (.togL · b) (.togM · b) (fun old v r f =>
      (∀ k, r.getLsbD k = (v.getLsbD k != decide (k = b.toNat))) ∧ f = old)
end

