-- ==== Sys2Proof/Laws/Bits.lean ====
section
/-! SUPPORT. Bits of appended bit vectors at the widths the machine uses, and bytes put together again. -/

namespace Sys2Proof

theorem getLsbD_append_24_8 (x : BitVec 24) (y : Byte) (k : Nat) :
    BitVec.getLsbD (w := 32) (x ++ y) k = if k < 8 then y.getLsbD k else x.getLsbD (k - 8) :=
  BitVec.getLsbD_append

theorem getLsbD_append_16_16 (x y : Half) (k : Nat) :
    BitVec.getLsbD (w := 32) (x ++ y) k = if k < 16 then y.getLsbD k else x.getLsbD (k - 16) :=
  BitVec.getLsbD_append

theorem getLsbD_append_16_8_8 (x : Half) (y z : Byte) (k : Nat) :
    BitVec.getLsbD (w := 32) (x ++ y ++ z) k =
      if k < 8 then z.getLsbD k else if k - 8 < 8 then y.getLsbD (k - 8) else x.getLsbD (k - 8 - 8) := by
  refine (BitVec.getLsbD_append (x := x ++ y) (y := z)).trans ?_
  split
  · rfl
  · exact BitVec.getLsbD_append

theorem getLsbD_append_8_8 (x y : Byte) (k : Nat) :
    BitVec.getLsbD (w := 16) (x ++ y) k = if k < 8 then y.getLsbD k else x.getLsbD (k - 8) :=
  BitVec.getLsbD_append

theorem getLsbD_byteAt {w : Nat} (v : BitVec w) (j k : Nat) :
    (byteAt v j).getLsbD k = (decide (k < 8) && v.getLsbD (8 * j + k)) := by
  simp [byteAt]

theorem getLsbD_joinHalf (b1 b0 : Byte) (k : Nat) :
    (joinHalf b1 b0).getLsbD k = if k < 8 then b0.getLsbD k else b1.getLsbD (k - 8) := getLsbD_append_8_8 b1 b0 k

theorem getLsbD_joinWord (b3 b2 b1 b0 : Byte) (k : Nat) :
    (joinWord b3 b2 b1 b0).getLsbD k =
      if k < 8 then b0.getLsbD k else if k - 8 < 8 then b1.getLsbD (k - 8)
      else if k - 8 - 8 < 8 then b2.getLsbD (k - 8 - 8) else b3.getLsbD (k - 8 - 8 - 8) := by
  unfold joinWord
  refine (BitVec.getLsbD_append (x := b3 ++ b2 ++ b1) (y := b0)).trans ?_
  split
  · rfl
  · refine (BitVec.getLsbD_append (x := b3 ++ b2) (y := b1)).trans ?_
    split
    · rfl
    · exact BitVec.getLsbD_append

/-- The bytes of a 16-bit value, put together. -/
theorem joinHalf_bytes (v : Half) : joinHalf (byteAt v 1) (byteAt v 0) = v := by
  apply BitVec.eq_of_getLsbD_eq
  intro k lt
  rw [getLsbD_joinHalf]
  simp only [getLsbD_byteAt]
  by_cases h : k < 8
  · simp [h]
  · have : 8 * 1 + (k - 8) = k := by omega
    have l : k - 8 < 8 := by omega
    simp only [h, if_false, l, decide_true, Bool.true_and, this]

/-- The bytes of a 32-bit value, put together. -/
theorem joinWord_bytes (v : Word) : joinWord (byteAt v 3) (byteAt v 2) (byteAt v 1) (byteAt v 0) = v := by
  apply BitVec.eq_of_getLsbD_eq
  intro k lt
  rw [getLsbD_joinWord]
  simp only [getLsbD_byteAt]
  by_cases h : k < 8
  · simp [h]
  · by_cases h' : k - 8 < 8
    · have : 8 * 1 + (k - 8) = k := by omega
      simp only [h, if_false, h', if_true, decide_true, Bool.true_and, this]
    · by_cases h'' : k - 8 - 8 < 8
      · have : 8 * 2 + (k - 8 - 8) = k := by omega
        simp only [h, if_false, h', h'', if_true, decide_true, Bool.true_and, this]
      · have : 8 * 3 + (k - 8 - 8 - 8) = k := by omega
        have l : k - 8 - 8 - 8 < 8 := by omega
        simp only [h, if_false, h', h'', l, decide_true, Bool.true_and, this]

/-- The one byte of a byte. -/
@[simp] theorem byteAt_zero (v : Byte) : byteAt v 0 = v := by
  apply BitVec.eq_of_getLsbD_eq
  intro k lt
  rw [getLsbD_byteAt]
  simp [lt]

/-- The value of one, two or four bytes in ascending address order, at its own width. -/
theorem joinBytes_one (b : Byte) : (joinBytes [b]).setWidth 8 = b := by
  apply BitVec.eq_of_getLsbD_eq
  intro k lt
  simp only [joinBytes, BitVec.getLsbD_setWidth, BitVec.getLsbD_append, lt, decide_true, Bool.true_and, if_true]

theorem joinBytes_two (b0 b1 : Byte) : (joinBytes [b0, b1]).setWidth 16 = joinHalf b1 b0 := by
  apply BitVec.eq_of_getLsbD_eq
  intro k lt
  simp only [joinBytes, joinHalf, BitVec.getLsbD_setWidth, BitVec.getLsbD_append, lt, decide_true, Bool.true_and]
  split
  · rfl
  · rw [if_pos (show k - 8 < 8 by omega), decide_eq_true (show k - 8 < 24 by omega), Bool.true_and]

theorem joinBytes_four (b0 b1 b2 b3 : Byte) : joinBytes [b0, b1, b2, b3] = joinWord b3 b2 b1 b0 := by
  apply BitVec.eq_of_getLsbD_eq
  intro k lt
  simp only [joinBytes, joinWord, BitVec.getLsbD_setWidth, BitVec.getLsbD_append]
  by_cases h0 : k < 8
  · simp only [h0, if_true]
  by_cases h1 : k - 8 < 8
  · simp only [h0, h1, if_true, if_false, decide_eq_true (show k - 8 < 24 by omega), Bool.true_and]
  by_cases h2 : k - 8 - 8 < 8
  · simp only [h0, h1, h2, if_true, if_false, decide_eq_true (show k - 8 < 24 by omega), decide_eq_true (show k - 8 - 8 < 24 by omega),
      Bool.true_and]
  · simp only [h0, h1, h2, show k - 8 - 8 - 8 < 8 by omega, if_true, if_false, decide_eq_true (show k - 8 < 24 by omega),
      decide_eq_true (show k - 8 - 8 < 24 by omega), decide_eq_true (show k - 8 - 8 - 8 < 24 by omega), Bool.true_and]

end Sys2Proof
end

