-- ==== Sys2Proof/Laws/Memory.lean ====
section
/-! SUPPORT. Reading after writing, and the canonical form kept by every memory operation. -/

namespace Sys2Proof.Machine

theorem Memory.wfFrom_mono {low low' : Nat} {m : Memory} (h : Memory.wfFrom low m = true) (le : low' ≤ low) :
    Memory.wfFrom low' m = true := by
  cases m with
  | nil => rfl
  | cons c rest =>
    obtain ⟨k, b⟩ := c
    simp only [Memory.wfFrom, Bool.and_eq_true, decide_eq_true_eq] at h ⊢
    exact ⟨⟨by omega, h.1.2⟩, h.2⟩

/-- Below every listed address, memory reads as unlisted. -/
theorem Memory.read_below {low : Nat} {m : Memory} (h : Memory.wfFrom low m = true) {a : Nat} (lt : a < low) :
    Memory.read m a = Memory.unlisted := by
  cases m with
  | nil => rfl
  | cons c rest =>
    obtain ⟨k, b⟩ := c
    simp only [Memory.wfFrom, Bool.and_eq_true, decide_eq_true_eq] at h
    have : a < k := by omega
    simp [Memory.read, this]

theorem Memory.wfFrom_cons {low a : Nat} {m : Memory} (h : Memory.wfFrom (a + 1) m = true) (le : low ≤ a)
    (lt : a < 2 ^ 32) (b : Byte) : Memory.wfFrom low (Memory.cons a b m) = true := by
  unfold Memory.cons
  split
  · exact Memory.wfFrom_mono h (by omega)
  · rename_i ne
    simp only [Memory.wfFrom, Bool.and_eq_true, decide_eq_true_eq]
    exact ⟨⟨le, lt, ne⟩, h⟩

theorem Memory.wfFrom_write {low : Nat} {m : Memory} (h : Memory.wfFrom low m = true) {a : Nat} (le : low ≤ a)
    (lt : a < 2 ^ 32) (b : Byte) : Memory.wfFrom low (Memory.write m a b) = true := by
  induction m generalizing low with
  | nil => exact Memory.wfFrom_cons (m := []) rfl le lt b
  | cons c rest ih =>
    obtain ⟨k, e⟩ := c
    have h' := h
    simp only [Memory.wfFrom, Bool.and_eq_true, decide_eq_true_eq] at h
    unfold Memory.write
    split
    · refine Memory.wfFrom_cons ?_ le lt b
      simp only [Memory.wfFrom, Bool.and_eq_true, decide_eq_true_eq]
      exact ⟨⟨by omega, h.1.2⟩, h.2⟩
    · split
      · rename_i eq
        subst eq
        exact Memory.wfFrom_cons h.2 le lt b
      · simp only [Memory.wfFrom, Bool.and_eq_true, decide_eq_true_eq]
        exact ⟨h.1, ih h.2 (by omega)⟩

/-- A write keeps the canonical form. -/
theorem Memory.wf_write {m : Memory} (h : Memory.wf m = true) {a : Nat} (lt : a < 2 ^ 32) (b : Byte) :
    Memory.wf (Memory.write m a b) = true := Memory.wfFrom_write h (Nat.zero_le a) lt b

/-- A write at an address keeps the canonical form. -/
theorem Memory.wf_writeAt {m : Memory} (h : Memory.wf m = true) (a : Word) (b : Byte) :
    Memory.wf (Memory.write m a.toNat b) = true := Memory.wf_write h a.isLt b

theorem Memory.read_cons {low a : Nat} {m : Memory} (h : Memory.wfFrom low m = true) (lt : a < low) (b : Byte) (x : Nat) :
    Memory.read (Memory.cons a b m) x = if x = a then b else Memory.read m x := by
  unfold Memory.cons
  split
  · rename_i eq
    split
    · rename_i e
      rw [e, eq]
      exact Memory.read_below h lt
    · rfl
  · by_cases e : x = a
    · simp [Memory.read, e]
    · by_cases l : x < a
      · simp only [Memory.read, l, if_true, e, if_false]
        exact (Memory.read_below h (by omega)).symm
      · simp [Memory.read, l, e]

theorem Memory.read_write_from {low : Nat} {m : Memory} (h : Memory.wfFrom low m = true) (a : Nat) (b : Byte) (x : Nat) :
    Memory.read (Memory.write m a b) x = if x = a then b else Memory.read m x := by
  induction m generalizing low with
  | nil =>
    simp only [Memory.write]
    exact Memory.read_cons (low := a + 1) (m := []) rfl (Nat.lt_succ_self a) b x
  | cons c rest ih =>
    obtain ⟨k, e⟩ := c
    have h' := h
    simp only [Memory.wfFrom, Bool.and_eq_true, decide_eq_true_eq] at h
    unfold Memory.write
    split
    · rename_i lt
      refine Memory.read_cons (low := k) ?_ lt b x
      simp only [Memory.wfFrom, Bool.and_eq_true, decide_eq_true_eq]
      exact ⟨⟨Nat.le_refl k, h.1.2⟩, h.2⟩
    · split
      · rename_i _ eq
        subst eq
        rw [Memory.read_cons h.2 (Nat.lt_succ_self a)]
        by_cases e : x = a
        · simp [e]
        · by_cases l : x < a
          · simp only [e, if_false, Memory.read, l, if_true]
            exact Memory.read_below h.2 (by omega)
          · simp [Memory.read, e, l]
      · rename_i nlt ne
        have := ih h.2
        by_cases e : x = a
        · subst e
          simp only [Memory.read, nlt, if_false, ne, this, if_true]
        · simp only [Memory.read, this, e, if_false]

/-- Reading after a write: the byte at its own address, every other address as before. -/
theorem Memory.read_write {m : Memory} (h : Memory.wf m = true) (a : Nat) (b : Byte) (x : Nat) :
    Memory.read (Memory.write m a b) x = if x = a then b else Memory.read m x := Memory.read_write_from h a b x

theorem Memory.wfFrom_romHalf {low : Nat} {m : Memory} (h : Memory.wfFrom low m = true) :
    Memory.wfFrom low (Memory.romHalf m) = true := by
  unfold Memory.romHalf
  induction m generalizing low with
  | nil => rfl
  | cons c rest ih =>
    obtain ⟨k, e⟩ := c
    simp only [Memory.wfFrom, Bool.and_eq_true, decide_eq_true_eq] at h
    rw [List.filter_cons]
    split
    · simp only [Memory.wfFrom, Bool.and_eq_true, decide_eq_true_eq]
      exact ⟨h.1, ih h.2⟩
    · exact Memory.wfFrom_mono (ih h.2) (by omega)

/-- Keeping only the ROM half keeps the canonical form. -/
theorem Memory.wf_romHalf {m : Memory} (h : Memory.wf m = true) : Memory.wf (Memory.romHalf m) = true :=
  Memory.wfFrom_romHalf h

/-- The ROM half alone reads as before below `2^31`. -/
theorem Memory.read_romHalf_from {low : Nat} {m : Memory} (h : Memory.wfFrom low m = true) {a : Nat} (lt : a < 2 ^ 31) :
    Memory.read (Memory.romHalf m) a = Memory.read m a := by
  unfold Memory.romHalf
  induction m generalizing low with
  | nil => rfl
  | cons c rest ih =>
    obtain ⟨k, e⟩ := c
    simp only [Memory.wfFrom, Bool.and_eq_true, decide_eq_true_eq] at h
    rw [List.filter_cons]
    split
    · simp only [Memory.read, ih h.2]
    · rename_i ge
      have : a < k := by simp only [decide_eq_true_eq, Nat.not_lt] at ge; omega
      rw [ih h.2, Memory.read_below h.2 (by omega)]
      simp [Memory.read, this]

/-- The ROM half alone reads as before below `2^31`. -/
theorem Memory.read_romHalf {m : Memory} (h : Memory.wf m = true) {a : Nat} (lt : a < 2 ^ 31) :
    Memory.read (Memory.romHalf m) a = Memory.read m a := Memory.read_romHalf_from h lt

/-- Writing the RAM half keeps the canonical form. -/
theorem Memory.wf_writeRam {m : Memory} (h : Memory.wf m = true) (cells : List Host.Cell) :
    Memory.wf (Memory.writeRam m cells) = true := by
  induction cells generalizing m with
  | nil => exact h
  | cons c rest ih =>
    obtain ⟨a, b⟩ := c
    simp only [Memory.writeRam]
    split
    · rename_i r
      exact ih (Memory.wf_write h r.2 b)
    · exact ih h

/-- Writing the RAM half leaves the ROM half alone. -/
theorem Memory.read_writeRam {m : Memory} (h : Memory.wf m = true) (cells : List Host.Cell) {x : Nat} (lt : x < 2 ^ 31) :
    Memory.read (Memory.writeRam m cells) x = Memory.read m x := by
  induction cells generalizing m with
  | nil => rfl
  | cons c rest ih =>
    obtain ⟨a, b⟩ := c
    simp only [Memory.writeRam]
    split
    · rename_i r
      rw [ih (Memory.wf_write h r.2 b), Memory.read_write h]
      have : x ≠ a := by omega
      simp [this]
    · exact ih h

end Sys2Proof.Machine
end

