-- ==== Sys2Proof/Laws/State.lean ====
section
/-! SUPPORT. One lemma per field per update of `State`, so that no proof unfolds a record update. -/

namespace Sys2Proof.Machine

@[simp] theorem State.setD_d (s : State) (n : Reg) (v : Word) : (s.setD n v).d = s.d.set n v := rfl
@[simp] theorem State.setD_pc (s : State) (n : Reg) (v : Word) : (s.setD n v).pc = s.pc := rfl
@[simp] theorem State.setD_sp (s : State) (n : Reg) (v : Word) : (s.setD n v).sp = s.sp := rfl
@[simp] theorem State.setD_flags (s : State) (n : Reg) (v : Word) : (s.setD n v).flags = s.flags := rfl
@[simp] theorem State.setD_stopf (s : State) (n : Reg) (v : Word) : (s.setD n v).stopf = s.stopf := rfl
@[simp] theorem State.setD_haltf (s : State) (n : Reg) (v : Word) : (s.setD n v).haltf = s.haltf := rfl
@[simp] theorem State.setD_ime (s : State) (n : Reg) (v : Word) : (s.setD n v).ime = s.ime := rfl
@[simp] theorem State.setD_imp (s : State) (n : Reg) (v : Word) : (s.setD n v).imp = s.imp := rfl
@[simp] theorem State.setD_df (s : State) (n : Reg) (v : Word) : (s.setD n v).df = s.df := rfl
@[simp] theorem State.setD_ie (s : State) (n : Reg) (v : Word) : (s.setD n v).ie = s.ie := rfl
@[simp] theorem State.setD_irq (s : State) (n : Reg) (v : Word) : (s.setD n v).irq = s.irq := rfl
@[simp] theorem State.setD_ec (s : State) (n : Reg) (v : Word) : (s.setD n v).ec = s.ec := rfl
@[simp] theorem State.setD_mem (s : State) (n : Reg) (v : Word) : (s.setD n v).mem = s.mem := rfl
@[simp] theorem State.setD_platform (s : State) (n : Reg) (v : Word) : (s.setD n v).platform = s.platform := rfl
@[simp] theorem State.setD_env (s : State) (n : Reg) (v : Word) : (s.setD n v).env = s.env := rfl
@[simp] theorem State.setD_fresh (s : State) (n : Reg) (v : Word) : (s.setD n v).fresh = s.fresh := rfl

@[simp] theorem State.setW_pc (s : State) (n : Reg) (v : Half) : (s.setW n v).pc = s.pc := rfl
@[simp] theorem State.setW_sp (s : State) (n : Reg) (v : Half) : (s.setW n v).sp = s.sp := rfl
@[simp] theorem State.setW_flags (s : State) (n : Reg) (v : Half) : (s.setW n v).flags = s.flags := rfl
@[simp] theorem State.setW_stopf (s : State) (n : Reg) (v : Half) : (s.setW n v).stopf = s.stopf := rfl
@[simp] theorem State.setW_haltf (s : State) (n : Reg) (v : Half) : (s.setW n v).haltf = s.haltf := rfl
@[simp] theorem State.setW_ime (s : State) (n : Reg) (v : Half) : (s.setW n v).ime = s.ime := rfl
@[simp] theorem State.setW_imp (s : State) (n : Reg) (v : Half) : (s.setW n v).imp = s.imp := rfl
@[simp] theorem State.setW_df (s : State) (n : Reg) (v : Half) : (s.setW n v).df = s.df := rfl
@[simp] theorem State.setW_ie (s : State) (n : Reg) (v : Half) : (s.setW n v).ie = s.ie := rfl
@[simp] theorem State.setW_irq (s : State) (n : Reg) (v : Half) : (s.setW n v).irq = s.irq := rfl
@[simp] theorem State.setW_ec (s : State) (n : Reg) (v : Half) : (s.setW n v).ec = s.ec := rfl
@[simp] theorem State.setW_mem (s : State) (n : Reg) (v : Half) : (s.setW n v).mem = s.mem := rfl
@[simp] theorem State.setW_platform (s : State) (n : Reg) (v : Half) : (s.setW n v).platform = s.platform := rfl
@[simp] theorem State.setW_env (s : State) (n : Reg) (v : Half) : (s.setW n v).env = s.env := rfl
@[simp] theorem State.setW_fresh (s : State) (n : Reg) (v : Half) : (s.setW n v).fresh = s.fresh := rfl

@[simp] theorem State.setL_pc (s : State) (n : Reg) (v : Byte) : (s.setL n v).pc = s.pc := rfl
@[simp] theorem State.setL_sp (s : State) (n : Reg) (v : Byte) : (s.setL n v).sp = s.sp := rfl
@[simp] theorem State.setL_flags (s : State) (n : Reg) (v : Byte) : (s.setL n v).flags = s.flags := rfl
@[simp] theorem State.setL_stopf (s : State) (n : Reg) (v : Byte) : (s.setL n v).stopf = s.stopf := rfl
@[simp] theorem State.setL_haltf (s : State) (n : Reg) (v : Byte) : (s.setL n v).haltf = s.haltf := rfl
@[simp] theorem State.setL_ime (s : State) (n : Reg) (v : Byte) : (s.setL n v).ime = s.ime := rfl
@[simp] theorem State.setL_imp (s : State) (n : Reg) (v : Byte) : (s.setL n v).imp = s.imp := rfl
@[simp] theorem State.setL_df (s : State) (n : Reg) (v : Byte) : (s.setL n v).df = s.df := rfl
@[simp] theorem State.setL_ie (s : State) (n : Reg) (v : Byte) : (s.setL n v).ie = s.ie := rfl
@[simp] theorem State.setL_irq (s : State) (n : Reg) (v : Byte) : (s.setL n v).irq = s.irq := rfl
@[simp] theorem State.setL_ec (s : State) (n : Reg) (v : Byte) : (s.setL n v).ec = s.ec := rfl
@[simp] theorem State.setL_mem (s : State) (n : Reg) (v : Byte) : (s.setL n v).mem = s.mem := rfl
@[simp] theorem State.setL_platform (s : State) (n : Reg) (v : Byte) : (s.setL n v).platform = s.platform := rfl
@[simp] theorem State.setL_env (s : State) (n : Reg) (v : Byte) : (s.setL n v).env = s.env := rfl
@[simp] theorem State.setL_fresh (s : State) (n : Reg) (v : Byte) : (s.setL n v).fresh = s.fresh := rfl

@[simp] theorem State.setH_pc (s : State) (n : Reg) (v : Byte) : (s.setH n v).pc = s.pc := rfl
@[simp] theorem State.setH_sp (s : State) (n : Reg) (v : Byte) : (s.setH n v).sp = s.sp := rfl
@[simp] theorem State.setH_flags (s : State) (n : Reg) (v : Byte) : (s.setH n v).flags = s.flags := rfl
@[simp] theorem State.setH_stopf (s : State) (n : Reg) (v : Byte) : (s.setH n v).stopf = s.stopf := rfl
@[simp] theorem State.setH_haltf (s : State) (n : Reg) (v : Byte) : (s.setH n v).haltf = s.haltf := rfl
@[simp] theorem State.setH_ime (s : State) (n : Reg) (v : Byte) : (s.setH n v).ime = s.ime := rfl
@[simp] theorem State.setH_imp (s : State) (n : Reg) (v : Byte) : (s.setH n v).imp = s.imp := rfl
@[simp] theorem State.setH_df (s : State) (n : Reg) (v : Byte) : (s.setH n v).df = s.df := rfl
@[simp] theorem State.setH_ie (s : State) (n : Reg) (v : Byte) : (s.setH n v).ie = s.ie := rfl
@[simp] theorem State.setH_irq (s : State) (n : Reg) (v : Byte) : (s.setH n v).irq = s.irq := rfl
@[simp] theorem State.setH_ec (s : State) (n : Reg) (v : Byte) : (s.setH n v).ec = s.ec := rfl
@[simp] theorem State.setH_mem (s : State) (n : Reg) (v : Byte) : (s.setH n v).mem = s.mem := rfl
@[simp] theorem State.setH_platform (s : State) (n : Reg) (v : Byte) : (s.setH n v).platform = s.platform := rfl
@[simp] theorem State.setH_env (s : State) (n : Reg) (v : Byte) : (s.setH n v).env = s.env := rfl
@[simp] theorem State.setH_fresh (s : State) (n : Reg) (v : Byte) : (s.setH n v).fresh = s.fresh := rfl

@[simp] theorem State.setPc_d (s : State) (v : Word) : (s.setPc v).d = s.d := rfl
@[simp] theorem State.setPc_pc (s : State) (v : Word) : (s.setPc v).pc = v := rfl
@[simp] theorem State.setPc_sp (s : State) (v : Word) : (s.setPc v).sp = s.sp := rfl
@[simp] theorem State.setPc_flags (s : State) (v : Word) : (s.setPc v).flags = s.flags := rfl
@[simp] theorem State.setPc_stopf (s : State) (v : Word) : (s.setPc v).stopf = s.stopf := rfl
@[simp] theorem State.setPc_haltf (s : State) (v : Word) : (s.setPc v).haltf = s.haltf := rfl
@[simp] theorem State.setPc_ime (s : State) (v : Word) : (s.setPc v).ime = s.ime := rfl
@[simp] theorem State.setPc_imp (s : State) (v : Word) : (s.setPc v).imp = s.imp := rfl
@[simp] theorem State.setPc_df (s : State) (v : Word) : (s.setPc v).df = s.df := rfl
@[simp] theorem State.setPc_ie (s : State) (v : Word) : (s.setPc v).ie = s.ie := rfl
@[simp] theorem State.setPc_irq (s : State) (v : Word) : (s.setPc v).irq = s.irq := rfl
@[simp] theorem State.setPc_ec (s : State) (v : Word) : (s.setPc v).ec = s.ec := rfl
@[simp] theorem State.setPc_mem (s : State) (v : Word) : (s.setPc v).mem = s.mem := rfl
@[simp] theorem State.setPc_platform (s : State) (v : Word) : (s.setPc v).platform = s.platform := rfl
@[simp] theorem State.setPc_env (s : State) (v : Word) : (s.setPc v).env = s.env := rfl
@[simp] theorem State.setPc_fresh (s : State) (v : Word) : (s.setPc v).fresh = s.fresh := rfl

@[simp] theorem State.setSp_d (s : State) (v : Word) : (s.setSp v).d = s.d := rfl
@[simp] theorem State.setSp_pc (s : State) (v : Word) : (s.setSp v).pc = s.pc := rfl
@[simp] theorem State.setSp_sp (s : State) (v : Word) : (s.setSp v).sp = stackAddress v := rfl
@[simp] theorem State.setSp_flags (s : State) (v : Word) : (s.setSp v).flags = s.flags := rfl
@[simp] theorem State.setSp_stopf (s : State) (v : Word) : (s.setSp v).stopf = s.stopf := rfl
@[simp] theorem State.setSp_haltf (s : State) (v : Word) : (s.setSp v).haltf = s.haltf := rfl
@[simp] theorem State.setSp_ime (s : State) (v : Word) : (s.setSp v).ime = s.ime := rfl
@[simp] theorem State.setSp_imp (s : State) (v : Word) : (s.setSp v).imp = s.imp := rfl
@[simp] theorem State.setSp_df (s : State) (v : Word) : (s.setSp v).df = s.df := rfl
@[simp] theorem State.setSp_ie (s : State) (v : Word) : (s.setSp v).ie = s.ie := rfl
@[simp] theorem State.setSp_irq (s : State) (v : Word) : (s.setSp v).irq = s.irq := rfl
@[simp] theorem State.setSp_ec (s : State) (v : Word) : (s.setSp v).ec = s.ec := rfl
@[simp] theorem State.setSp_mem (s : State) (v : Word) : (s.setSp v).mem = s.mem := rfl
@[simp] theorem State.setSp_platform (s : State) (v : Word) : (s.setSp v).platform = s.platform := rfl
@[simp] theorem State.setSp_env (s : State) (v : Word) : (s.setSp v).env = s.env := rfl
@[simp] theorem State.setSp_fresh (s : State) (v : Word) : (s.setSp v).fresh = s.fresh := rfl

@[simp] theorem State.setFlags_d (s : State) (f : Flags) : (s.setFlags f).d = s.d := rfl
@[simp] theorem State.setFlags_pc (s : State) (f : Flags) : (s.setFlags f).pc = s.pc := rfl
@[simp] theorem State.setFlags_sp (s : State) (f : Flags) : (s.setFlags f).sp = s.sp := rfl
@[simp] theorem State.setFlags_flags (s : State) (f : Flags) : (s.setFlags f).flags = f := rfl
@[simp] theorem State.setFlags_stopf (s : State) (f : Flags) : (s.setFlags f).stopf = s.stopf := rfl
@[simp] theorem State.setFlags_haltf (s : State) (f : Flags) : (s.setFlags f).haltf = s.haltf := rfl
@[simp] theorem State.setFlags_ime (s : State) (f : Flags) : (s.setFlags f).ime = s.ime := rfl
@[simp] theorem State.setFlags_imp (s : State) (f : Flags) : (s.setFlags f).imp = s.imp := rfl
@[simp] theorem State.setFlags_df (s : State) (f : Flags) : (s.setFlags f).df = s.df := rfl
@[simp] theorem State.setFlags_ie (s : State) (f : Flags) : (s.setFlags f).ie = s.ie := rfl
@[simp] theorem State.setFlags_irq (s : State) (f : Flags) : (s.setFlags f).irq = s.irq := rfl
@[simp] theorem State.setFlags_ec (s : State) (f : Flags) : (s.setFlags f).ec = s.ec := rfl
@[simp] theorem State.setFlags_mem (s : State) (f : Flags) : (s.setFlags f).mem = s.mem := rfl
@[simp] theorem State.setFlags_platform (s : State) (f : Flags) : (s.setFlags f).platform = s.platform := rfl
@[simp] theorem State.setFlags_env (s : State) (f : Flags) : (s.setFlags f).env = s.env := rfl
@[simp] theorem State.setFlags_fresh (s : State) (f : Flags) : (s.setFlags f).fresh = s.fresh := rfl

@[simp] theorem State.setMem_d (s : State) (m : Memory) : (s.setMem m).d = s.d := rfl
@[simp] theorem State.setMem_pc (s : State) (m : Memory) : (s.setMem m).pc = s.pc := rfl
@[simp] theorem State.setMem_sp (s : State) (m : Memory) : (s.setMem m).sp = s.sp := rfl
@[simp] theorem State.setMem_flags (s : State) (m : Memory) : (s.setMem m).flags = s.flags := rfl
@[simp] theorem State.setMem_stopf (s : State) (m : Memory) : (s.setMem m).stopf = s.stopf := rfl
@[simp] theorem State.setMem_haltf (s : State) (m : Memory) : (s.setMem m).haltf = s.haltf := rfl
@[simp] theorem State.setMem_ime (s : State) (m : Memory) : (s.setMem m).ime = s.ime := rfl
@[simp] theorem State.setMem_imp (s : State) (m : Memory) : (s.setMem m).imp = s.imp := rfl
@[simp] theorem State.setMem_df (s : State) (m : Memory) : (s.setMem m).df = s.df := rfl
@[simp] theorem State.setMem_ie (s : State) (m : Memory) : (s.setMem m).ie = s.ie := rfl
@[simp] theorem State.setMem_irq (s : State) (m : Memory) : (s.setMem m).irq = s.irq := rfl
@[simp] theorem State.setMem_ec (s : State) (m : Memory) : (s.setMem m).ec = s.ec := rfl
@[simp] theorem State.setMem_mem (s : State) (m : Memory) : (s.setMem m).mem = m := rfl
@[simp] theorem State.setMem_platform (s : State) (m : Memory) : (s.setMem m).platform = s.platform := rfl
@[simp] theorem State.setMem_env (s : State) (m : Memory) : (s.setMem m).env = s.env := rfl
@[simp] theorem State.setMem_fresh (s : State) (m : Memory) : (s.setMem m).fresh = s.fresh := rfl

@[simp] theorem State.setIe_d (s : State) (v : Word) : (s.setIe v).d = s.d := rfl
@[simp] theorem State.setIe_pc (s : State) (v : Word) : (s.setIe v).pc = s.pc := rfl
@[simp] theorem State.setIe_sp (s : State) (v : Word) : (s.setIe v).sp = s.sp := rfl
@[simp] theorem State.setIe_flags (s : State) (v : Word) : (s.setIe v).flags = s.flags := rfl
@[simp] theorem State.setIe_stopf (s : State) (v : Word) : (s.setIe v).stopf = s.stopf := rfl
@[simp] theorem State.setIe_haltf (s : State) (v : Word) : (s.setIe v).haltf = s.haltf := rfl
@[simp] theorem State.setIe_ime (s : State) (v : Word) : (s.setIe v).ime = s.ime := rfl
@[simp] theorem State.setIe_imp (s : State) (v : Word) : (s.setIe v).imp = s.imp := rfl
@[simp] theorem State.setIe_df (s : State) (v : Word) : (s.setIe v).df = s.df := rfl
@[simp] theorem State.setIe_ie (s : State) (v : Word) : (s.setIe v).ie = v ||| 0x00000001 := rfl
@[simp] theorem State.setIe_irq (s : State) (v : Word) : (s.setIe v).irq = s.irq := rfl
@[simp] theorem State.setIe_ec (s : State) (v : Word) : (s.setIe v).ec = s.ec := rfl
@[simp] theorem State.setIe_mem (s : State) (v : Word) : (s.setIe v).mem = s.mem := rfl
@[simp] theorem State.setIe_platform (s : State) (v : Word) : (s.setIe v).platform = s.platform := rfl
@[simp] theorem State.setIe_env (s : State) (v : Word) : (s.setIe v).env = s.env := rfl
@[simp] theorem State.setIe_fresh (s : State) (v : Word) : (s.setIe v).fresh = s.fresh := rfl

@[simp] theorem acknowledge_d (i : Nat) (s : State) : (acknowledge i s).d = s.d := rfl
@[simp] theorem acknowledge_pc (i : Nat) (s : State) : (acknowledge i s).pc = s.pc := rfl
@[simp] theorem acknowledge_sp (i : Nat) (s : State) : (acknowledge i s).sp = s.sp := rfl
@[simp] theorem acknowledge_flags (i : Nat) (s : State) : (acknowledge i s).flags = s.flags := rfl
@[simp] theorem acknowledge_stopf (i : Nat) (s : State) : (acknowledge i s).stopf = s.stopf := rfl
@[simp] theorem acknowledge_haltf (i : Nat) (s : State) : (acknowledge i s).haltf = false := rfl
@[simp] theorem acknowledge_ime (i : Nat) (s : State) : (acknowledge i s).ime = false := rfl
@[simp] theorem acknowledge_imp (i : Nat) (s : State) : (acknowledge i s).imp = s.imp := rfl
@[simp] theorem acknowledge_df (i : Nat) (s : State) : (acknowledge i s).df = s.df := rfl
@[simp] theorem acknowledge_ie (i : Nat) (s : State) : (acknowledge i s).ie = s.ie := rfl
@[simp] theorem acknowledge_irq (i : Nat) (s : State) : (acknowledge i s).irq = s.irq &&& ~~~((1 : Word) <<< i) := rfl
@[simp] theorem acknowledge_ec (i : Nat) (s : State) : (acknowledge i s).ec = s.ec := rfl
@[simp] theorem acknowledge_mem (i : Nat) (s : State) : (acknowledge i s).mem = s.mem := rfl
@[simp] theorem acknowledge_platform (i : Nat) (s : State) : (acknowledge i s).platform = s.platform := rfl
@[simp] theorem acknowledge_env (i : Nat) (s : State) : (acknowledge i s).env = s.env := rfl
@[simp] theorem acknowledge_fresh (i : Nat) (s : State) : (acknowledge i s).fresh = s.fresh := rfl

@[simp] theorem enterDoubleFault_d (s : State) : (enterDoubleFault s).d = s.d := rfl
@[simp] theorem enterDoubleFault_pc (s : State) : (enterDoubleFault s).pc = s.pc := rfl
@[simp] theorem enterDoubleFault_sp (s : State) : (enterDoubleFault s).sp = s.sp := rfl
@[simp] theorem enterDoubleFault_flags (s : State) : (enterDoubleFault s).flags = s.flags := rfl
@[simp] theorem enterDoubleFault_stopf (s : State) : (enterDoubleFault s).stopf = true := rfl
@[simp] theorem enterDoubleFault_haltf (s : State) : (enterDoubleFault s).haltf = s.haltf := rfl
@[simp] theorem enterDoubleFault_ime (s : State) : (enterDoubleFault s).ime = s.ime := rfl
@[simp] theorem enterDoubleFault_imp (s : State) : (enterDoubleFault s).imp = s.imp := rfl
@[simp] theorem enterDoubleFault_df (s : State) : (enterDoubleFault s).df = true := rfl
@[simp] theorem enterDoubleFault_ie (s : State) : (enterDoubleFault s).ie = s.ie := rfl
@[simp] theorem enterDoubleFault_irq (s : State) : (enterDoubleFault s).irq = s.irq := rfl
@[simp] theorem enterDoubleFault_ec (s : State) : (enterDoubleFault s).ec = s.ec := rfl
@[simp] theorem enterDoubleFault_mem (s : State) : (enterDoubleFault s).mem = s.mem := rfl
@[simp] theorem enterDoubleFault_platform (s : State) : (enterDoubleFault s).platform = s.platform := rfl
@[simp] theorem enterDoubleFault_env (s : State) : (enterDoubleFault s).env = s.env := rfl
@[simp] theorem enterDoubleFault_fresh (s : State) : (enterDoubleFault s).fresh = s.fresh := rfl

@[simp] theorem promote_d (b : Bool) (s : State) : (promote b s).d = s.d := by cases b <;> rfl
@[simp] theorem promote_pc (b : Bool) (s : State) : (promote b s).pc = s.pc := by cases b <;> rfl
@[simp] theorem promote_sp (b : Bool) (s : State) : (promote b s).sp = s.sp := by cases b <;> rfl
@[simp] theorem promote_flags (b : Bool) (s : State) : (promote b s).flags = s.flags := by cases b <;> rfl
@[simp] theorem promote_stopf (b : Bool) (s : State) : (promote b s).stopf = s.stopf := by cases b <;> rfl
@[simp] theorem promote_haltf (b : Bool) (s : State) : (promote b s).haltf = s.haltf := by cases b <;> rfl
@[simp] theorem promote_ime (b : Bool) (s : State) : (promote b s).ime = (b || s.ime) := by cases b <;> rfl
@[simp] theorem promote_imp (b : Bool) (s : State) : (promote b s).imp = (!b && s.imp) := by cases b <;> rfl
@[simp] theorem promote_df (b : Bool) (s : State) : (promote b s).df = s.df := by cases b <;> rfl
@[simp] theorem promote_ie (b : Bool) (s : State) : (promote b s).ie = s.ie := by cases b <;> rfl
@[simp] theorem promote_irq (b : Bool) (s : State) : (promote b s).irq = s.irq := by cases b <;> rfl
@[simp] theorem promote_ec (b : Bool) (s : State) : (promote b s).ec = s.ec := by cases b <;> rfl
@[simp] theorem promote_mem (b : Bool) (s : State) : (promote b s).mem = s.mem := by cases b <;> rfl
@[simp] theorem promote_platform (b : Bool) (s : State) : (promote b s).platform = s.platform := by cases b <;> rfl
@[simp] theorem promote_env (b : Bool) (s : State) : (promote b s).env = s.env := by cases b <;> rfl
@[simp] theorem promote_fresh (b : Bool) (s : State) : (promote b s).fresh = s.fresh := by cases b <;> rfl

@[simp] theorem State.getD_setPc (s : State) (v : Word) (r : Reg) : (s.setPc v).getD r = s.getD r := rfl
@[simp] theorem State.getD_setSp (s : State) (v : Word) (r : Reg) : (s.setSp v).getD r = s.getD r := rfl
@[simp] theorem State.getD_setFlags (s : State) (f : Flags) (r : Reg) : (s.setFlags f).getD r = s.getD r := rfl
@[simp] theorem State.getD_setMem (s : State) (m : Memory) (r : Reg) : (s.setMem m).getD r = s.getD r := rfl
@[simp] theorem State.getD_setIe (s : State) (v : Word) (r : Reg) : (s.setIe v).getD r = s.getD r := rfl
@[simp] theorem acknowledge_getD (i : Nat) (s : State) (r : Reg) : (acknowledge i s).getD r = s.getD r := rfl
@[simp] theorem enterDoubleFault_getD (s : State) (r : Reg) : (enterDoubleFault s).getD r = s.getD r := rfl
@[simp] theorem promote_getD (b : Bool) (s : State) (r : Reg) : (promote b s).getD r = s.getD r := by cases b <;> rfl
@[simp] theorem State.getW_setPc (s : State) (v : Word) (r : Reg) : (s.setPc v).getW r = s.getW r := rfl
@[simp] theorem State.getW_setSp (s : State) (v : Word) (r : Reg) : (s.setSp v).getW r = s.getW r := rfl
@[simp] theorem State.getW_setFlags (s : State) (f : Flags) (r : Reg) : (s.setFlags f).getW r = s.getW r := rfl
@[simp] theorem State.getW_setMem (s : State) (m : Memory) (r : Reg) : (s.setMem m).getW r = s.getW r := rfl
@[simp] theorem State.getW_setIe (s : State) (v : Word) (r : Reg) : (s.setIe v).getW r = s.getW r := rfl
@[simp] theorem acknowledge_getW (i : Nat) (s : State) (r : Reg) : (acknowledge i s).getW r = s.getW r := rfl
@[simp] theorem enterDoubleFault_getW (s : State) (r : Reg) : (enterDoubleFault s).getW r = s.getW r := rfl
@[simp] theorem promote_getW (b : Bool) (s : State) (r : Reg) : (promote b s).getW r = s.getW r := by cases b <;> rfl
@[simp] theorem State.getL_setPc (s : State) (v : Word) (r : Reg) : (s.setPc v).getL r = s.getL r := rfl
@[simp] theorem State.getL_setSp (s : State) (v : Word) (r : Reg) : (s.setSp v).getL r = s.getL r := rfl
@[simp] theorem State.getL_setFlags (s : State) (f : Flags) (r : Reg) : (s.setFlags f).getL r = s.getL r := rfl
@[simp] theorem State.getL_setMem (s : State) (m : Memory) (r : Reg) : (s.setMem m).getL r = s.getL r := rfl
@[simp] theorem State.getL_setIe (s : State) (v : Word) (r : Reg) : (s.setIe v).getL r = s.getL r := rfl
@[simp] theorem acknowledge_getL (i : Nat) (s : State) (r : Reg) : (acknowledge i s).getL r = s.getL r := rfl
@[simp] theorem enterDoubleFault_getL (s : State) (r : Reg) : (enterDoubleFault s).getL r = s.getL r := rfl
@[simp] theorem promote_getL (b : Bool) (s : State) (r : Reg) : (promote b s).getL r = s.getL r := by cases b <;> rfl
@[simp] theorem State.getH_setPc (s : State) (v : Word) (r : Reg) : (s.setPc v).getH r = s.getH r := rfl
@[simp] theorem State.getH_setSp (s : State) (v : Word) (r : Reg) : (s.setSp v).getH r = s.getH r := rfl
@[simp] theorem State.getH_setFlags (s : State) (f : Flags) (r : Reg) : (s.setFlags f).getH r = s.getH r := rfl
@[simp] theorem State.getH_setMem (s : State) (m : Memory) (r : Reg) : (s.setMem m).getH r = s.getH r := rfl
@[simp] theorem State.getH_setIe (s : State) (v : Word) (r : Reg) : (s.setIe v).getH r = s.getH r := rfl
@[simp] theorem acknowledge_getH (i : Nat) (s : State) (r : Reg) : (acknowledge i s).getH r = s.getH r := rfl
@[simp] theorem enterDoubleFault_getH (s : State) (r : Reg) : (enterDoubleFault s).getH r = s.getH r := rfl
@[simp] theorem promote_getH (b : Bool) (s : State) (r : Reg) : (promote b s).getH r = s.getH r := by cases b <;> rfl

/-- A register read after a write of a whole register. -/
@[simp] theorem State.getD_setD (s : State) (n r : Reg) (v : Word) :
    (s.setD n v).getD r = if r = n then v else s.getD r := by
  by_cases h : r = n
  · subst h; simp [State.getD, State.setD]
  · have : n.val ≠ r.val := fun e => h (Fin.ext e.symm)
    simp [State.getD, State.setD, h, this]

/-- A register read after a record update that does not touch the registers depends on the registers only. -/
theorem State.getD_congr {s t : State} (h : t.d = s.d) (r : Reg) : t.getD r = s.getD r := by
  simp [State.getD, h]

end Sys2Proof.Machine
end

