-- ==== Sys2Proof/Laws/Ops.lean ====
section
/-! SUPPORT. For each shared operation, what it can do, said once. -/

namespace Sys2Proof.Machine

/-! ### Sequencing -/

@[simp] theorem Act.pure_apply {α : Type} (a : α) (s : State) : Act.pure a s = .done a s := rfl

theorem Act.bind_done {α β : Type} {x : Act α} {f : α → Act β} {s t : State} {a : α} (h : x s = .done a t) :
    Act.bind x f s = f a t := by
  simp only [Act.bind, h]

theorem Act.bind_raised {α β : Type} {x : Act α} {f : α → Act β} {s t : State} {e : Exc} (h : x s = .raised e t) :
    Act.bind x f s = .raised e t := by
  simp only [Act.bind, h]

theorem Act.then_done {α β : Type} {x : Act α} {y : Act β} {s t : State} {a : α} (h : x s = .done a t) :
    Act.then x y s = y t := Act.bind_done h

theorem Act.then_raised {α β : Type} {x : Act α} {y : Act β} {s t : State} {e : Exc} (h : x s = .raised e t) :
    Act.then x y s = .raised e t := Act.bind_raised h

/-- What a sequence that ends in a value did. -/
theorem Act.bind_eq_done {α β : Type} {x : Act α} {f : α → Act β} {s u : State} {b : β}
    (h : Act.bind x f s = .done b u) : ∃ a t, x s = .done a t ∧ f a t = .done b u := by
  unfold Act.bind at h
  split at h
  · exact ⟨_, _, ‹_›, h⟩
  · cases h

@[simp] theorem update_apply (f : State → State) (s : State) : update f s = .done () (f s) := rfl

@[simp] theorem raising_apply {α : Type} (e : Exc) (s : State) : (raising e : Act α) s = .raised e s := rfl

@[simp] theorem complete_update (f : State → State) (s : State) :
    complete (update f) s = .next (promote s.imp (f s)) := rfl

theorem complete_done {body : Act Unit} {s t : State} (h : body s = .done () t) :
    complete body s = .next (promote s.imp t) := by
  rw [complete, h]

theorem complete_raised {body : Act Unit} {s t : State} {e : Exc} (h : body s = .raised e t) :
    complete body s = .next (raise e t) := by
  rw [complete, h]

/-- The two ways an instruction ends: it completes and the frame's promotion follows, or it raises. -/
theorem complete_cases {body : Act Unit} {s t : State} (h : complete body s = .next t) :
    (∃ u, body s = .done () u ∧ t = promote s.imp u) ∨ ∃ e u, body s = .raised e u ∧ t = raise e u := by
  unfold complete at h
  split at h
  · rename_i u eq
    exact .inl ⟨u, eq, (Host.Outcome.next.inj h).symm⟩
  · rename_i e u eq
    exact .inr ⟨e, u, eq, (Host.Outcome.next.inj h).symm⟩

/-! ### The bus -/

/-- Where no device answers, a read answers what `peek` says and changes nothing. -/
theorem busRead_peek {s : State} {a : Word} {b : Byte} (h : s.peek a = some b) : busRead a s = .done b s := by
  have : s.platform.readPolicy a ≠ .device := by
    intro d
    simp [State.peek, d] at h
  simp [busRead, this, h]

theorem busRead_refused {s : State} {a : Word} (h : s.platform.readPolicy a = .refuse) :
    busRead a s = .raised .invalidReadAccess s := by
  simp [busRead, State.peek, h]

/-- All a byte read can do: it may use a free value, changes nothing else, and raises nothing but
`INVALID_READ_ACCESS`. -/
theorem busRead_cases (a : Word) (s : State) :
    (∃ b n, busRead a s = .done b { s with fresh := n }) ∨
      ∃ n, busRead a s = .raised .invalidReadAccess { s with fresh := n } := by
  unfold busRead
  split
  · split
    · exact .inl ⟨_, _, rfl⟩
    · exact .inr ⟨_, rfl⟩
  · split
    · exact .inl ⟨_, s.fresh, rfl⟩
    · exact .inr ⟨s.fresh, rfl⟩

/-- Memory after a byte write that a platform stores or ignores. -/
def Memory.take (p : Platform) (m : Memory) (a : Word) (b : Byte) : Memory :=
  if p.writePolicy a = .memory then m.write a.toNat b else m

theorem Memory.wf_take {m : Memory} (wf : m.wf = true) (p : Platform) (a : Word) (b : Byte) :
    (Memory.take p m a b).wf = true := by
  unfold Memory.take
  split
  · exact Memory.wf_writeAt wf _ _
  · exact wf

theorem Memory.read_take {m : Memory} (wf : m.wf = true) (p : Platform) (a : Word) (b : Byte) (c : Word) :
    (Memory.take p m a b).read c.toNat = if c = a ∧ p.writePolicy a = .memory then b else m.read c.toNat := by
  unfold Memory.take
  by_cases h : p.writePolicy a = .memory
  · rw [if_pos h, Memory.read_write wf]
    simp only [h, and_true, BitVec.toNat_inj]
  · rw [if_neg h, if_neg fun both => h both.2]

theorem busWrite_takes {s : State} {a : Word} (h : s.Takes a) (b : Byte) :
    busWrite a b s = .done () (s.setMem (Memory.take s.platform s.mem a b)) := by
  rcases h with ⟨m, p | p⟩ <;> simp [busWrite, writable, m, p, Memory.take, State.setMem]

theorem busWrite_readOnly {a : Word} (h : a.msb = false) (b : Byte) (s : State) :
    busWrite a b s = .raised .invalidWriteAccess s := by
  simp [busWrite, writable, h]

theorem busWrite_refused {s : State} {a : Word} (m : a.msb = true) (h : s.platform.writePolicy a = .refuse) (b : Byte) :
    busWrite a b s = .raised .invalidWriteAccess s := by
  simp [busWrite, writable, m, h]

theorem busWrite_refusesWrite {s : State} {a : Word} (h : s.RefusesWrite a) (b : Byte) :
    busWrite a b s = .raised .invalidWriteAccess s := by
  rcases h with m | p
  · exact busWrite_readOnly m b s
  · simp [busWrite, p]

theorem busWrite_ignored {s : State} {a : Word} (m : a.msb = true) (h : s.platform.writePolicy a = .ignore) (b : Byte) :
    busWrite a b s = .done () s := by
  simp [busWrite, writable, m, h]

/-- All a byte write can do: store a byte in the RAM half, use a free value, write a mapped system register, or
nothing; it raises nothing but `INVALID_WRITE_ACCESS`. -/
theorem busWrite_cases (a : Word) (b : Byte) (s : State) :
    (a.msb = true ∧ busWrite a b s = .done () (s.setMem (s.mem.write a.toNat b))) ∨
      (∃ n, busWrite a b s = .done () { s with fresh := n }) ∨
      (∃ r k, s.platform.writePolicy a = .sysReg r ∧ busWrite a b s = .done () (s.setSysRegByte r k b)) ∨
      ∃ n, busWrite a b s = .raised .invalidWriteAccess { s with fresh := n } := by
  unfold busWrite writable
  split
  · rename_i m
    split
    · exact .inl ⟨m, rfl⟩
    · exact .inr (.inl ⟨s.fresh, rfl⟩)
    · exact .inr (.inr (.inr ⟨s.fresh, rfl⟩))
    · split
      · exact .inr (.inl ⟨_, rfl⟩)
      · exact .inr (.inr (.inr ⟨_, rfl⟩))
    · rename_i r h
      exact .inr (.inr (.inl ⟨r, _, h, rfl⟩))
  · exact .inr (.inr (.inr ⟨s.fresh, rfl⟩))

/-- `peek` looks at the platform, the memory and the mappable system registers only. -/
theorem State.peek_congr {s t : State} (p : t.platform = s.platform) (m : t.mem = s.mem) (i : t.ie = s.ie)
    (q : t.irq = s.irq) (e : t.ec = s.ec) (a : Word) : t.peek a = s.peek a := by
  unfold State.peek
  rw [p, m]
  cases s.platform.readPolicy a with
  | sysReg r => cases r <;> simp [State.sysRegByte, i, q, e]
  | _ => rfl

@[simp] theorem State.peek_setSp (s : State) (v a : Word) : (s.setSp v).peek a = s.peek a :=
  State.peek_congr (s := s) rfl rfl rfl rfl rfl a

@[simp] theorem State.peek_setPc (s : State) (v a : Word) : (s.setPc v).peek a = s.peek a :=
  State.peek_congr (s := s) rfl rfl rfl rfl rfl a

/-! ### Data accesses -/

theorem State.Holds.at {w : Nat} {s : State} {a : Word} {n : Nat} {v : BitVec w} (h : s.Holds a n v) (k : Nat)
    (lt : k < n) : s.peek (a + BitVec.ofNat 32 k) = some (byteAt v k) := h k lt

theorem memRead8_holds {s : State} {a : Word} {v : Byte} (h : s.Holds a 1 v) : memRead8 a s = .done v s := by
  have h0 := h 0 (by omega)
  rw [BitVec.add_zero, byteAt_zero] at h0
  exact busRead_peek h0

theorem memRead16_holds {s : State} {a : Word} {v : Half} (h : s.Holds a 2 v) : memRead16 a s = .done v s := by
  have h0 := h 0 (by omega)
  rw [BitVec.add_zero] at h0
  have h1 : s.peek (a + 1) = some (byteAt v 1) := h 1 (by omega)
  unfold memRead16
  rw [Act.bind_done (busRead_peek h0), Act.bind_done (busRead_peek h1), Act.pure_apply, joinHalf_bytes]

theorem memRead32_holds {s : State} {a : Word} {v : Word} (h : s.Holds a 4 v) : memRead32 a s = .done v s := by
  have h0 := h 0 (by omega)
  rw [BitVec.add_zero] at h0
  have h1 : s.peek (a + 1) = some (byteAt v 1) := h 1 (by omega)
  have h2 : s.peek (a + 2) = some (byteAt v 2) := h 2 (by omega)
  have h3 : s.peek (a + 3) = some (byteAt v 3) := h 3 (by omega)
  unfold memRead32
  rw [Act.bind_done (busRead_peek h0), Act.bind_done (busRead_peek h1), Act.bind_done (busRead_peek h2),
    Act.bind_done (busRead_peek h3), Act.pure_apply, joinWord_bytes]

/-- What a data read of one, two or four bytes does when its byte `k` is the first refused: it raises, nothing changed. -/
theorem memRead8_refused {s : State} {a : Word} {k : Nat} (h : s.ReadRefusedAt a 1 k) :
    memRead8 a s = .raised .invalidReadAccess s := by
  obtain ⟨lt, -, refused⟩ := h
  obtain rfl : k = 0 := by omega
  rw [BitVec.add_zero] at refused
  exact busRead_refused refused

theorem memRead16_refused {s : State} {a : Word} {k : Nat} (h : s.ReadRefusedAt a 2 k) :
    memRead16 a s = .raised .invalidReadAccess s := by
  obtain ⟨lt, answered, refused⟩ := h
  unfold memRead16
  match k, lt with
  | 0, _ =>
    rw [BitVec.add_zero] at refused
    exact Act.bind_raised (busRead_refused refused)
  | 1, _ =>
    obtain ⟨b0, h0⟩ := answered 0 (by omega)
    rw [BitVec.add_zero] at h0
    rw [Act.bind_done (busRead_peek h0)]
    exact Act.bind_raised (busRead_refused refused)

theorem memRead32_refused {s : State} {a : Word} {k : Nat} (h : s.ReadRefusedAt a 4 k) :
    memRead32 a s = .raised .invalidReadAccess s := by
  obtain ⟨lt, answered, refused⟩ := h
  have read (j : Nat) (lt : j < k) : ∃ b, busRead (a + BitVec.ofNat 32 j) s = .done b s :=
    (answered j lt).imp fun _ h => busRead_peek h
  have stop := busRead_refused refused
  unfold memRead32
  match k, lt with
  | 0, _ =>
    rw [BitVec.add_zero] at stop
    exact Act.bind_raised stop
  | 1, _ =>
    obtain ⟨b0, h0⟩ := read 0 (by omega)
    rw [BitVec.add_zero] at h0
    rw [Act.bind_done h0]
    exact Act.bind_raised stop
  | 2, _ =>
    obtain ⟨b0, h0⟩ := read 0 (by omega)
    rw [BitVec.add_zero] at h0
    obtain ⟨b1, h1⟩ := read 1 (by omega)
    exact (Act.bind_done h0).trans ((Act.bind_done h1).trans (Act.bind_raised stop))
  | 3, _ =>
    obtain ⟨b0, h0⟩ := read 0 (by omega)
    rw [BitVec.add_zero] at h0
    obtain ⟨b1, h1⟩ := read 1 (by omega)
    obtain ⟨b2, h2⟩ := read 2 (by omega)
    exact (Act.bind_done h0).trans ((Act.bind_done h1).trans ((Act.bind_done h2).trans (Act.bind_raised stop)))

theorem State.TakesAll.at {s : State} {a : Word} {n : Nat} (h : s.TakesAll a n) (k : Nat) (lt : k < n) :
    s.Takes (a + BitVec.ofNat 32 k) := h k lt

/-- Whether an address takes a byte depends on the platform only. -/
theorem State.Takes.congr {s t : State} {a : Word} (h : s.Takes a) (p : t.platform = s.platform) : t.Takes a :=
  ⟨h.1, by rw [p]; exact h.2⟩

theorem State.Takes.setMem {s : State} {a : Word} (h : s.Takes a) (m : Memory) : (s.setMem m).Takes a := h

/-- Two offsets below `2^32` from one address give different addresses. -/
theorem offset_ne (a : Word) {i j : Nat} (hi : i < 2 ^ 32) (hj : j < 2 ^ 32) (ne : i ≠ j) :
    a + BitVec.ofNat 32 i ≠ a + BitVec.ofNat 32 j := by
  intro h
  have := congrArg BitVec.toNat h
  rw [BitVec.toNat_add, BitVec.toNat_add, BitVec.toNat_ofNat, BitVec.toNat_ofNat] at this
  have := a.isLt
  omega

theorem toNat_ne {a b : Word} (h : a ≠ b) : a.toNat ≠ b.toNat := fun e => h (BitVec.eq_of_toNat_eq e)

/-- The memory after `n` bytes of `v` were written from `a` up, for `n` at most 4. -/
def Memory.writeBytes {w : Nat} (p : Platform) (m : Memory) (a : Word) (v : BitVec w) (n : Nat) : Memory :=
  match n with
  | 0 => m
  | k + 1 => Memory.take p (Memory.writeBytes p m a v k) (a + BitVec.ofNat 32 k) (byteAt v k)

theorem Memory.wf_writeBytes {w : Nat} {m : Memory} (wf : m.wf = true) (p : Platform) (a : Word) (v : BitVec w) (n : Nat) :
    (Memory.writeBytes p m a v n).wf = true := by
  induction n with
  | zero => exact wf
  | succ k ih => exact Memory.wf_take ih _ _ _

theorem Memory.read_writeBytes {w : Nat} {m : Memory} (wf : m.wf = true) (p : Platform) (a : Word) (v : BitVec w) {n : Nat}
    (small : n < 2 ^ 32) :
    (∀ k, k < n → p.writePolicy (a + BitVec.ofNat 32 k) = .memory →
        (Memory.writeBytes p m a v n).read (a + BitVec.ofNat 32 k).toNat = byteAt v k) ∧
      ∀ b : Word, (∀ k, k < n → b = a + BitVec.ofNat 32 k → p.writePolicy b = .ignore) →
        (Memory.writeBytes p m a v n).read b.toNat = m.read b.toNat := by
  induction n with
  | zero => exact ⟨fun k lt => absurd lt (Nat.not_lt_zero k), fun _ _ => rfl⟩
  | succ n ih =>
    obtain ⟨ih1, ih2⟩ := ih (by omega)
    simp only [Memory.writeBytes, Memory.read_take (Memory.wf_writeBytes wf p a v n)]
    refine ⟨fun k lt stored => ?_, fun b ignored => ?_⟩
    · by_cases e : k = n
      · subst e
        rw [if_pos ⟨rfl, stored⟩]
      · rw [if_neg fun both => offset_ne a (by omega) (by omega) e both.1]
        exact ih1 k (by omega) stored
    · rw [if_neg, ih2 b fun k lt => ignored k (by omega)]
      rintro ⟨rfl, stored⟩
      have := ignored n (by omega) rfl
      rw [stored] at this
      cases this

theorem memWrite8_takes {s : State} {a : Word} (h : s.TakesAll a 1) (v : Byte) :
    memWrite8 a v s = .done () (s.setMem (Memory.writeBytes s.platform s.mem a v 1)) := by
  have h0 := h 0 (by omega)
  rw [BitVec.add_zero] at h0
  rw [memWrite8, busWrite_takes h0, Memory.writeBytes, Memory.writeBytes, byteAt_zero, BitVec.add_zero]

theorem memWrite16_takes {s : State} {a : Word} (h : s.TakesAll a 2) (v : Half) :
    memWrite16 a v s = .done () (s.setMem (Memory.writeBytes s.platform s.mem a v 2)) := by
  have h0 := h 0 (by omega)
  rw [BitVec.add_zero] at h0
  have h1 : s.Takes (a + 1) := h 1 (by omega)
  unfold memWrite16
  rw [Act.then_done (busWrite_takes h0 _), busWrite_takes (h1.setMem _)]
  simp only [Memory.writeBytes, BitVec.add_zero]
  rfl

theorem memWrite32_takes {s : State} {a : Word} (h : s.TakesAll a 4) (v : Word) :
    memWrite32 a v s = .done () (s.setMem (Memory.writeBytes s.platform s.mem a v 4)) := by
  have h0 := h 0 (by omega)
  rw [BitVec.add_zero] at h0
  have h1 : s.Takes (a + 1) := h 1 (by omega)
  have h2 : s.Takes (a + 2) := h 2 (by omega)
  have h3 : s.Takes (a + 3) := h 3 (by omega)
  unfold memWrite32
  rw [Act.then_done (busWrite_takes h0 _), Act.then_done (busWrite_takes (h1.setMem _) _),
    Act.then_done (busWrite_takes ((h2.setMem _).setMem _) _), busWrite_takes (((h3.setMem _).setMem _).setMem _)]
  simp only [Memory.writeBytes, BitVec.add_zero]
  rfl

/-- Byte `j` of a store from `a` up that is stored or ignored, after the bytes below it. -/
theorem busWrite_writeBytes {w : Nat} {s : State} {a : Word} {v : BitVec w} {j : Nat} (h : s.Takes (a + BitVec.ofNat 32 j)) :
    busWrite (a + BitVec.ofNat 32 j) (byteAt v j) (s.setMem (Memory.writeBytes s.platform s.mem a v j)) =
      .done () (s.setMem (Memory.writeBytes s.platform s.mem a v (j + 1))) := by
  rw [busWrite_takes (h.setMem _)]
  rfl

/-- Byte `k` of a store from `a` up that is refused, after the bytes below it. -/
theorem busWrite_writeBytes_refused {w : Nat} {s : State} {a : Word} {v : BitVec w} {k : Nat}
    (h : s.RefusesWrite (a + BitVec.ofNat 32 k)) (b : Byte) :
    busWrite (a + BitVec.ofNat 32 k) b (s.setMem (Memory.writeBytes s.platform s.mem a v k)) =
      .raised .invalidWriteAccess (s.setMem (Memory.writeBytes s.platform s.mem a v k)) :=
  busWrite_refusesWrite (s := s.setMem (Memory.writeBytes s.platform s.mem a v k)) h b

/-- What a data write of one, two or four bytes does when its byte `k` is the first refused: it raises, the bytes below
written. -/
theorem memWrite8_refused {s : State} {a : Word} {k : Nat} (h : s.WriteRefusedAt a 1 k) (v : Byte) :
    memWrite8 a v s = .raised .invalidWriteAccess (s.setMem (Memory.writeBytes s.platform s.mem a v k)) := by
  obtain ⟨lt, -, refused⟩ := h
  obtain rfl : k = 0 := by omega
  rw [BitVec.add_zero] at refused
  exact busWrite_refusesWrite refused v

theorem memWrite16_refused {s : State} {a : Word} {k : Nat} (h : s.WriteRefusedAt a 2 k) (v : Half) :
    memWrite16 a v s = .raised .invalidWriteAccess (s.setMem (Memory.writeBytes s.platform s.mem a v k)) := by
  obtain ⟨lt, taken, refused⟩ := h
  have write (j : Nat) (lt : j < k) := busWrite_writeBytes (v := v) (taken j lt)
  have stop (b : Byte) := busWrite_writeBytes_refused (v := v) refused b
  unfold memWrite16
  match k, lt with
  | 0, _ =>
    have stop := stop (byteAt v 0)
    rw [BitVec.add_zero] at stop
    exact Act.then_raised stop
  | 1, _ =>
    have w0 := write 0 (by omega)
    rw [BitVec.add_zero] at w0
    exact (Act.then_done w0).trans (stop _)

theorem memWrite32_refused {s : State} {a : Word} {k : Nat} (h : s.WriteRefusedAt a 4 k) (v : Word) :
    memWrite32 a v s = .raised .invalidWriteAccess (s.setMem (Memory.writeBytes s.platform s.mem a v k)) := by
  obtain ⟨lt, taken, refused⟩ := h
  have write (j : Nat) (lt : j < k) := busWrite_writeBytes (v := v) (taken j lt)
  have stop (b : Byte) := busWrite_writeBytes_refused (v := v) refused b
  unfold memWrite32
  match k, lt with
  | 0, _ =>
    have stop := stop (byteAt v 0)
    rw [BitVec.add_zero] at stop
    exact Act.then_raised stop
  | 1, _ =>
    have w0 := write 0 (by omega)
    rw [BitVec.add_zero] at w0
    exact (Act.then_done w0).trans (Act.then_raised (stop _))
  | 2, _ =>
    have w0 := write 0 (by omega)
    rw [BitVec.add_zero] at w0
    exact (Act.then_done w0).trans ((Act.then_done (write 1 (by omega))).trans (Act.then_raised (stop _)))
  | 3, _ =>
    have w0 := write 0 (by omega)
    rw [BitVec.add_zero] at w0
    exact (Act.then_done w0).trans ((Act.then_done (write 1 (by omega))).trans ((Act.then_done (write 2 (by omega))).trans (stop _)))

/-! ### The stack -/

/-- The bits below bit 31 of the value every stack address has set. -/
theorem getLsbD_bit31 {k : Nat} (l : k < 31) : (0x80000000 : Word).getLsbD k = false := by
  interval_cases k <;> rfl

@[simp] theorem stackAddress_msb (v : Word) : (stackAddress v).msb = true := by
  rw [stackAddress, BitVec.msb_or]
  exact Bool.or_eq_true_iff.mpr (.inr rfl)

theorem stackAddress_of_msb {v : Word} (h : v.msb = true) : stackAddress v = v := by
  apply BitVec.eq_of_getLsbD_eq
  intro k lt
  rw [stackAddress, BitVec.getLsbD_or]
  by_cases e : k = 31
  · subst e
    rw [BitVec.msb_eq_getLsbD_last] at h
    rw [h, Bool.true_or]
  · rw [getLsbD_bit31 (by omega), Bool.or_false]

/-- The value modulo `2^31` with bit 31 set. -/
theorem toNat_stackAddress (v : Word) : (stackAddress v).toNat = v.toNat % 2 ^ 31 + 2 ^ 31 := by
  have h : stackAddress v = BitVec.ofNat 32 (v.toNat % 2 ^ 31 + 2 ^ 31) := by
    apply BitVec.eq_of_getLsbD_eq
    intro k lt
    rw [stackAddress, BitVec.getLsbD_or, BitVec.getLsbD_ofNat, Nat.add_comm]
    by_cases e : k = 31
    · subst e
      rw [Nat.testBit_two_pow_add_eq]
      simp [Nat.testBit_lt_two_pow (Nat.mod_lt v.toNat (show 2 ^ 31 > 0 by decide))]
    · have l : k < 31 := by omega
      rw [Nat.testBit_two_pow_add_gt l, Nat.testBit_mod_two_pow]
      rw [getLsbD_bit31 l]
      simp [l, lt, BitVec.getLsbD]
  rw [h, BitVec.toNat_ofNat]
  omega

/-- Stepping down one byte at a time, bit 31 forced at each step, is stepping down at once (R28, R83). -/
theorem stackAddress_sub_stackAddress (v : Word) (k : Nat) :
    stackAddress (stackAddress (v - BitVec.ofNat 32 k) - 1) = stackAddress (v - BitVec.ofNat 32 (k + 1)) := by
  apply BitVec.eq_of_toNat_eq
  rw [toNat_stackAddress, toNat_stackAddress, BitVec.toNat_sub, toNat_stackAddress, BitVec.toNat_sub, BitVec.toNat_sub,
    BitVec.toNat_ofNat, BitVec.toNat_ofNat, show (1 : Word).toNat = 1 from rfl]
  have := v.isLt
  omega

/-- Stepping up one byte at a time, bit 31 forced at each step, is stepping up at once (R28, R84). -/
theorem stackAddress_add_stackAddress (v : Word) (k : Nat) :
    stackAddress (stackAddress (v + BitVec.ofNat 32 k) + 1) = stackAddress (v + BitVec.ofNat 32 (k + 1)) := by
  apply BitVec.eq_of_toNat_eq
  rw [toNat_stackAddress, toNat_stackAddress, BitVec.toNat_add, toNat_stackAddress, BitVec.toNat_add, BitVec.toNat_add,
    BitVec.toNat_ofNat, BitVec.toNat_ofNat, show (1 : Word).toNat = 1 from rfl]
  have := v.isLt
  omega

theorem pushAddress_ne (v : Word) {i j : Nat} (hi : i ≤ 4) (hj : j ≤ 4) (ne : i ≠ j) : pushAddress v i ≠ pushAddress v j := by
  intro h
  have := congrArg BitVec.toNat h
  rw [pushAddress, pushAddress, toNat_stackAddress, toNat_stackAddress, BitVec.toNat_sub, BitVec.toNat_sub,
    BitVec.toNat_ofNat, BitVec.toNat_ofNat] at this
  have := v.isLt
  omega

/-- The memory after the first `n` bytes of a push of `v`. -/
def Memory.pushBytes (p : Platform) (m : Memory) (sp v : Word) (n : Nat) : Memory :=
  match n with
  | 0 => m
  | k + 1 => Memory.take p (Memory.pushBytes p m sp v k) (pushAddress sp (k + 1)) (byteAt v (3 - k))

theorem Memory.wf_pushBytes {m : Memory} (wf : m.wf = true) (p : Platform) (sp v : Word) (n : Nat) :
    (Memory.pushBytes p m sp v n).wf = true := by
  induction n with
  | zero => exact wf
  | succ k ih => exact Memory.wf_take ih _ _ _

theorem Memory.read_pushBytes {m : Memory} (wf : m.wf = true) (p : Platform) (sp v : Word) {n : Nat} (small : n ≤ 4) :
    (∀ k, k < n → p.writePolicy (pushAddress sp (k + 1)) = .memory →
        (Memory.pushBytes p m sp v n).read (pushAddress sp (k + 1)).toNat = byteAt v (3 - k)) ∧
      ∀ b : Word, (∀ k, k < n → b = pushAddress sp (k + 1) → p.writePolicy b = .ignore) →
        (Memory.pushBytes p m sp v n).read b.toNat = m.read b.toNat := by
  induction n with
  | zero => exact ⟨fun k lt => absurd lt (Nat.not_lt_zero k), fun _ _ => rfl⟩
  | succ n ih =>
    obtain ⟨ih1, ih2⟩ := ih (by omega)
    simp only [Memory.pushBytes, Memory.read_take (Memory.wf_pushBytes wf p sp v n)]
    refine ⟨fun k lt stored => ?_, fun b ignored => ?_⟩
    · by_cases e : k = n
      · subst e
        rw [if_pos ⟨rfl, stored⟩]
      · rw [if_neg fun both => pushAddress_ne sp (by omega) (by omega) (by omega) both.1]
        exact ih1 k (by omega) stored
    · rw [if_neg, ih2 b fun k lt => ignored k (by omega)]
      rintro ⟨rfl, stored⟩
      have := ignored n (by omega) rfl
      rw [stored] at this
      cases this

/-- One byte pushed that is stored or ignored. -/
theorem pushByte_takes {s : State} {a : Word} (e : stackAddress (s.sp - 1) = a) (h : s.Takes a) (b : Byte) :
    pushByte b s = .done () { s with sp := a, mem := Memory.take s.platform s.mem a b } := by
  subst e
  have st : (s.setSp (s.sp - 1)).Takes (stackAddress (s.sp - 1)) := h
  simp only [pushByte, State.setSp_sp, busWrite_takes st]
  rfl

/-- A push whose bytes are stored or ignored: `SP` four lower, bit 31 forced, the stored bytes written. -/
theorem push32_takes {s : State} (h : s.StackTakes) (v : Word) :
    push32 v s = .done () { s with sp := pushAddress s.sp 4, mem := Memory.pushBytes s.platform s.mem s.sp v 4 } := by
  let after (k : Nat) : State := { s with sp := pushAddress s.sp k, mem := Memory.pushBytes s.platform s.mem s.sp v k }
  have p1 : pushByte (byteAt v 3) s = .done () (after 1) := pushByte_takes rfl (h 0 (by omega)) _
  have p2 : pushByte (byteAt v 2) (after 1) = .done () (after 2) :=
    pushByte_takes (s := after 1) (stackAddress_sub_stackAddress s.sp 1) (h 1 (by omega)) _
  have p3 : pushByte (byteAt v 1) (after 2) = .done () (after 3) :=
    pushByte_takes (s := after 2) (stackAddress_sub_stackAddress s.sp 2) (h 2 (by omega)) _
  have p4 : pushByte (byteAt v 0) (after 3) = .done () (after 4) :=
    pushByte_takes (s := after 3) (stackAddress_sub_stackAddress s.sp 3) (h 3 (by omega)) _
  unfold push32
  rw [Act.then_done p1, Act.then_done p2, Act.then_done p3, p4]

/-- A byte of a push that is refused: `STACK_OVERFLOW`, with the decrement kept. -/
theorem pushByte_refused {s : State} {a : Word} (e : stackAddress (s.sp - 1) = a) (h : s.platform.writePolicy a = .refuse)
    (b : Byte) : pushByte b s = .raised .stackOverflow { s with sp := a } := by
  subst e
  have w : busWrite (s.setSp (s.sp - 1)).sp b (s.setSp (s.sp - 1)) = .raised .invalidWriteAccess (s.setSp (s.sp - 1)) :=
    busWrite_refused (s := s.setSp (s.sp - 1)) (stackAddress_msb _) h _
  simp only [pushByte, w]
  rfl

/-- A push whose byte `k` is the first refused: `STACK_OVERFLOW`, with the bytes before it written and the decrements kept. -/
theorem push32_refusedAt {s : State} {k : Nat} (h : s.PushRefusedAt k) (v : Word) :
    push32 v s = .raised .stackOverflow
      { s with sp := pushAddress s.sp (k + 1), mem := Memory.pushBytes s.platform s.mem s.sp v k } := by
  obtain ⟨lt, taken, refused⟩ := h
  let after (j : Nat) : State := { s with sp := pushAddress s.sp j, mem := Memory.pushBytes s.platform s.mem s.sp v j }
  have p1 (l : 0 < k) : pushByte (byteAt v 3) s = .done () (after 1) := pushByte_takes rfl (taken 0 l) _
  have p2 (l : 1 < k) : pushByte (byteAt v 2) (after 1) = .done () (after 2) :=
    pushByte_takes (s := after 1) (stackAddress_sub_stackAddress s.sp 1) (taken 1 l) _
  have p3 (l : 2 < k) : pushByte (byteAt v 1) (after 2) = .done () (after 3) :=
    pushByte_takes (s := after 2) (stackAddress_sub_stackAddress s.sp 2) (taken 2 l) _
  unfold push32
  match k, lt with
  | 0, _ => exact Act.then_raised (pushByte_refused rfl refused _)
  | 1, _ =>
    rw [Act.then_done (p1 (by omega))]
    exact Act.then_raised (pushByte_refused (s := after 1) (stackAddress_sub_stackAddress s.sp 1) refused _)
  | 2, _ =>
    rw [Act.then_done (p1 (by omega)), Act.then_done (p2 (by omega))]
    exact Act.then_raised (pushByte_refused (s := after 2) (stackAddress_sub_stackAddress s.sp 2) refused _)
  | 3, _ =>
    rw [Act.then_done (p1 (by omega)), Act.then_done (p2 (by omega)), Act.then_done (p3 (by omega))]
    exact pushByte_refused (s := after 3) (stackAddress_sub_stackAddress s.sp 3) refused _

/-- A push whose first byte is refused: `STACK_OVERFLOW`, with the one decrement kept. -/
theorem push32_refused {s : State} (h : s.platform.writePolicy (pushAddress s.sp 1) = .refuse) (v : Word) :
    push32 v s = .raised .stackOverflow { s with sp := pushAddress s.sp 1 } :=
  push32_refusedAt ⟨by omega, fun _ l => absurd l (Nat.not_lt_zero _), h⟩ v

/-- The state after an abandoned push, as the statements say it. -/
theorem pushAbandoned {s : State} (wf : s.mem.wf = true) (v : Word) {k : Nat} (lt : k < 4) :
    PushAbandoned s { s with sp := pushAddress s.sp (k + 1), mem := Memory.pushBytes s.platform s.mem s.sp v k } v k :=
  ⟨rfl, Memory.read_pushBytes wf s.platform s.sp v (by omega), rfl⟩

/-- One byte popped where no device answers. -/
theorem popByte_peek {s : State} {a : Word} {b : Byte} (h : s.peek s.sp = some b) (e : stackAddress (s.sp + 1) = a) :
    popByte s = .done b { s with sp := a } := by
  subst e
  simp only [popByte, busRead_peek h]
  rfl

theorem popByte_refused {s : State} (h : s.platform.readPolicy s.sp = .refuse) :
    popByte s = .raised .stackUnderflow s := by
  simp only [popByte, busRead_refused h]

/-- A pop whose byte `k` is the first refused: `STACK_UNDERFLOW`, with `SP` at the refused byte. -/
theorem pop32_refusedAt {s : State} {k : Nat} (h : s.PopRefusedAt k) :
    pop32 s = .raised .stackUnderflow { s with sp := popByteAddress s.sp k } := by
  obtain ⟨lt, answered, refused⟩ := h
  have p0 (l : 0 < k) : ∃ b, popByte s = .done b { s with sp := popAddress s.sp 1 } :=
    (answered 0 l).imp fun _ h => popByte_peek h rfl
  have p (j : Nat) (l : j + 1 < k) :
      ∃ b, popByte { s with sp := popAddress s.sp (j + 1) } = .done b { s with sp := popAddress s.sp (j + 2) } :=
    (answered (j + 1) l).imp fun _ h => popByte_peek ((State.peek_setSp s _ _).trans h) (stackAddress_add_stackAddress s.sp (j + 1))
  have stop : popByte { s with sp := popByteAddress s.sp k } = .raised .stackUnderflow { s with sp := popByteAddress s.sp k } :=
    popByte_refused (s := { s with sp := popByteAddress s.sp k }) refused
  unfold pop32
  match k, lt with
  | 0, _ => exact Act.bind_raised stop
  | 1, _ =>
    obtain ⟨b0, h0⟩ := p0 (by omega)
    rw [Act.bind_done h0]
    exact Act.bind_raised stop
  | 2, _ =>
    obtain ⟨b0, h0⟩ := p0 (by omega)
    obtain ⟨b1, h1⟩ := p 0 (by omega)
    rw [Act.bind_done h0, Act.bind_done h1]
    exact Act.bind_raised stop
  | 3, _ =>
    obtain ⟨b0, h0⟩ := p0 (by omega)
    obtain ⟨b1, h1⟩ := p 0 (by omega)
    obtain ⟨b2, h2⟩ := p 1 (by omega)
    rw [Act.bind_done h0, Act.bind_done h1, Act.bind_done h2]
    exact Act.bind_raised stop

/-- A pop of four readable bytes: `SP` four higher, bit 31 forced. -/
theorem pop32_holds {s : State} {v : Word} (m : s.sp.msb = true) (h : s.StackHolds v) :
    pop32 s = .done v { s with sp := popAddress s.sp 4 } := by
  have h0 := h 0 (by omega)
  rw [popAddress, BitVec.add_zero, stackAddress_of_msb m] at h0
  have p1 : popByte s = .done (byteAt v 0) { s with sp := popAddress s.sp 1 } := popByte_peek h0 rfl
  have p2 : popByte { s with sp := popAddress s.sp 1 } = .done (byteAt v 1) { s with sp := popAddress s.sp 2 } :=
    popByte_peek ((State.peek_setSp s _ _).trans (h 1 (by omega))) (stackAddress_add_stackAddress s.sp 1)
  have p3 : popByte { s with sp := popAddress s.sp 2 } = .done (byteAt v 2) { s with sp := popAddress s.sp 3 } :=
    popByte_peek ((State.peek_setSp s _ _).trans (h 2 (by omega))) (stackAddress_add_stackAddress s.sp 2)
  have p4 : popByte { s with sp := popAddress s.sp 3 } = .done (byteAt v 3) { s with sp := popAddress s.sp 4 } :=
    popByte_peek ((State.peek_setSp s _ _).trans (h 3 (by omega))) (stackAddress_add_stackAddress s.sp 3)
  unfold pop32
  rw [Act.bind_done p1, Act.bind_done p2, Act.bind_done p3, Act.bind_done p4, Act.pure_apply, joinWord_bytes]

/-! ### Fetching -/

/-- A byte fetched where no device answers. -/
theorem fetch8_peek {s : State} {b : Byte} (h : s.peek s.pc = some b) : fetch8 s = .done b (s.setPc (s.pc + 1)) := by
  simp only [fetch8, busRead_peek h]

theorem fetch8_refused {s : State} (h : s.platform.readPolicy s.pc = .refuse) : fetch8 s = .raised .invalidReadAccess s := by
  simp only [fetch8, busRead_refused h]

/-- A byte of the opcode fetched where no device answers. -/
theorem fetchOpcodeByte_peek {s : State} {b : Byte} (h : s.peek s.pc = some b) :
    fetchOpcodeByte s = .done b (s.setPc (s.pc + 1)) := by
  simp only [fetchOpcodeByte, fetch8_peek h]

theorem fetchOpcodeByte_refused {s : State} (h : s.platform.readPolicy s.pc = .refuse) :
    fetchOpcodeByte s = .raised .invalidExecuteAccess s := by
  simp only [fetchOpcodeByte, fetch8_refused h]

/-- An immediate whose byte `k` is the first refused: `INVALID_READ_ACCESS`, with `PC` at the refused byte. -/
theorem fetchImmediate_refusedAt {n : Nat} : ∀ {s : State} {k : Nat}, s.ReadRefusedAt s.pc n k →
    fetchImmediate n s = .raised .invalidReadAccess (s.setPc (s.pc + BitVec.ofNat 32 k)) := by
  induction n with
  | zero => exact fun h => absurd h.lt (Nat.not_lt_zero _)
  | succ n ih =>
    intro s k h
    unfold fetchImmediate
    cases k with
    | zero =>
      have r := h.refused
      rw [BitVec.add_zero] at r ⊢
      exact Act.bind_raised (fetch8_refused r)
    | succ k =>
      have shift (j : Nat) : s.pc + 1 + BitVec.ofNat 32 j = s.pc + BitVec.ofNat 32 (j + 1) := by
        rw [BitVec.add_assoc, Nat.add_comm j 1, BitVec.ofNat_add]
        rfl
      obtain ⟨b, first⟩ := h.answered 0 (by omega)
      rw [BitVec.add_zero] at first
      rw [Act.bind_done (fetch8_peek first), Act.bind_raised (ih (k := k) ⟨?_, ?_, ?_⟩)]
      · simp only [State.setPc, shift]
      · have := h.lt
        omega
      · intro j lt
        rw [State.setPc_pc, shift, State.peek_setPc]
        exact h.answered (j + 1) (by omega)
      · rw [State.setPc_pc, shift]
        exact h.refused

end Sys2Proof.Machine
end

