-- ==== Sys2Proof/Laws/Accesses.lean ====
section
/-! SUPPORT. Every data access, stack access and fetch is a sequence of byte accesses on the bus, in the terms of Safety.lean. -/

namespace Sys2Proof.Machine

/-! ### Sequencing -/

theorem Act.bind_assoc {α β γ : Type} (x : Act α) (f : α → Act β) (g : β → Act γ) :
    Act.bind (Act.bind x f) g = Act.bind x fun a => Act.bind (f a) g := by
  funext s
  simp only [Act.bind]
  cases x s <;> rfl

theorem Act.pure_bind {α β : Type} (a : α) (f : α → Act β) : Act.bind (Act.pure a) f = f a := rfl

theorem Act.bind_pure {α : Type} (x : Act α) : Act.bind x Act.pure = x := by
  funext s
  simp only [Act.bind]
  cases x s <;> rfl

/-- An action whose exceptions are reported as another. -/
def Act.reporting {α : Type} (e : Exc) (x : Act α) : Act α := fun s =>
  match x s with
  | .done a t => .done a t
  | .raised _ t => .raised e t

theorem Act.reporting_done {α : Type} {e : Exc} {x : Act α} {s t : State} {a : α} (h : x s = .done a t) :
    Act.reporting e x s = .done a t := by
  simp only [Act.reporting, h]

theorem Act.reporting_raised {α : Type} {e e' : Exc} {x : Act α} {s t : State} (h : x s = .raised e' t) :
    Act.reporting e x s = .raised e t := by
  simp only [Act.reporting, h]

theorem Act.reporting_bind {α β : Type} (e : Exc) (x : Act α) (f : α → Act β) :
    Act.reporting e (Act.bind x f) = Act.bind (Act.reporting e x) fun a => Act.reporting e (f a) := by
  funext s
  simp only [Act.reporting, Act.bind]
  cases x s <;> rfl

/-! ### Data -/

theorem memRead8_bytes (a : Word) :
    memRead8 a = Act.bind (readBytes 1 a) fun bytes => Act.pure ((joinBytes bytes).setWidth 8) := by
  simp only [memRead8, readBytes, Act.bind_assoc, Act.pure_bind, BitVec.add_zero, List.nil_append, joinBytes_one, Act.bind_pure]

theorem memRead16_bytes (a : Word) :
    memRead16 a = Act.bind (readBytes 2 a) fun bytes => Act.pure ((joinBytes bytes).setWidth 16) := by
  simp only [memRead16, readBytes, Act.bind_assoc, Act.pure_bind, BitVec.add_zero, List.nil_append, List.cons_append, joinBytes_two]
  rfl

theorem memRead32_bytes (a : Word) : memRead32 a = Act.bind (readBytes 4 a) fun bytes => Act.pure (joinBytes bytes) := by
  simp only [memRead32, readBytes, Act.bind_assoc, Act.pure_bind, BitVec.add_zero, List.nil_append, List.cons_append, joinBytes_four]
  rfl

/-- The low four bytes of a value are those of the value at 32 bits. -/
theorem byteAt_setWidth {w : Nat} (v : BitVec w) {k : Nat} (small : k < 4) :
    byteAt (v.setWidth 32) k = byteAt v k := by
  apply BitVec.eq_of_getLsbD_eq
  intro j lt
  rw [getLsbD_byteAt, getLsbD_byteAt, BitVec.getLsbD_setWidth, decide_eq_true (show 8 * k + j < 32 by omega), Bool.true_and]

theorem memWrite8_bytes (a : Word) (v : Byte) : memWrite8 a v = writeBytes 1 a (v.setWidth 32) := by
  simp only [memWrite8, writeBytes, Act.then, Act.pure_bind, BitVec.add_zero, byteAt_setWidth v (show 0 < 4 by omega),
    byteAt_zero]

theorem memWrite16_bytes (a : Word) (v : Half) : memWrite16 a v = writeBytes 2 a (v.setWidth 32) := by
  simp only [memWrite16, writeBytes, Act.then, Act.pure_bind, BitVec.add_zero, byteAt_setWidth v (show 0 < 4 by omega),
    byteAt_setWidth v (show 1 < 4 by omega)]
  rfl

theorem memWrite32_bytes (a v : Word) : memWrite32 a v = writeBytes 4 a v := by
  simp only [memWrite32, writeBytes, Act.then, Act.pure_bind, Act.bind_assoc, BitVec.add_zero]
  rfl

/-! ### The stack -/

theorem pushByte_bus (b : Byte) :
    pushByte b = Act.reporting .stackOverflow fun s => busWrite (pushAddress s.sp 1) b { s with sp := pushAddress s.sp 1 } := by
  funext s
  change (match busWrite (pushAddress s.sp 1) b { s with sp := pushAddress s.sp 1 } with
    | .done _ u => Result.done () u
    | .raised _ u => .raised .stackOverflow u) = _
  simp only [Act.reporting]
  cases busWrite (pushAddress s.sp 1) b { s with sp := pushAddress s.sp 1 } <;> rfl

theorem push32_bytes (v : Word) : push32 v = Act.reporting .stackOverflow (stackWrite 4 v) := by
  simp only [push32, stackWrite, Act.then, Act.pure_bind, Act.bind_assoc, Act.reporting_bind, pushByte_bus]

theorem popByte_bus :
    popByte = Act.reporting .stackUnderflow (Act.bind (fun s => busRead s.sp s) fun b =>
      Act.then (update fun s => { s with sp := popAddress s.sp 1 }) (Act.pure b)) := by
  funext s
  simp only [popByte, Act.reporting, Act.bind, Act.then]
  cases busRead s.sp s <;> rfl

theorem pop32_bytes : pop32 = Act.reporting .stackUnderflow (Act.bind (stackRead 4) fun bytes => Act.pure (joinBytes bytes)) := by
  simp only [pop32, popByte_bus, stackRead, Act.then, Act.pure_bind, Act.bind_assoc, Act.reporting_bind, List.nil_append,
    List.cons_append, joinBytes_four]
  rfl

/-! ### Fetching -/

theorem fetch8_bus : fetch8 = Act.bind (fun s => busRead s.pc s) fun b =>
    Act.then (update fun s => s.setPc (s.pc + 1)) (Act.pure b) := by
  funext s
  simp only [fetch8, Act.bind, Act.then]
  cases busRead s.pc s <;> rfl

theorem fetchOpcodeByte_reports : fetchOpcodeByte = Act.reporting .invalidExecuteAccess fetch8 := by
  funext s
  simp only [fetchOpcodeByte, Act.reporting]
  cases fetch8 s <;> rfl

theorem fetchBytes_succ (k : Nat) :
    fetchBytes (k + 1) = Act.bind (fetchBytes k) fun bytes => Act.bind fetch8 fun b => Act.pure (bytes ++ [b]) := by
  simp only [fetchBytes, fetch8_bus, Act.bind_assoc, Act.then, Act.pure_bind]

/-- Bytes fetched one after the other are an opcode's or what came before, and then an immediate. -/
theorem fetchBytes_add (k n : Nat) :
    fetchBytes (k + n) = Act.bind (fetchBytes k) fun bytes => Act.bind (fetchImmediate n) fun rest => Act.pure (bytes ++ rest) := by
  induction n generalizing k with
  | zero => simp only [Nat.add_zero, fetchImmediate, Act.pure_bind, List.append_nil, Act.bind_pure]
  | succ n ih =>
    rw [show k + (n + 1) = k + 1 + n by omega, ih, fetchBytes_succ]
    simp only [fetchImmediate, Act.bind_assoc, Act.pure_bind, List.append_assoc, List.singleton_append]

/-- All that a fetch of bytes does: `PC` goes past them, and the counter of the free values may move. -/
theorem fetchBytes_done {k : Nat} {s t : State} {bytes : List Byte} (h : fetchBytes k s = .done bytes t) :
    bytes.length = k ∧ t = { s with pc := s.pc + BitVec.ofNat 32 k, fresh := t.fresh } := by
  induction k generalizing t bytes with
  | zero =>
    cases h
    exact ⟨rfl, by rw [BitVec.add_zero]⟩
  | succ k ih =>
    rw [fetchBytes_succ] at h
    cases e : fetchBytes k s with
    | raised x u => rw [Act.bind_raised e] at h; cases h
    | done before u =>
      obtain ⟨length, shape⟩ := ih e
      rw [Act.bind_done e] at h
      rcases busRead_cases u.pc u with ⟨b, n, read⟩ | ⟨n, read⟩
      · rw [Act.bind_done (show fetch8 u = .done b (({ u with fresh := n } : State).setPc (u.pc + 1)) by simp only [fetch8, read])] at h
        cases h
        refine ⟨by rw [List.length_append, length]; rfl, ?_⟩
        rw [shape]
        simp only [State.setPc, BitVec.add_assoc, BitVec.ofNat_add]
        rfl
      · rw [Act.bind_raised (show fetch8 u = .raised .invalidReadAccess { u with fresh := n } by simp only [fetch8, read])] at h
        cases h

/-- Fetching in two parts: the bytes of the first, the state between, the bytes of the second. -/
theorem fetchBytes_add_done {k n : Nat} {s t : State} {bytes : List Byte} (h : fetchBytes (k + n) s = .done bytes t) :
    ∃ u, fetchBytes k s = .done (bytes.take k) u ∧ fetchImmediate n u = .done (bytes.drop k) t := by
  rw [fetchBytes_add] at h
  cases e : fetchBytes k s with
  | raised x u => rw [Act.bind_raised e] at h; cases h
  | done before u =>
    rw [Act.bind_done e] at h
    cases e' : fetchImmediate n u with
    | raised x v => rw [Act.bind_raised e'] at h; cases h
    | done rest v =>
      rw [Act.bind_done e'] at h
      cases h
      have length := (fetchBytes_done e).1
      exact ⟨u, by rw [List.take_left' length], by rw [List.drop_left' length]; exact e'⟩

/-- The opcode of an instruction as two bytes fetched one after the other. -/
theorem fetchOpcode_done {s t : State} {lo ii : Byte} (h : fetchBytes 2 s = .done [lo, ii] t) {α : Type} (f : Byte → Byte → Act α) :
    (Act.bind fetchOpcodeByte fun lo => Act.bind fetchOpcodeByte fun ii => f lo ii) s = f lo ii t := by
  simp only [fetchBytes_succ, show fetchBytes 0 = Act.pure [] from rfl, Act.pure_bind, Act.bind_assoc, List.nil_append,
    List.cons_append] at h
  rw [fetchOpcodeByte_reports]
  cases e : fetch8 s with
  | raised x u => rw [Act.bind_raised e] at h; cases h
  | done b u =>
    rw [Act.bind_done e] at h
    cases e' : fetch8 u with
    | raised x v => rw [Act.bind_raised e'] at h; cases h
    | done c v =>
      rw [Act.bind_done e'] at h
      cases h
      rw [Act.bind_done (Act.reporting_done e), Act.bind_done (Act.reporting_done e')]

/-- What a fetch that is answered brings. -/
theorem fetchInstruction_done {s t : State} {n : Nat} {lo ii : Byte} {rest : List Byte}
    (h : fetchBytes (2 + n) s = .done (lo :: ii :: rest) t) (length : n = immLength ii) :
    fetchInstruction s = .done { lo := lo, ii := ii, imm := joinBytes rest } t := by
  obtain ⟨u, opcode, imm⟩ := fetchBytes_add_done h
  subst length
  unfold fetchInstruction
  rw [fetchOpcode_done opcode]
  exact Act.bind_done imm

/-- A fetch that is refused at an opcode byte. -/
theorem fetchInstruction_refused_opcode {s t u : State} {k : Nat} {bytes : List Byte} {e : Exc}
    (h : fetchBytes k s = .done bytes t) (refused : busRead t.pc t = .raised e u) (small : k < 2) :
    fetchInstruction s = .raised .invalidExecuteAccess u := by
  have byte : fetch8 t = .raised e u := by simp only [fetch8, refused]
  unfold fetchInstruction
  rw [fetchOpcodeByte_reports]
  obtain rfl | rfl : k = 0 ∨ k = 1 := by omega
  · cases h
    exact Act.bind_raised (Act.reporting_raised byte)
  · simp only [fetchBytes_succ, show fetchBytes 0 = Act.pure [] from rfl, Act.pure_bind] at h
    cases e' : fetch8 s with
    | raised x v => rw [Act.bind_raised e'] at h; cases h
    | done b v =>
      rw [Act.bind_done e'] at h
      cases h
      rw [Act.bind_done (Act.reporting_done e')]
      exact Act.bind_raised (Act.reporting_raised byte)

/-- An immediate that is refused at a byte after others that are answered. -/
theorem fetchImmediate_refused {j n : Nat} {s t u : State} {bytes : List Byte} {e : Exc}
    (h : fetchImmediate j s = .done bytes t) (refused : busRead t.pc t = .raised e u) (lt : j < n) :
    fetchImmediate n s = .raised e u := by
  induction j generalizing s n bytes with
  | zero =>
    cases h
    obtain ⟨n, rfl⟩ : ∃ m, n = m + 1 := ⟨n - 1, by omega⟩
    exact Act.bind_raised (by simp only [fetch8, refused])
  | succ j ih =>
    obtain ⟨n, rfl⟩ : ∃ m, n = m + 1 := ⟨n - 1, by omega⟩
    unfold fetchImmediate at h ⊢
    cases e' : fetch8 s with
    | raised x v => rw [Act.bind_raised e'] at h; cases h
    | done b v =>
      rw [Act.bind_done e'] at h ⊢
      cases e'' : fetchImmediate j v with
      | raised x w => rw [Act.bind_raised e''] at h; cases h
      | done rest w =>
        rw [Act.bind_done e''] at h
        cases h
        exact Act.bind_raised (ih e'' (by omega))

/-- A fetch that is refused at a byte of the immediate. -/
theorem fetchInstruction_refused_immediate {s t u : State} {k : Nat} {ii : Byte} {bytes : List Byte} {e : Exc}
    (h : fetchBytes k s = .done bytes t) (refused : busRead t.pc t = .raised e u) (identifier : bytes[1]? = some ii)
    (low : 2 ≤ k) (lt : k < 2 + immLength ii) : fetchInstruction s = .raised e u := by
  obtain ⟨j, rfl⟩ : ∃ j, k = 2 + j := ⟨k - 2, by omega⟩
  obtain ⟨v, opcode, imm⟩ := fetchBytes_add_done h
  obtain _ | ⟨lo, _ | ⟨second, rest⟩⟩ := bytes
  · cases identifier
  · cases identifier
  · cases identifier
    unfold fetchInstruction
    rw [fetchOpcode_done opcode]
    exact Act.bind_raised (fetchImmediate_refused imm refused (by omega))

end Sys2Proof.Machine
end

