-- ==== Sys2Proof/Laws/PerInstr.lean ====
section
/-! SUPPORT. One lemma per instruction: its encoding is two opcode bytes and an immediate of the length its identifier
calls for, with every field that carries no argument zero (spec/30_encoding.md R102, R103, R109). -/

namespace Sys2Proof.Laws.Encoding

/-- The shape of the encoding of an instruction. -/
def Statement (i : Instr) : Prop :=
  ∃ (lo ii : Byte) (imm : List Byte), encode i = lo :: ii :: imm ∧ imm.length = immLength ii ∧
    lo &&& ~~~fieldMask ii = 0

theorem fields_none : ((0 : Nibble) ++ (0 : Nibble) : Byte) &&& ~~~(0x00 : Byte) = 0 := by decide

theorem fields_x (x : Nibble) : (x ++ (0 : Nibble) : Byte) &&& ~~~(0xF0 : Byte) = 0 := by revert x; decide

theorem fields_y (y : Nibble) : ((0 : Nibble) ++ y : Byte) &&& ~~~(0x0F : Byte) = 0 := by revert y; decide

theorem fields_both (b : Byte) : b &&& ~~~(0xFF : Byte) = 0 := by revert b; decide

theorem nop : Statement .nop := ⟨_, _, _, rfl, rfl, fields_none⟩
theorem stop : Statement .stop := ⟨_, _, _, rfl, rfl, fields_none⟩
theorem halt : Statement .halt := ⟨_, _, _, rfl, rfl, fields_none⟩
theorem di : Statement .di := ⟨_, _, _, rfl, rfl, fields_none⟩
theorem ei : Statement .ei := ⟨_, _, _, rfl, rfl, fields_none⟩
theorem eii : Statement .eii := ⟨_, _, _, rfl, rfl, fields_none⟩
theorem daa : Statement .daa := ⟨_, _, _, rfl, rfl, fields_none⟩
theorem scf : Statement .scf := ⟨_, _, _, rfl, rfl, fields_none⟩
theorem ccf : Statement .ccf := ⟨_, _, _, rfl, rfl, fields_none⟩
theorem clv : Statement .clv := ⟨_, _, _, rfl, rfl, fields_none⟩
theorem sev : Statement .sev := ⟨_, _, _, rfl, rfl, fields_none⟩
theorem ldLImm (x : Reg) (imm : Byte) : Statement (.ldLImm x imm) := ⟨_, _, _, rfl, rfl, fields_x _⟩
theorem ldLAbs (x : Reg) (addr : Word) : Statement (.ldLAbs x addr) := ⟨_, _, _, rfl, rfl, fields_x _⟩
theorem ldLInd (x : Reg) (y : Reg) : Statement (.ldLInd x y) := ⟨_, _, _, rfl, rfl, fields_both _⟩
theorem ldqLAbs (x : Reg) (off : Half) : Statement (.ldqLAbs x off) := ⟨_, _, _, rfl, rfl, fields_x _⟩
theorem ldqLInd (x : Reg) (y : Reg) : Statement (.ldqLInd x y) := ⟨_, _, _, rfl, rfl, fields_both _⟩
theorem ldpLAbs (x : Reg) (off : Byte) : Statement (.ldpLAbs x off) := ⟨_, _, _, rfl, rfl, fields_x _⟩
theorem ldpLInd (x : Reg) (y : Reg) : Statement (.ldpLInd x y) := ⟨_, _, _, rfl, rfl, fields_both _⟩
theorem stAbsL (addr : Word) (y : Reg) : Statement (.stAbsL addr y) := ⟨_, _, _, rfl, rfl, fields_y _⟩
theorem stIndL (x : Reg) (y : Reg) : Statement (.stIndL x y) := ⟨_, _, _, rfl, rfl, fields_both _⟩
theorem stqAbsL (off : Half) (y : Reg) : Statement (.stqAbsL off y) := ⟨_, _, _, rfl, rfl, fields_y _⟩
theorem stqIndL (x : Reg) (y : Reg) : Statement (.stqIndL x y) := ⟨_, _, _, rfl, rfl, fields_both _⟩
theorem stpAbsL (off : Byte) (y : Reg) : Statement (.stpAbsL off y) := ⟨_, _, _, rfl, rfl, fields_y _⟩
theorem stpIndL (x : Reg) (y : Reg) : Statement (.stpIndL x y) := ⟨_, _, _, rfl, rfl, fields_both _⟩
theorem mvLL (x : Reg) (y : Reg) : Statement (.mvLL x y) := ⟨_, _, _, rfl, rfl, fields_both _⟩
theorem mvHL (x : Reg) (y : Reg) : Statement (.mvHL x y) := ⟨_, _, _, rfl, rfl, fields_both _⟩
theorem mvLH (x : Reg) (y : Reg) : Statement (.mvLH x y) := ⟨_, _, _, rfl, rfl, fields_both _⟩
theorem ldWImm (x : Reg) (imm : Half) : Statement (.ldWImm x imm) := ⟨_, _, _, rfl, rfl, fields_x _⟩
theorem ldWAbs (x : Reg) (addr : Word) : Statement (.ldWAbs x addr) := ⟨_, _, _, rfl, rfl, fields_x _⟩
theorem ldWInd (x : Reg) (y : Reg) : Statement (.ldWInd x y) := ⟨_, _, _, rfl, rfl, fields_both _⟩
theorem ldqWAbs (x : Reg) (off : Half) : Statement (.ldqWAbs x off) := ⟨_, _, _, rfl, rfl, fields_x _⟩
theorem ldqWInd (x : Reg) (y : Reg) : Statement (.ldqWInd x y) := ⟨_, _, _, rfl, rfl, fields_both _⟩
theorem stAbsW (addr : Word) (y : Reg) : Statement (.stAbsW addr y) := ⟨_, _, _, rfl, rfl, fields_y _⟩
theorem stIndW (x : Reg) (y : Reg) : Statement (.stIndW x y) := ⟨_, _, _, rfl, rfl, fields_both _⟩
theorem stqAbsW (off : Half) (y : Reg) : Statement (.stqAbsW off y) := ⟨_, _, _, rfl, rfl, fields_y _⟩
theorem stqIndW (x : Reg) (y : Reg) : Statement (.stqIndW x y) := ⟨_, _, _, rfl, rfl, fields_both _⟩
theorem mvWW (x : Reg) (y : Reg) : Statement (.mvWW x y) := ⟨_, _, _, rfl, rfl, fields_both _⟩
theorem mwh (x : Reg) (y : Reg) : Statement (.mwh x y) := ⟨_, _, _, rfl, rfl, fields_both _⟩
theorem mwl (x : Reg) (y : Reg) : Statement (.mwl x y) := ⟨_, _, _, rfl, rfl, fields_both _⟩
theorem ldDImm (x : Reg) (imm : Word) : Statement (.ldDImm x imm) := ⟨_, _, _, rfl, rfl, fields_x _⟩
theorem ldDAbs (x : Reg) (addr : Word) : Statement (.ldDAbs x addr) := ⟨_, _, _, rfl, rfl, fields_x _⟩
theorem ldDInd (x : Reg) (y : Reg) : Statement (.ldDInd x y) := ⟨_, _, _, rfl, rfl, fields_both _⟩
theorem ldqDAbs (x : Reg) (off : Half) : Statement (.ldqDAbs x off) := ⟨_, _, _, rfl, rfl, fields_x _⟩
theorem ldqDInd (x : Reg) (y : Reg) : Statement (.ldqDInd x y) := ⟨_, _, _, rfl, rfl, fields_both _⟩
theorem lsp (imm : Word) : Statement (.lsp imm) := ⟨_, _, _, rfl, rfl, fields_none⟩
theorem pop (x : Reg) : Statement (.pop x) := ⟨_, _, _, rfl, rfl, fields_x _⟩
theorem stAbsD (addr : Word) (y : Reg) : Statement (.stAbsD addr y) := ⟨_, _, _, rfl, rfl, fields_y _⟩
theorem stIndD (x : Reg) (y : Reg) : Statement (.stIndD x y) := ⟨_, _, _, rfl, rfl, fields_both _⟩
theorem stqAbsD (off : Half) (y : Reg) : Statement (.stqAbsD off y) := ⟨_, _, _, rfl, rfl, fields_y _⟩
theorem stqIndD (x : Reg) (y : Reg) : Statement (.stqIndD x y) := ⟨_, _, _, rfl, rfl, fields_both _⟩
theorem ssp (addr : Word) : Statement (.ssp addr) := ⟨_, _, _, rfl, rfl, fields_none⟩
theorem push (y : Reg) : Statement (.push y) := ⟨_, _, _, rfl, rfl, fields_y _⟩
theorem mvDD (x : Reg) (y : Reg) : Statement (.mvDD x y) := ⟨_, _, _, rfl, rfl, fields_both _⟩
theorem spo (x : Reg) : Statement (.spo x) := ⟨_, _, _, rfl, rfl, fields_x _⟩
theorem spi (y : Reg) : Statement (.spi y) := ⟨_, _, _, rfl, rfl, fields_y _⟩
theorem jmpImm (c : Nibble) (target : Word) : Statement (.jmpImm c target) := ⟨_, _, _, rfl, rfl, fields_x _⟩
theorem jmpReg (c : Nibble) (y : Reg) : Statement (.jmpReg c y) := ⟨_, _, _, rfl, rfl, fields_both _⟩
theorem jpb (c : Nibble) (off : Half) : Statement (.jpb c off) := ⟨_, _, _, rfl, rfl, fields_x _⟩
theorem call (c : Nibble) (target : Word) : Statement (.call c target) := ⟨_, _, _, rfl, rfl, fields_x _⟩
theorem int (n : Byte) : Statement (.int n) := ⟨_, _, _, rfl, rfl, fields_both _⟩
theorem ret (c : Nibble) : Statement (.ret c) := ⟨_, _, _, rfl, rfl, fields_x _⟩
theorem reti : Statement .reti := ⟨_, _, _, rfl, rfl, fields_none⟩
theorem addLImm (imm : Byte) : Statement (.addLImm imm) := ⟨_, _, _, rfl, rfl, fields_none⟩
theorem addLReg (y : Reg) : Statement (.addLReg y) := ⟨_, _, _, rfl, rfl, fields_y _⟩
theorem addLInd (y : Reg) : Statement (.addLInd y) := ⟨_, _, _, rfl, rfl, fields_y _⟩
theorem adcLImm (imm : Byte) : Statement (.adcLImm imm) := ⟨_, _, _, rfl, rfl, fields_none⟩
theorem adcLReg (y : Reg) : Statement (.adcLReg y) := ⟨_, _, _, rfl, rfl, fields_y _⟩
theorem adcLInd (y : Reg) : Statement (.adcLInd y) := ⟨_, _, _, rfl, rfl, fields_y _⟩
theorem subLImm (imm : Byte) : Statement (.subLImm imm) := ⟨_, _, _, rfl, rfl, fields_none⟩
theorem subLReg (y : Reg) : Statement (.subLReg y) := ⟨_, _, _, rfl, rfl, fields_y _⟩
theorem subLInd (y : Reg) : Statement (.subLInd y) := ⟨_, _, _, rfl, rfl, fields_y _⟩
theorem sbcLImm (imm : Byte) : Statement (.sbcLImm imm) := ⟨_, _, _, rfl, rfl, fields_none⟩
theorem sbcLReg (y : Reg) : Statement (.sbcLReg y) := ⟨_, _, _, rfl, rfl, fields_y _⟩
theorem sbcLInd (y : Reg) : Statement (.sbcLInd y) := ⟨_, _, _, rfl, rfl, fields_y _⟩
theorem incL (x : Reg) : Statement (.incL x) := ⟨_, _, _, rfl, rfl, fields_x _⟩
theorem incM (x : Reg) : Statement (.incM x) := ⟨_, _, _, rfl, rfl, fields_x _⟩
theorem decL (x : Reg) : Statement (.decL x) := ⟨_, _, _, rfl, rfl, fields_x _⟩
theorem decM (x : Reg) : Statement (.decM x) := ⟨_, _, _, rfl, rfl, fields_x _⟩
theorem addWImm (imm : Half) : Statement (.addWImm imm) := ⟨_, _, _, rfl, rfl, fields_none⟩
theorem addWReg (y : Reg) : Statement (.addWReg y) := ⟨_, _, _, rfl, rfl, fields_y _⟩
theorem addDImm (imm : Word) : Statement (.addDImm imm) := ⟨_, _, _, rfl, rfl, fields_none⟩
theorem addDReg (y : Reg) : Statement (.addDReg y) := ⟨_, _, _, rfl, rfl, fields_y _⟩
theorem subWImm (imm : Half) : Statement (.subWImm imm) := ⟨_, _, _, rfl, rfl, fields_none⟩
theorem subWReg (y : Reg) : Statement (.subWReg y) := ⟨_, _, _, rfl, rfl, fields_y _⟩
theorem subDImm (imm : Word) : Statement (.subDImm imm) := ⟨_, _, _, rfl, rfl, fields_none⟩
theorem subDReg (y : Reg) : Statement (.subDReg y) := ⟨_, _, _, rfl, rfl, fields_y _⟩
theorem incW (x : Reg) : Statement (.incW x) := ⟨_, _, _, rfl, rfl, fields_x _⟩
theorem incD (x : Reg) : Statement (.incD x) := ⟨_, _, _, rfl, rfl, fields_x _⟩
theorem decW (x : Reg) : Statement (.decW x) := ⟨_, _, _, rfl, rfl, fields_x _⟩
theorem decD (x : Reg) : Statement (.decD x) := ⟨_, _, _, rfl, rfl, fields_x _⟩
theorem andImm (imm : Byte) : Statement (.andImm imm) := ⟨_, _, _, rfl, rfl, fields_none⟩
theorem andReg (y : Reg) : Statement (.andReg y) := ⟨_, _, _, rfl, rfl, fields_y _⟩
theorem andInd (y : Reg) : Statement (.andInd y) := ⟨_, _, _, rfl, rfl, fields_y _⟩
theorem orImm (imm : Byte) : Statement (.orImm imm) := ⟨_, _, _, rfl, rfl, fields_none⟩
theorem orReg (y : Reg) : Statement (.orReg y) := ⟨_, _, _, rfl, rfl, fields_y _⟩
theorem orInd (y : Reg) : Statement (.orInd y) := ⟨_, _, _, rfl, rfl, fields_y _⟩
theorem xorImm (imm : Byte) : Statement (.xorImm imm) := ⟨_, _, _, rfl, rfl, fields_none⟩
theorem xorReg (y : Reg) : Statement (.xorReg y) := ⟨_, _, _, rfl, rfl, fields_y _⟩
theorem xorInd (y : Reg) : Statement (.xorInd y) := ⟨_, _, _, rfl, rfl, fields_y _⟩
theorem notL (x : Reg) : Statement (.notL x) := ⟨_, _, _, rfl, rfl, fields_x _⟩
theorem notM (x : Reg) : Statement (.notM x) := ⟨_, _, _, rfl, rfl, fields_x _⟩
theorem cmpImm (imm : Byte) : Statement (.cmpImm imm) := ⟨_, _, _, rfl, rfl, fields_none⟩
theorem cmpReg (y : Reg) : Statement (.cmpReg y) := ⟨_, _, _, rfl, rfl, fields_y _⟩
theorem cmpInd (y : Reg) : Statement (.cmpInd y) := ⟨_, _, _, rfl, rfl, fields_y _⟩
theorem slaL (x : Reg) : Statement (.slaL x) := ⟨_, _, _, rfl, rfl, fields_x _⟩
theorem slaM (x : Reg) : Statement (.slaM x) := ⟨_, _, _, rfl, rfl, fields_x _⟩
theorem sraL (x : Reg) : Statement (.sraL x) := ⟨_, _, _, rfl, rfl, fields_x _⟩
theorem sraM (x : Reg) : Statement (.sraM x) := ⟨_, _, _, rfl, rfl, fields_x _⟩
theorem srlL (x : Reg) : Statement (.srlL x) := ⟨_, _, _, rfl, rfl, fields_x _⟩
theorem srlM (x : Reg) : Statement (.srlM x) := ⟨_, _, _, rfl, rfl, fields_x _⟩
theorem swapL (x : Reg) : Statement (.swapL x) := ⟨_, _, _, rfl, rfl, fields_x _⟩
theorem swapM (x : Reg) : Statement (.swapM x) := ⟨_, _, _, rfl, rfl, fields_x _⟩
theorem swapW (x : Reg) : Statement (.swapW x) := ⟨_, _, _, rfl, rfl, fields_x _⟩
theorem swapD (x : Reg) : Statement (.swapD x) := ⟨_, _, _, rfl, rfl, fields_x _⟩
theorem rla : Statement .rla := ⟨_, _, _, rfl, rfl, fields_none⟩
theorem rlL (x : Reg) : Statement (.rlL x) := ⟨_, _, _, rfl, rfl, fields_x _⟩
theorem rlM (x : Reg) : Statement (.rlM x) := ⟨_, _, _, rfl, rfl, fields_x _⟩
theorem rlca : Statement .rlca := ⟨_, _, _, rfl, rfl, fields_none⟩
theorem rlcL (x : Reg) : Statement (.rlcL x) := ⟨_, _, _, rfl, rfl, fields_x _⟩
theorem rlcM (x : Reg) : Statement (.rlcM x) := ⟨_, _, _, rfl, rfl, fields_x _⟩
theorem rra : Statement .rra := ⟨_, _, _, rfl, rfl, fields_none⟩
theorem rrL (x : Reg) : Statement (.rrL x) := ⟨_, _, _, rfl, rfl, fields_x _⟩
theorem rrM (x : Reg) : Statement (.rrM x) := ⟨_, _, _, rfl, rfl, fields_x _⟩
theorem rrca : Statement .rrca := ⟨_, _, _, rfl, rfl, fields_none⟩
theorem rrcL (x : Reg) : Statement (.rrcL x) := ⟨_, _, _, rfl, rfl, fields_x _⟩
theorem rrcM (x : Reg) : Statement (.rrcM x) := ⟨_, _, _, rfl, rfl, fields_x _⟩
theorem bitL (x : Reg) (b : Nibble) : Statement (.bitL x b) := ⟨_, _, _, rfl, rfl, fields_both _⟩
theorem bitM (x : Reg) (b : Nibble) : Statement (.bitM x b) := ⟨_, _, _, rfl, rfl, fields_both _⟩
theorem setL (x : Reg) (b : Nibble) : Statement (.setL x b) := ⟨_, _, _, rfl, rfl, fields_both _⟩
theorem setM (x : Reg) (b : Nibble) : Statement (.setM x b) := ⟨_, _, _, rfl, rfl, fields_both _⟩
theorem resL (x : Reg) (b : Nibble) : Statement (.resL x b) := ⟨_, _, _, rfl, rfl, fields_both _⟩
theorem resM (x : Reg) (b : Nibble) : Statement (.resM x b) := ⟨_, _, _, rfl, rfl, fields_both _⟩
theorem togL (x : Reg) (b : Nibble) : Statement (.togL x b) := ⟨_, _, _, rfl, rfl, fields_both _⟩
theorem togM (x : Reg) (b : Nibble) : Statement (.togM x b) := ⟨_, _, _, rfl, rfl, fields_both _⟩

end Sys2Proof.Laws.Encoding
end

