-- ==== Sys2Proof/Laws/Preserve.lean ====
section
/-! SUPPORT. Relations between the state before and the state after that no elementary update breaks hold across every
shared operation, every instruction and the taking of an exception. An invariant of the step needs nothing else. -/

namespace Sys2Proof.Machine

/-- The relation holds between the state before an action and the state it ends in, completed or raised. -/
def Preserves {α : Type} (R : State → State → Prop) (a : Act α) : Prop :=
  ∀ s, match a s with
    | .done _ t => R s t
    | .raised _ t => R s t

/-- No elementary update of an instruction breaks the relation, but for those of the flags and the clearing of `EC` by
`RETI`, which the lemmas that need them ask for. -/
structure Closed (R : State → State → Prop) : Prop where
  refl : ∀ s, R s s
  trans : ∀ {s t u}, R s t → R t u → R s u
  fresh : ∀ (s : State) n, R s { s with fresh := n }
  store : ∀ (s : State) (a : Word) b, a.msb = true → R s (s.setMem (s.mem.write a.toNat b))
  sysReg : ∀ (s : State) a r k b, s.platform.writePolicy a = .sysReg r → R s (s.setSysRegByte r k b)
  sp : ∀ (s : State) v, R s (s.setSp v)
  pc : ∀ (s : State) v, R s (s.setPc v)
  register : ∀ (s : State) r v, R s (s.setD r v)
  stop : ∀ s : State, R s { s with stopf := true }
  halt : ∀ s : State, R s { s with haltf := true }
  ime : ∀ (s : State) b, R s { s with ime := b }
  imp : ∀ (s : State) b, R s { s with imp := b }

variable {R : State → State → Prop}

theorem Preserves.update {f : State → State} (h : ∀ s, R s (f s)) : Preserves R (update f) := h

namespace Closed

theorem pure (k : Closed R) {α : Type} (a : α) : Preserves R (Act.pure a) := k.refl

theorem raising (k : Closed R) {α : Type} (e : Exc) : Preserves R (raising e : Act α) := k.refl

theorem ite (k : Closed R) (b : Bool) {x y : Act Unit} (hx : Preserves R x) (hy : Preserves R y) :
    Preserves R (if b then x else y) := by
  have := k.refl
  cases b
  · exact hy
  · exact hx

theorem bind (k : Closed R) {α β : Type} {x : Act α} {f : α → Act β} (hx : Preserves R x) (hf : ∀ a, Preserves R (f a)) :
    Preserves R (Act.bind x f) := by
  intro s
  have first := hx s
  unfold Act.bind
  cases e : x s with
  | raised _ t =>
    rw [e] at first
    exact first
  | done a t =>
    rw [e] at first
    have second := hf a t
    dsimp only
    cases e' : f a t <;> (rw [e'] at second; exact k.trans first second)

theorem andThen (k : Closed R) {α β : Type} {x : Act α} {y : Act β} (hx : Preserves R x) (hy : Preserves R y) :
    Preserves R (Act.then x y) := k.bind hx fun _ => hy

/-! ### Memory -/

theorem busRead (k : Closed R) (a : Word) : Preserves R (busRead a) := by
  intro s
  rcases busRead_cases a s with ⟨b, n, e⟩ | ⟨n, e⟩ <;> (rw [e]; exact k.fresh s n)

theorem busWrite (k : Closed R) (a : Word) (b : Byte) : Preserves R (busWrite a b) := by
  intro s
  rcases busWrite_cases a b s with ⟨m, e⟩ | ⟨n, e⟩ | ⟨r, j, m, e⟩ | ⟨n, e⟩ <;> rw [e]
  · exact k.store s a b m
  · exact k.fresh s n
  · exact k.sysReg s a r j b m
  · exact k.fresh s n

theorem memRead8 (k : Closed R) (a : Word) : Preserves R (memRead8 a) := k.busRead a

theorem memRead16 (k : Closed R) (a : Word) : Preserves R (memRead16 a) :=
  k.bind (k.busRead _) fun _ => k.bind (k.busRead _) fun _ => k.pure _

theorem memRead32 (k : Closed R) (a : Word) : Preserves R (memRead32 a) :=
  k.bind (k.busRead _) fun _ => k.bind (k.busRead _) fun _ => k.bind (k.busRead _) fun _ =>
    k.bind (k.busRead _) fun _ => k.pure _

theorem memWrite8 (k : Closed R) (a : Word) (v : Byte) : Preserves R (memWrite8 a v) := k.busWrite a v

theorem memWrite16 (k : Closed R) (a : Word) (v : Half) : Preserves R (memWrite16 a v) :=
  k.andThen (k.busWrite _ _) (k.busWrite _ _)

theorem memWrite32 (k : Closed R) (a : Word) (v : Word) : Preserves R (memWrite32 a v) :=
  k.andThen (k.busWrite _ _) (k.andThen (k.busWrite _ _) (k.andThen (k.busWrite _ _) (k.busWrite _ _)))

/-! ### The stack -/

theorem pushByte (k : Closed R) (b : Byte) : Preserves R (pushByte b) := by
  intro s
  have write := k.busWrite (s.setSp (s.sp - 1)).sp b (s.setSp (s.sp - 1))
  unfold Machine.pushByte
  cases e : Machine.busWrite (s.setSp (s.sp - 1)).sp b (s.setSp (s.sp - 1)) <;>
    (rw [e] at write; simp only [e]; exact k.trans (k.sp s _) write)

theorem push32 (k : Closed R) (v : Word) : Preserves R (push32 v) :=
  k.andThen (k.pushByte _) (k.andThen (k.pushByte _) (k.andThen (k.pushByte _) (k.pushByte _)))

theorem popByte (k : Closed R) : Preserves R popByte := by
  intro s
  have read := k.busRead s.sp s
  unfold Machine.popByte
  cases e : Machine.busRead s.sp s <;> rw [e] at read
  · exact k.trans read (k.sp _ _)
  · exact read

theorem pop32 (k : Closed R) : Preserves R pop32 :=
  k.bind k.popByte fun _ => k.bind k.popByte fun _ => k.bind k.popByte fun _ => k.bind k.popByte fun _ => k.pure _

theorem service (k : Closed R) (i : Nat) : Preserves R (service i) := fun s =>
  k.andThen (k.push32 s.pc) (.update fun t => k.pc t _) s

theorem returnFromHandler (k : Closed R) (ret : ∀ s : State, R s { s with ec := 0x00 }) : Preserves R returnFromHandler :=
  k.bind k.pop32 fun v => .update fun s => by
    have h := k.trans (k.pc s v) (k.ime _ true)
    exact k.trans h (ret _)

/-! ### Fetching -/

theorem fetch8 (k : Closed R) : Preserves R fetch8 := by
  intro s
  have read := k.busRead s.pc s
  unfold Machine.fetch8
  cases e : Machine.busRead s.pc s <;> rw [e] at read
  · exact k.trans read (k.pc _ _)
  · exact read

theorem fetchOpcodeByte (k : Closed R) : Preserves R fetchOpcodeByte := by
  intro s
  have read := k.fetch8 s
  unfold Machine.fetchOpcodeByte
  cases e : Machine.fetch8 s <;> (rw [e] at read; exact read)

theorem fetchImmediate (k : Closed R) (n : Nat) : Preserves R (fetchImmediate n) := by
  induction n with
  | zero => exact k.pure _
  | succ n ih => exact k.bind k.fetch8 fun _ => k.bind ih fun _ => k.pure _

theorem fetchInstruction (k : Closed R) : Preserves R fetchInstruction :=
  k.bind k.fetchOpcodeByte fun _ => k.bind k.fetchOpcodeByte fun _ => k.bind (k.fetchImmediate _) fun _ => k.pure _

/-! ### Operand forms -/

theorem ifCond (k : Closed R) (c : Nibble) {a : Act Unit} (h : Preserves R a) : Preserves R (ifCond c a) := by
  intro s
  unfold Machine.ifCond
  cases Cond.ofField c with
  | none => exact k.refl s
  | some j =>
    dsimp only
    cases j.holds s.flags
    · exact k.refl s
    · exact h s

theorem checkBit (k : Closed R) (b : Nibble) {a : Act Unit} (h : Preserves R a) : Preserves R (checkBit b a) :=
  k.ite _ h (k.raising _)

theorem withByte (k : Closed R) (a : Word) {f : Byte → State → State} (h : ∀ b s, R s (f b s)) : Preserves R (withByte a f) :=
  k.bind (k.memRead8 a) fun b => .update (h b)

theorem loadL (k : Closed R) (x : Reg) (a : Word) : Preserves R (loadL x a) :=
  k.bind (k.memRead8 a) fun _ => .update fun s => k.register s _ _

theorem loadW (k : Closed R) (x : Reg) (a : Word) : Preserves R (loadW x a) :=
  k.bind (k.memRead16 a) fun _ => .update fun s => k.register s _ _

theorem loadD (k : Closed R) (x : Reg) (a : Word) : Preserves R (loadD x a) :=
  k.bind (k.memRead32 a) fun _ => .update fun s => k.register s _ _

theorem storeL (k : Closed R) (a : Word) (y : Reg) : Preserves R (storeL a y) := fun s => k.memWrite8 a _ s

theorem storeW (k : Closed R) (a : Word) (y : Reg) : Preserves R (storeW a y) := fun s => k.memWrite16 a _ s

theorem storeD (k : Closed R) (a : Word) (y : Reg) : Preserves R (storeD a y) := fun s => k.memWrite32 a _ s

section Flags

variable (fl : ∀ (s : State) (f : Flags), R s (s.setFlags f))
include fl

theorem modifyM (k : Closed R) (op : Unary 8) (a : Word) : Preserves R (modifyM op a) := fun s =>
  k.bind (k.memRead8 a) (fun _ => k.andThen (k.memWrite8 a _) (.update fun t => fl t _)) s

theorem accumulateL (k : Closed R) (op : Binary 8) (b : Byte) (s : State) : R s (accumulateL op b s) :=
  k.trans (k.register s _ _) (fl _ _)

theorem accumulateW (k : Closed R) (op : Binary 16) (b : Half) (s : State) : R s (accumulateW op b s) :=
  k.trans (k.register s _ _) (fl _ _)

theorem accumulateD (k : Closed R) (op : Binary 32) (b : Word) (s : State) : R s (accumulateD op b s) :=
  k.trans (k.register s _ _) (fl _ _)

theorem modifyL (k : Closed R) (op : Unary 8) (x : Reg) (s : State) : R s (modifyL op x s) :=
  k.trans (k.register s _ _) (fl _ _)

theorem modifyW (k : Closed R) (op : Unary 16) (x : Reg) (s : State) : R s (modifyW op x s) :=
  k.trans (k.register s _ _) (fl _ _)

theorem modifyD (k : Closed R) (op : Unary 32) (x : Reg) (s : State) : R s (modifyD op x s) :=
  k.trans (k.register s _ _) (fl _ _)

/-- Every instruction is one completed body, and the body keeps the relation. -/
theorem exec_body (k : Closed R) (i : Instr) (ret : i = .reti → ∀ s : State, R s { s with ec := 0x00 }) (s : State) :
    ∃ body, exec i s = complete body s ∧ Preserves R body := by
  cases i with
  | nop => unfold exec execNop; exact ⟨_, rfl, .update fun s => k.refl s⟩
  | stop => unfold exec execStop; exact ⟨_, rfl, .update fun s => k.stop s⟩
  | halt => unfold exec execHalt; exact ⟨_, rfl, .update fun s => k.halt s⟩
  | di => unfold exec execDi; exact ⟨_, rfl, .update fun s => k.ime s _⟩
  | ei => unfold exec execEi; exact ⟨_, rfl, .update fun s => k.imp s _⟩
  | eii => unfold exec execEii; exact ⟨_, rfl, .update fun s => k.ime s _⟩
  | daa => unfold exec execDaa; exact ⟨_, rfl, .update fun s => k.modifyL fl _ _ s⟩
  | scf => unfold exec execScf; exact ⟨_, rfl, .update fun s => fl s _⟩
  | ccf => unfold exec execCcf; exact ⟨_, rfl, .update fun s => fl s _⟩
  | clv => unfold exec execClv; exact ⟨_, rfl, .update fun s => fl s _⟩
  | sev => unfold exec execSev; exact ⟨_, rfl, .update fun s => fl s _⟩
  | ldLImm => unfold exec execLdLImm; exact ⟨_, rfl, .update fun s => k.register s _ _⟩
  | ldLAbs => unfold exec execLdLAbs; exact ⟨_, rfl, k.loadL _ _⟩
  | ldLInd => unfold exec execLdLInd; exact ⟨_, rfl, k.loadL _ _⟩
  | ldqLAbs => unfold exec execLdqLAbs; exact ⟨_, rfl, k.loadL _ _⟩
  | ldqLInd => unfold exec execLdqLInd; exact ⟨_, rfl, k.loadL _ _⟩
  | ldpLAbs => unfold exec execLdpLAbs; exact ⟨_, rfl, k.loadL _ _⟩
  | ldpLInd => unfold exec execLdpLInd; exact ⟨_, rfl, k.loadL _ _⟩
  | stAbsL => unfold exec execStAbsL; exact ⟨_, rfl, k.storeL _ _⟩
  | stIndL => unfold exec execStIndL; exact ⟨_, rfl, k.storeL _ _⟩
  | stqAbsL => unfold exec execStqAbsL; exact ⟨_, rfl, k.storeL _ _⟩
  | stqIndL => unfold exec execStqIndL; exact ⟨_, rfl, k.storeL _ _⟩
  | stpAbsL => unfold exec execStpAbsL; exact ⟨_, rfl, k.storeL _ _⟩
  | stpIndL => unfold exec execStpIndL; exact ⟨_, rfl, k.storeL _ _⟩
  | mvLL => unfold exec execMvLL; exact ⟨_, rfl, .update fun s => k.register s _ _⟩
  | mvHL => unfold exec execMvHL; exact ⟨_, rfl, .update fun s => k.register s _ _⟩
  | mvLH => unfold exec execMvLH; exact ⟨_, rfl, .update fun s => k.register s _ _⟩
  | ldWImm => unfold exec execLdWImm; exact ⟨_, rfl, .update fun s => k.register s _ _⟩
  | ldWAbs => unfold exec execLdWAbs; exact ⟨_, rfl, k.loadW _ _⟩
  | ldWInd => unfold exec execLdWInd; exact ⟨_, rfl, k.loadW _ _⟩
  | ldqWAbs => unfold exec execLdqWAbs; exact ⟨_, rfl, k.loadW _ _⟩
  | ldqWInd => unfold exec execLdqWInd; exact ⟨_, rfl, k.loadW _ _⟩
  | stAbsW => unfold exec execStAbsW; exact ⟨_, rfl, k.storeW _ _⟩
  | stIndW => unfold exec execStIndW; exact ⟨_, rfl, k.storeW _ _⟩
  | stqAbsW => unfold exec execStqAbsW; exact ⟨_, rfl, k.storeW _ _⟩
  | stqIndW => unfold exec execStqIndW; exact ⟨_, rfl, k.storeW _ _⟩
  | mvWW => unfold exec execMvWW; exact ⟨_, rfl, .update fun s => k.register s _ _⟩
  | mwh => unfold exec execMwh; exact ⟨_, rfl, .update fun s => k.register s _ _⟩
  | mwl => unfold exec execMwl; exact ⟨_, rfl, .update fun s => k.register s _ _⟩
  | ldDImm => unfold exec execLdDImm; exact ⟨_, rfl, .update fun s => k.register s _ _⟩
  | ldDAbs => unfold exec execLdDAbs; exact ⟨_, rfl, k.loadD _ _⟩
  | ldDInd => unfold exec execLdDInd; exact ⟨_, rfl, k.loadD _ _⟩
  | ldqDAbs => unfold exec execLdqDAbs; exact ⟨_, rfl, k.loadD _ _⟩
  | ldqDInd => unfold exec execLdqDInd; exact ⟨_, rfl, k.loadD _ _⟩
  | lsp => unfold exec execLsp; exact ⟨_, rfl, .update fun s => k.sp s _⟩
  | pop => unfold exec execPop; exact ⟨_, rfl, k.bind k.pop32 fun _ => .update fun s => k.register s _ _⟩
  | stAbsD => unfold exec execStAbsD; exact ⟨_, rfl, k.storeD _ _⟩
  | stIndD => unfold exec execStIndD; exact ⟨_, rfl, k.storeD _ _⟩
  | stqAbsD => unfold exec execStqAbsD; exact ⟨_, rfl, k.storeD _ _⟩
  | stqIndD => unfold exec execStqIndD; exact ⟨_, rfl, k.storeD _ _⟩
  | ssp => unfold exec execSsp; exact ⟨_, rfl, k.memWrite32 _ _⟩
  | push => unfold exec execPush; exact ⟨_, rfl, k.push32 _⟩
  | mvDD => unfold exec execMvDD; exact ⟨_, rfl, .update fun s => k.register s _ _⟩
  | spo => unfold exec execSpo; exact ⟨_, rfl, .update fun s => k.register s _ _⟩
  | spi => unfold exec execSpi; exact ⟨_, rfl, .update fun s => k.sp s _⟩
  | jmpImm => unfold exec execJmpImm; exact ⟨_, rfl, k.ifCond _ (.update fun s => k.pc s _)⟩
  | jmpReg => unfold exec execJmpReg; exact ⟨_, rfl, k.ifCond _ (.update fun s => k.pc s _)⟩
  | jpb => unfold exec execJpb; exact ⟨_, rfl, k.ifCond _ (.update fun s => k.pc s _)⟩
  | call => unfold exec execCall; exact ⟨_, rfl, k.ifCond _ (k.andThen (k.push32 _) (.update fun s => k.pc s _))⟩
  | int => unfold exec execInt; exact ⟨_, rfl, k.ite _ (k.andThen (k.push32 _) (.update fun s => k.pc s _)) (k.raising _)⟩
  | ret => unfold exec execRet; exact ⟨_, rfl, k.ifCond _ (k.bind k.pop32 fun _ => .update fun s => k.pc s _)⟩
  | reti => unfold exec execReti; exact ⟨_, rfl, k.returnFromHandler (ret rfl)⟩
  | addLImm => unfold exec execAddLImm; exact ⟨_, rfl, .update fun s => k.accumulateL fl _ _ s⟩
  | addLReg => unfold exec execAddLReg; exact ⟨_, rfl, .update fun s => k.accumulateL fl _ _ s⟩
  | addLInd => unfold exec execAddLInd; exact ⟨_, rfl, k.withByte _ fun _ s => k.accumulateL fl _ _ s⟩
  | adcLImm => unfold exec execAdcLImm; exact ⟨_, rfl, .update fun s => k.accumulateL fl _ _ s⟩
  | adcLReg => unfold exec execAdcLReg; exact ⟨_, rfl, .update fun s => k.accumulateL fl _ _ s⟩
  | adcLInd => unfold exec execAdcLInd; exact ⟨_, rfl, k.withByte _ fun _ s => k.accumulateL fl _ _ s⟩
  | subLImm => unfold exec execSubLImm; exact ⟨_, rfl, .update fun s => k.accumulateL fl _ _ s⟩
  | subLReg => unfold exec execSubLReg; exact ⟨_, rfl, .update fun s => k.accumulateL fl _ _ s⟩
  | subLInd => unfold exec execSubLInd; exact ⟨_, rfl, k.withByte _ fun _ s => k.accumulateL fl _ _ s⟩
  | sbcLImm => unfold exec execSbcLImm; exact ⟨_, rfl, .update fun s => k.accumulateL fl _ _ s⟩
  | sbcLReg => unfold exec execSbcLReg; exact ⟨_, rfl, .update fun s => k.accumulateL fl _ _ s⟩
  | sbcLInd => unfold exec execSbcLInd; exact ⟨_, rfl, k.withByte _ fun _ s => k.accumulateL fl _ _ s⟩
  | incL => unfold exec execIncL; exact ⟨_, rfl, .update fun s => k.modifyL fl _ _ s⟩
  | incM => unfold exec execIncM; exact ⟨_, rfl, k.modifyM fl _ _⟩
  | decL => unfold exec execDecL; exact ⟨_, rfl, .update fun s => k.modifyL fl _ _ s⟩
  | decM => unfold exec execDecM; exact ⟨_, rfl, k.modifyM fl _ _⟩
  | addWImm => unfold exec execAddWImm; exact ⟨_, rfl, .update fun s => k.accumulateW fl _ _ s⟩
  | addWReg => unfold exec execAddWReg; exact ⟨_, rfl, .update fun s => k.accumulateW fl _ _ s⟩
  | addDImm => unfold exec execAddDImm; exact ⟨_, rfl, .update fun s => k.accumulateD fl _ _ s⟩
  | addDReg => unfold exec execAddDReg; exact ⟨_, rfl, .update fun s => k.accumulateD fl _ _ s⟩
  | subWImm => unfold exec execSubWImm; exact ⟨_, rfl, .update fun s => k.accumulateW fl _ _ s⟩
  | subWReg => unfold exec execSubWReg; exact ⟨_, rfl, .update fun s => k.accumulateW fl _ _ s⟩
  | subDImm => unfold exec execSubDImm; exact ⟨_, rfl, .update fun s => k.accumulateD fl _ _ s⟩
  | subDReg => unfold exec execSubDReg; exact ⟨_, rfl, .update fun s => k.accumulateD fl _ _ s⟩
  | incW => unfold exec execIncW; exact ⟨_, rfl, .update fun s => k.modifyW fl _ _ s⟩
  | incD => unfold exec execIncD; exact ⟨_, rfl, .update fun s => k.modifyD fl _ _ s⟩
  | decW => unfold exec execDecW; exact ⟨_, rfl, .update fun s => k.modifyW fl _ _ s⟩
  | decD => unfold exec execDecD; exact ⟨_, rfl, .update fun s => k.modifyD fl _ _ s⟩
  | andImm => unfold exec execAndImm; exact ⟨_, rfl, .update fun s => k.accumulateL fl _ _ s⟩
  | andReg => unfold exec execAndReg; exact ⟨_, rfl, .update fun s => k.accumulateL fl _ _ s⟩
  | andInd => unfold exec execAndInd; exact ⟨_, rfl, k.withByte _ fun _ s => k.accumulateL fl _ _ s⟩
  | orImm => unfold exec execOrImm; exact ⟨_, rfl, .update fun s => k.accumulateL fl _ _ s⟩
  | orReg => unfold exec execOrReg; exact ⟨_, rfl, .update fun s => k.accumulateL fl _ _ s⟩
  | orInd => unfold exec execOrInd; exact ⟨_, rfl, k.withByte _ fun _ s => k.accumulateL fl _ _ s⟩
  | xorImm => unfold exec execXorImm; exact ⟨_, rfl, .update fun s => k.accumulateL fl _ _ s⟩
  | xorReg => unfold exec execXorReg; exact ⟨_, rfl, .update fun s => k.accumulateL fl _ _ s⟩
  | xorInd => unfold exec execXorInd; exact ⟨_, rfl, k.withByte _ fun _ s => k.accumulateL fl _ _ s⟩
  | notL => unfold exec execNotL; exact ⟨_, rfl, .update fun s => k.modifyL fl _ _ s⟩
  | notM => unfold exec execNotM; exact ⟨_, rfl, k.modifyM fl _ _⟩
  | cmpImm => unfold exec execCmpImm; exact ⟨_, rfl, .update fun s => fl s _⟩
  | cmpReg => unfold exec execCmpReg; exact ⟨_, rfl, .update fun s => fl s _⟩
  | cmpInd => unfold exec execCmpInd; exact ⟨_, rfl, k.withByte _ fun _ s => fl s _⟩
  | slaL => unfold exec execSlaL; exact ⟨_, rfl, .update fun s => k.modifyL fl _ _ s⟩
  | slaM => unfold exec execSlaM; exact ⟨_, rfl, k.modifyM fl _ _⟩
  | sraL => unfold exec execSraL; exact ⟨_, rfl, .update fun s => k.modifyL fl _ _ s⟩
  | sraM => unfold exec execSraM; exact ⟨_, rfl, k.modifyM fl _ _⟩
  | srlL => unfold exec execSrlL; exact ⟨_, rfl, .update fun s => k.modifyL fl _ _ s⟩
  | srlM => unfold exec execSrlM; exact ⟨_, rfl, k.modifyM fl _ _⟩
  | swapL => unfold exec execSwapL; exact ⟨_, rfl, .update fun s => k.modifyL fl _ _ s⟩
  | swapM => unfold exec execSwapM; exact ⟨_, rfl, k.modifyM fl _ _⟩
  | swapW => unfold exec execSwapW; exact ⟨_, rfl, .update fun s => k.modifyW fl _ _ s⟩
  | swapD => unfold exec execSwapD; exact ⟨_, rfl, .update fun s => k.modifyD fl _ _ s⟩
  | rla => unfold exec execRla; exact ⟨_, rfl, .update fun s => k.modifyL fl _ _ s⟩
  | rlL => unfold exec execRlL; exact ⟨_, rfl, .update fun s => k.modifyL fl _ _ s⟩
  | rlM => unfold exec execRlM; exact ⟨_, rfl, k.modifyM fl _ _⟩
  | rlca => unfold exec execRlca; exact ⟨_, rfl, .update fun s => k.modifyL fl _ _ s⟩
  | rlcL => unfold exec execRlcL; exact ⟨_, rfl, .update fun s => k.modifyL fl _ _ s⟩
  | rlcM => unfold exec execRlcM; exact ⟨_, rfl, k.modifyM fl _ _⟩
  | rra => unfold exec execRra; exact ⟨_, rfl, .update fun s => k.modifyL fl _ _ s⟩
  | rrL => unfold exec execRrL; exact ⟨_, rfl, .update fun s => k.modifyL fl _ _ s⟩
  | rrM => unfold exec execRrM; exact ⟨_, rfl, k.modifyM fl _ _⟩
  | rrca => unfold exec execRrca; exact ⟨_, rfl, .update fun s => k.modifyL fl _ _ s⟩
  | rrcL => unfold exec execRrcL; exact ⟨_, rfl, .update fun s => k.modifyL fl _ _ s⟩
  | rrcM => unfold exec execRrcM; exact ⟨_, rfl, k.modifyM fl _ _⟩
  | bitL => unfold exec execBitL; exact ⟨_, rfl, k.checkBit _ (.update fun s => fl s _)⟩
  | bitM => unfold exec execBitM; exact ⟨_, rfl, k.checkBit _ (k.withByte _ fun _ s => fl s _)⟩
  | setL => unfold exec execSetL; exact ⟨_, rfl, k.checkBit _ (.update fun s => k.modifyL fl _ _ s)⟩
  | setM => unfold exec execSetM; exact ⟨_, rfl, k.checkBit _ (k.modifyM fl _ _)⟩
  | resL => unfold exec execResL; exact ⟨_, rfl, k.checkBit _ (.update fun s => k.modifyL fl _ _ s)⟩
  | resM => unfold exec execResM; exact ⟨_, rfl, k.checkBit _ (k.modifyM fl _ _)⟩
  | togL => unfold exec execTogL; exact ⟨_, rfl, k.checkBit _ (.update fun s => k.modifyL fl _ _ s)⟩
  | togM => unfold exec execTogM; exact ⟨_, rfl, k.checkBit _ (k.modifyM fl _ _)⟩

end Flags

/-- Taking an exception keeps a relation that no elementary update breaks, nor acknowledging vector 0 with a code in `EC`,
nor a double fault. -/
theorem raise (k : Closed R) (e : Exc) (ack : ∀ s : State, e ≠ .doubleFault → R s (acknowledge 0 { s with ec := e.code }))
    (df : ∀ s : State, R s (enterDoubleFault s)) (s : State) : R s (raise e s) := by
  have taken : e ≠ .doubleFault → R s (takeException e s) := by
    intro ne
    have served := k.service 0 (acknowledge 0 { s with ec := e.code })
    unfold takeException
    cases h : Machine.service 0 (acknowledge 0 { s with ec := e.code }) <;> rw [h] at served
    · exact k.trans (ack s ne) served
    · exact k.trans (ack s ne) (k.trans served (df _))
  cases e
  case ok => exact k.refl s
  case doubleFault => exact df s
  all_goals
    unfold Machine.raise
    dsimp only
    split
    · exact taken (by decide)
    · exact df s

end Closed

end Sys2Proof.Machine
end

