-- ==== Sys2Proof/Laws/Registers.lean ====
section
/-! SUPPORT. The register views bit by bit, and what a write of a view leaves alone (spec/10_state.md R21 to R23). -/

namespace Sys2Proof.Machine

theorem State.getLsbD_getW (s : State) (r : Reg) (k : Nat) :
    (s.getW r).getLsbD k = (decide (k < 16) && (s.getD r).getLsbD k) := by
  simp [State.getW]

theorem State.getLsbD_getL (s : State) (r : Reg) (k : Nat) :
    (s.getL r).getLsbD k = (decide (k < 8) && (s.getD r).getLsbD k) := by
  simp [State.getL]

theorem State.getLsbD_getH (s : State) (r : Reg) (k : Nat) :
    (s.getH r).getLsbD k = (decide (k < 8) && (s.getD r).getLsbD (8 + k)) := by
  simp [State.getH]

/-- Equal registers and the whole of register `x` replaced. -/
theorem registerBits_setD {s t : State} {x : Reg} {v : Word} (h : t.d = (s.setD x v).d) : RegisterBits s t x 0 32 v := by
  intro r k
  rw [State.getD_congr h, State.getD_setD]
  by_cases e : r = x
  · subst e
    by_cases l : k < 32
    · simp [l]
    · simp [l, BitVec.getLsbD_of_ge _ _ (Nat.le_of_not_lt l)]
  · simp [e]

/-- Writing `W[x]` writes bits 15 to 0 of register `x`. -/
theorem registerBits_setW {s t : State} {x : Reg} {v : Half} (h : t.d = (s.setW x v).d) : RegisterBits s t x 0 16 v := by
  intro r k
  rw [State.getD_congr h, State.setW, State.getD_setD]
  by_cases e : r = x
  · subst e
    simp only [if_true, getLsbD_append_16_16, BitVec.getLsbD_extractLsb', true_and, Nat.zero_le, Nat.zero_add, Nat.sub_zero]
    split
    · rfl
    · rw [show 16 + (k - 16) = k by omega]
      by_cases m : k < 32
      · simp [show k - 16 < 16 by omega]
      · simp [BitVec.getLsbD_of_ge (s.getD r) k (by omega)]
  · simp [e]

/-- Writing `L[x]` writes bits 7 to 0 of register `x`. -/
theorem registerBits_setL {s t : State} {x : Reg} {v : Byte} (h : t.d = (s.setL x v).d) : RegisterBits s t x 0 8 v := by
  intro r k
  rw [State.getD_congr h, State.setL, State.getD_setD]
  by_cases e : r = x
  · subst e
    simp only [if_true, getLsbD_append_24_8, BitVec.getLsbD_extractLsb', true_and, Nat.zero_le, Nat.zero_add, Nat.sub_zero]
    split
    · rfl
    · rw [show 8 + (k - 8) = k by omega]
      by_cases m : k < 32
      · simp [show k - 8 < 24 by omega]
      · simp [BitVec.getLsbD_of_ge (s.getD r) k (by omega)]
  · simp [e]

/-- Writing `H[x]` writes bits 15 to 8 of register `x`. -/
theorem registerBits_setH {s t : State} {x : Reg} {v : Byte} (h : t.d = (s.setH x v).d) : RegisterBits s t x 8 8 v := by
  intro r k
  rw [State.getD_congr h, State.setH, State.getD_setD]
  by_cases e : r = x
  · subst e
    simp only [if_true, getLsbD_append_16_8_8, BitVec.getLsbD_extractLsb', true_and]
    by_cases l : k < 8
    · simp [l, show ¬ 8 ≤ k by omega]
    · by_cases m : k < 16
      · simp only [l, if_false, show k - 8 < 8 by omega, if_true, show 8 ≤ k by omega, show k < 8 + 8 by omega, and_self]
      · simp only [l, if_false, show ¬ k - 8 < 8 by omega, show ¬ (8 ≤ k ∧ k < 8 + 8) by omega,
          show 16 + (k - 8 - 8) = k by omega]
        by_cases n : k < 32
        · simp [show k - 8 - 8 < 16 by omega]
        · simp [BitVec.getLsbD_of_ge (s.getD r) k (by omega)]
  · simp [e]

/-- Only the low bits of the value count. -/
theorem RegisterBits.congr {w w' : Nat} {s t : State} {x : Reg} {low width : Nat} {v : BitVec w} {v' : BitVec w'}
    (h : RegisterBits s t x low width v) (e : ∀ k, k < width → v'.getLsbD k = v.getLsbD k) :
    RegisterBits s t x low width v' := by
  intro r k
  rw [h r k]
  split
  · exact (e _ (by omega)).symm
  · rfl

end Sys2Proof.Machine
end

