-- ==== Sys2Proof/Machine/Timing.lean ====
section
/-! DEFINITION. The printed timing figures (spec/70_reset_and_hazards.md R605 to R609, and the Timing line of every
instruction rule). Timing only: the step does not count cycles, and no register, flag or memory value depends on one
(R605; log 33). -/

namespace Sys2Proof.Machine

/-- T-cycles in an M-cycle (R606). -/
def tCyclesPerMCycle : Nat := 4

/-- The M-cycles an instruction takes, as the source prints them; `taken` says whether a condition was met (R607). The
figure of `SSP` is the printed 7, which does not fit the accounting of R606 (C7). -/
def mCycles (i : Instr) (taken : Bool) : Nat :=
  match i with
  | .nop | .stop | .halt | .di | .ei | .eii | .daa | .scf | .ccf | .clv | .sev | .mvLL .. | .mvHL .. | .mvLH ..
  | .mvWW .. | .mwh .. | .mwl .. | .mvDD .. | .spo .. | .addLReg .. | .adcLReg .. | .subLReg .. | .sbcLReg ..
  | .incL .. | .decL .. | .andReg .. | .orReg .. | .xorReg .. | .notL .. | .cmpReg .. | .slaL .. | .sraL ..
  | .srlL .. | .swapL .. | .swapW .. | .swapD .. | .rla | .rlL .. | .rlca | .rlcL .. | .rra | .rrL .. | .rrca
  | .rrcL .. | .bitL .. | .setL .. | .resL .. | .togL .. => 2
  | .ldLImm .. | .ldLInd .. | .ldqLInd .. | .ldpLInd .. | .stIndL .. | .stqIndL .. | .stpIndL .. | .spi ..
  | .addLImm .. | .addLInd .. | .adcLImm .. | .adcLInd .. | .subLImm .. | .subLInd .. | .sbcLImm ..
  | .sbcLInd .. | .addWReg .. | .subWReg .. | .incW .. | .decW .. | .andImm .. | .andInd .. | .orImm ..
  | .orInd .. | .xorImm .. | .xorInd .. | .cmpImm .. | .cmpInd .. | .bitM .. => 3
  | .ldpLAbs .. | .stpAbsL .. | .ldWImm .. | .ldWInd .. | .ldqWInd .. | .stIndW .. | .stqIndW .. | .incM ..
  | .decM .. | .notM .. | .slaM .. | .sraM .. | .srlM .. | .swapM .. | .rlM .. | .rlcM .. | .rrM .. | .rrcM ..
  | .setM .. | .resM .. | .togM .. => 4
  | .ldqLAbs .. | .stqAbsL .. | .addWImm .. | .addDReg .. | .subWImm .. | .subDReg .. | .incD .. | .decD .. => 5
  | .ldqWAbs .. | .stqAbsW .. | .ldDImm .. | .ldDInd .. | .ldqDInd .. | .stIndD .. | .stqIndD .. => 6
  | .ldLAbs .. | .stAbsL .. | .lsp .. | .pop .. | .ssp .. | .push .. => 7
  | .ldWAbs .. | .stAbsW .. | .ldqDAbs .. | .stqAbsD .. | .int .. | .reti => 8
  | .addDImm .. | .subDImm .. => 9
  | .ldDAbs .. | .stAbsD .. => 10
  | .jmpImm .. => if taken then 7 else 6
  | .jmpReg .. => if taken then 3 else 2
  | .jpb .. => if taken then 5 else 4
  | .call .. => if taken then 12 else 6
  | .ret c => if c = 0 then 8 else if taken then 9 else 3

/-- The printed cost of servicing an interrupt (R609; C6 gives 8 by the accounting of R606). -/
def serviceCycles : Nat := 5

/-- The cost of an idle frame in the `HALT` state (R609, D35). -/
def idleHaltCycles : Nat := 1

end Sys2Proof.Machine
end

