-- ==== Sys2Proof/Tests/Slice0.lean ====
section
/-! SUPPORT. Tests. The expected values are those of the spec: the bytes and results of the examples in spec/40 to 49 and
of the vectors of spec/95_test_vectors.md, whose number stands above each test. Last, for every statement with
hypotheses, states and operands that meet them. -/

namespace Sys2Proof.Tests

open Sys2Proof.Machine

/-- Some bytes written from an address up. -/
def poke (s : State) (a : Word) (bytes : List Byte) : State :=
  match bytes with
  | [] => s
  | b :: rest => poke { s with mem := s.mem.write a.toNat b } (a + 1) rest

/-- The bytes from an address up. -/
def bytesAt (s : State) (a : Word) (n : Nat) : List Byte := (List.range n).map fun k => s.mem.read (a + BitVec.ofNat 32 k).toNat

/-- The state the vectors start from: reset, with the stack at `0x80010000`. -/
def start : State := { State.reset with sp := 0x80010000 }

/-- The step runs the bytes placed at `PC` and ends in a next state that passes the check. -/
def runs (s : State) (bytes : List Byte) (check : State → Bool) : Bool :=
  match step (poke s s.pc bytes) with
  | .next t => check t
  | _ => false

/-- Each list of bytes decodes to the instruction beside it. -/
abbrev Decodes (rows : List (List Byte × Instr)) : Prop :=
  ∀ row ∈ rows, (decode false row.1).toOption = some (row.2, [])

/-! ### WellFormed refuses what it should -/

theorem test_wellFormed_refuses_conditions :
    (Instr.jmpImm 7 0).wellFormed = false ∧ (Instr.jmpReg 7 0).wellFormed = false ∧ (Instr.jpb 8 0).wellFormed = false ∧
      (Instr.call 15 0).wellFormed = false ∧ (Instr.ret 7).wellFormed = false := by decide

theorem test_wellFormed_refuses_vectors : (Instr.int 0x20).wellFormed = false := by decide

theorem test_wellFormed_refuses_bits :
    (Instr.bitL 0 8).wellFormed = false ∧ (Instr.bitM 0 8).wellFormed = false ∧ (Instr.setL 0 9).wellFormed = false ∧
      (Instr.setM 0 15).wellFormed = false ∧ (Instr.resL 0 8).wellFormed = false ∧ (Instr.resM 0 8).wellFormed = false ∧
      (Instr.togL 0 8).wellFormed = false ∧ (Instr.togM 0 8).wellFormed = false := by decide

theorem test_wellFormed_accepts : (Instr.jmpImm 6 0).wellFormed = true ∧ (Instr.int 0x1F).wellFormed = true ∧
    (Instr.togM 15 7).wellFormed = true ∧ Instr.nop.wellFormed = true := by decide

/-! ### Decoding: every constructor, from bytes of the spec's examples and vectors -/

theorem test_decode_control : Decodes
    [([0xA5, 0x00], .nop), ([0x00, 0x01], .stop), ([0x00, 0x02], .halt), ([0x00, 0x03], .di), ([0x00, 0x04], .ei),
      ([0x00, 0x05], .eii), ([0x00, 0x06], .daa), ([0x00, 0x07], .scf), ([0x00, 0x08], .ccf), ([0x00, 0x09], .clv),
      ([0x00, 0x0A], .sev)] := by decide

theorem test_decode_load8 : Decodes
    [([0x30, 0x10, 0x5A], .ldLImm 3 0x5A), ([0x10, 0x11, 0x00, 0x10, 0x00, 0x80], .ldLAbs 1 0x80001000),
      ([0x12, 0x12], .ldLInd 1 2), ([0x10, 0x13, 0x20, 0x01], .ldqLAbs 1 0x120), ([0x12, 0x14], .ldqLInd 1 2),
      ([0x10, 0x15, 0x44], .ldpLAbs 1 0x44), ([0x12, 0x16], .ldpLInd 1 2),
      ([0x02, 0x17, 0x00, 0x10, 0x00, 0x80], .stAbsL 0x80001000 2), ([0x12, 0x18], .stIndL 1 2),
      ([0x02, 0x19, 0x20, 0x01], .stqAbsL 0x120 2), ([0x12, 0x1A], .stqIndL 1 2), ([0x02, 0x1B, 0x44], .stpAbsL 0x44 2),
      ([0x12, 0x1C], .stpIndL 1 2), ([0x12, 0x1D], .mvLL 1 2), ([0x12, 0x1E], .mvHL 1 2), ([0x12, 0x1F], .mvLH 1 2)] := by decide

theorem test_decode_load16 : Decodes
    [([0x30, 0x20, 0xEF, 0xBE], .ldWImm 3 0xBEEF), ([0x10, 0x21, 0x00, 0x21, 0x00, 0x00], .ldWAbs 1 0x2100),
      ([0x12, 0x22], .ldWInd 1 2), ([0x00, 0x23, 0xFF, 0xFF], .ldqWAbs 0 0xFFFF), ([0x12, 0x24], .ldqWInd 1 2),
      ([0x05, 0x27, 0x40, 0x00, 0x00, 0x80], .stAbsW 0x80000040 5), ([0x12, 0x28], .stIndW 1 2),
      ([0x05, 0x29, 0x20, 0x00], .stqAbsW 0x20 5), ([0x12, 0x2A], .stqIndW 1 2), ([0x12, 0x2D], .mvWW 1 2),
      ([0x12, 0x2E], .mwh 1 2), ([0x12, 0x2F], .mwl 1 2)] := by decide

theorem test_decode_load32 : Decodes
    [([0x30, 0x30, 0xBE, 0xBA, 0xFE, 0xCA], .ldDImm 3 0xCAFEBABE),
      ([0x10, 0x31, 0x00, 0x10, 0x00, 0x80], .ldDAbs 1 0x80001000), ([0x12, 0x32], .ldDInd 1 2),
      ([0x10, 0x33, 0x20, 0x01], .ldqDAbs 1 0x120), ([0x12, 0x34], .ldqDInd 1 2),
      ([0x00, 0x35, 0xF0, 0xFF, 0xFF, 0x7F], .lsp 0x7FFFFFF0), ([0x10, 0x36], .pop 1),
      ([0x02, 0x37, 0x00, 0x10, 0x00, 0x80], .stAbsD 0x80001000 2), ([0x12, 0x38], .stIndD 1 2),
      ([0x02, 0x39, 0x20, 0x01], .stqAbsD 0x120 2), ([0x12, 0x3A], .stqIndD 1 2),
      ([0x00, 0x3B, 0x00, 0x10, 0x00, 0x80], .ssp 0x80001000), ([0x02, 0x3C], .push 2), ([0x12, 0x3D], .mvDD 1 2),
      ([0x10, 0x3E], .spo 1), ([0x02, 0x3F], .spi 2)] := by decide

theorem test_decode_branch : Decodes
    [([0x10, 0x40, 0x00, 0x30, 0x00, 0x00], .jmpImm 1 0x3000), ([0x05, 0x41], .jmpReg 0 5),
      ([0x20, 0x42, 0xF8, 0xFF], .jpb 2 0xFFF8), ([0x30, 0x43, 0x00, 0x30, 0x00, 0x00], .call 3 0x3000),
      ([0x1F, 0x44], .int 0x1F), ([0x10, 0x45], .ret 1), ([0x00, 0x46], .reti)] := by decide

theorem test_decode_arith8 : Decodes
    [([0x00, 0x50, 0x3A], .addLImm 0x3A), ([0x02, 0x51], .addLReg 2), ([0x02, 0x52], .addLInd 2),
      ([0x00, 0x53, 0x3A], .adcLImm 0x3A), ([0x02, 0x54], .adcLReg 2), ([0x02, 0x55], .adcLInd 2),
      ([0x00, 0x56, 0x3A], .subLImm 0x3A), ([0x02, 0x57], .subLReg 2), ([0x02, 0x58], .subLInd 2),
      ([0x00, 0x59, 0x3A], .sbcLImm 0x3A), ([0x02, 0x5A], .sbcLReg 2), ([0x02, 0x5B], .sbcLInd 2),
      ([0x10, 0x5C], .incL 1), ([0x10, 0x5D], .incM 1), ([0x10, 0x5E], .decL 1), ([0x10, 0x5F], .decM 1)] := by decide

theorem test_decode_arithWide : Decodes
    [([0x00, 0x60, 0x3A, 0x0F], .addWImm 0xF3A), ([0x02, 0x61], .addWReg 2),
      ([0x00, 0x62, 0x10, 0x00, 0x00, 0x00], .addDImm 0x10), ([0x02, 0x63], .addDReg 2),
      ([0x00, 0x64, 0x3A, 0x0F], .subWImm 0xF3A), ([0x02, 0x65], .subWReg 2),
      ([0x00, 0x66, 0x10, 0x00, 0x00, 0x00], .subDImm 0x10), ([0x02, 0x67], .subDReg 2), ([0x10, 0x6C], .incW 1),
      ([0x10, 0x6D], .incD 1), ([0x10, 0x6E], .decW 1), ([0x10, 0x6F], .decD 1)] := by decide

theorem test_decode_logic8 : Decodes
    [([0x00, 0x70, 0x0F], .andImm 0xF), ([0x02, 0x71], .andReg 2), ([0x02, 0x72], .andInd 2),
      ([0x00, 0x73, 0x3A], .orImm 0x3A), ([0x02, 0x74], .orReg 2), ([0x02, 0x75], .orInd 2),
      ([0x00, 0x76, 0x3A], .xorImm 0x3A), ([0x02, 0x77], .xorReg 2), ([0x02, 0x78], .xorInd 2), ([0x10, 0x79], .notL 1),
      ([0x10, 0x7A], .notM 1), ([0x00, 0x7D, 0x3A], .cmpImm 0x3A), ([0x02, 0x7E], .cmpReg 2), ([0x02, 0x7F], .cmpInd 2)] := by decide

theorem test_decode_shift : Decodes
    [([0x10, 0x80], .slaL 1), ([0x10, 0x81], .slaM 1), ([0x10, 0x82], .sraL 1), ([0x10, 0x83], .sraM 1),
      ([0x10, 0x84], .srlL 1), ([0x10, 0x85], .srlM 1), ([0x10, 0x86], .swapL 1), ([0x10, 0x87], .swapM 1),
      ([0x10, 0x88], .swapW 1), ([0x10, 0x89], .swapD 1)] := by decide

theorem test_decode_rotate : Decodes
    [([0x00, 0x90], .rla), ([0x10, 0x91], .rlL 1), ([0x10, 0x92], .rlM 1), ([0x00, 0x93], .rlca),
      ([0x10, 0x94], .rlcL 1), ([0x10, 0x95], .rlcM 1), ([0x00, 0x96], .rra), ([0x10, 0x97], .rrL 1),
      ([0x10, 0x98], .rrM 1), ([0x00, 0x99], .rrca), ([0x10, 0x9A], .rrcL 1), ([0x10, 0x9B], .rrcM 1)] := by decide

theorem test_decode_bit : Decodes
    [([0x13, 0xA0], .bitL 1 3), ([0x13, 0xA1], .bitM 1 3), ([0x13, 0xA2], .setL 1 3), ([0x13, 0xA3], .setM 1 3),
      ([0x13, 0xA4], .resL 1 3), ([0x13, 0xA5], .resM 1 3), ([0x13, 0xA6], .togL 1 3), ([0x13, 0xA7], .togM 1 3)] := by decide

/-- The 122 undefined identifiers of R111, and no others, are refused. -/
theorem test_undefined_identifiers :
    ((List.range 256).filter fun n => (decode false [0x00, BitVec.ofNat 8 n, 0, 0, 0, 0]).toOption.isNone) =
      List.range' 0x0B 5 ++ [0x25, 0x26, 0x2B, 0x2C] ++ List.range' 0x47 9 ++ List.range' 0x68 4 ++ [0x7B, 0x7C] ++
        List.range' 0x8A 6 ++ List.range' 0x9C 4 ++ List.range' 0xA8 88 := by decide

/-- R109: an unused field is refused only under `STRICT_FIELDS`. -/
theorem test_strict_fields : decode true [0xA5, 0x00] = .error .unusedField ∧ decode false [0xA5, 0x00] = .ok (.nop, []) ∧
    decode true [0x01, 0x10, 0x00] = .error .unusedField ∧ decode true [0x12, 0x12] = .ok (.ldLInd 1 2, []) := by
  exact ⟨rfl, rfl, rfl, rfl⟩

/-- R112: bytes that end too early are no instruction. -/
theorem test_truncated : decode false [0x00] = .error .truncated ∧ decode false [0x10, 0x11, 0x00, 0x10, 0x00] = .error .truncated := by
  exact ⟨rfl, rfl⟩

/-! ### One step -/

/-- T0.2. -/
theorem test_unused_fields_are_ignored : runs start [0xA5, 0x00]
    fun t => t.pc = 0x2002 ∧ t.flags = ⟨false, false, false, false, false⟩ := by decide

/-- T0.5. -/
theorem test_di_under_a_pending_enable : runs ({ start with ime := true, imp := true }) [0x00, 0x03]
    fun t => t.imp = false ∧ t.pc = 0x2002 ∧ t.flags = ⟨false, false, false, false, false⟩ := by decide

/-- T0.7. -/
theorem test_ei_sets_imp : runs start [0x00, 0x04]
    fun t => t.imp = true ∧ t.pc = 0x2002 ∧ t.flags = ⟨false, false, false, false, false⟩ := by decide

/-- T0.8. -/
theorem test_promotion_after_ei : runs ({ start with imp := true }) [0x00, 0x00]
    fun t => t.ime = true ∧ t.imp = false ∧ t.pc = 0x2002 ∧
      t.flags = ⟨false, false, false, false, false⟩ := by decide

/-- T0.13. -/
theorem test_daa_after_carry :
    runs (({ start with flags := ⟨false, false, false, true, false⟩ } : State).setD 0 0x32) [0x00, 0x06]
    fun t => t.getD 0 = 0x92 ∧ t.pc = 0x2002 ∧ t.flags = ⟨false, false, false, true, false⟩ := by decide

/-- T0.15. -/
theorem test_daa_after_borrow :
    runs (({ start with flags := ⟨false, true, false, true, false⟩ } : State).setD 0 0xF5) [0x00, 0x06]
    fun t => t.getD 0 = 0x95 ∧ t.pc = 0x2002 ∧ t.flags = ⟨false, true, false, true, false⟩ := by decide

/-- T0.18. -/
theorem test_ccf_clears_carry : runs ({ start with flags := ⟨true, true, true, true, true⟩ }) [0x00, 0x08]
    fun t => t.pc = 0x2002 ∧ t.flags = ⟨true, false, false, false, true⟩ := by decide

/-- T0.20. -/
theorem test_clv_keeps_the_rest : runs ({ start with flags := ⟨true, true, true, true, true⟩ }) [0x00, 0x09]
    fun t => t.pc = 0x2002 ∧ t.flags = ⟨true, true, true, true, false⟩ := by decide

/-- T1.2. -/
theorem test_load_from_the_rom_half : runs (poke (start) 0x2100 [0x5A]) [0x10, 0x11, 0x00, 0x21, 0x00, 0x00]
    fun t => t.getD 1 = 0x5A ∧ t.pc = 0x2006 ∧ t.flags = ⟨false, false, false, false, false⟩ := by decide

/-- T1.3. -/
theorem test_open_bus_reads_ff :
    runs (({ start with platform := { Platform.default with bus := [⟨0x90000000, 0x90000000, .openBus, .memory⟩] } } : State).setD 1 0x0) [0x10, 0x11, 0x00, 0x00, 0x00, 0x90]
    fun t => t.getD 1 = 0xFF ∧ t.pc = 0x2006 ∧ t.flags = ⟨false, false, false, false, false⟩ := by decide

/-- T1.4. -/
theorem test_refused_read_raises :
    runs (({ start with platform := { Platform.default with bus := [⟨0x90000000, 0x90000000, .refuse, .refuse⟩] } } : State).setD 1 0x0) [0x10, 0x11, 0x00, 0x00, 0x00, 0x90]
    fun t => t.sp = 0x8000FFFC ∧ t.ec = 0x3 ∧ t.pc = 0x1000 ∧ t.flags = ⟨false, false, false, false, false⟩ ∧
      bytesAt t 0x8000FFFC 4 = [0x06, 0x20, 0x00, 0x00] := by decide

/-- T1.6. -/
theorem test_load_over_its_own_address : runs (poke (start.setD 5 0x80000010) 0x80000010 [0x77]) [0x55, 0x12]
    fun t => t.getD 5 = 0x80000077 ∧ t.pc = 0x2002 ∧ t.flags = ⟨false, false, false, false, false⟩ := by decide

/-- T1.8. -/
theorem test_quick_load_uses_the_word_view : runs (poke (start.setD 4 0xABCDFFFF) 0xFFFFFFFF [0x99]) [0x04, 0x14]
    fun t => t.getD 0 = 0x99 ∧ t.pc = 0x2002 ∧ t.flags = ⟨false, false, false, false, false⟩ := by decide

/-- T1.10. -/
theorem test_port_load_uses_the_byte_view : runs (poke (start.setD 4 0x123456FE) 0xFFFFFFFE [0x3C]) [0x04, 0x16]
    fun t => t.getD 0 = 0x3C ∧ t.pc = 0x2002 ∧ t.flags = ⟨false, false, false, false, false⟩ := by decide

/-- T1.12. -/
theorem test_store_to_rom_raises : runs (start.setD 7 0x1) [0x07, 0x17, 0x00, 0x30, 0x00, 0x00]
    fun t => t.sp = 0x8000FFFC ∧ t.ec = 0x4 ∧ t.pc = 0x1000 ∧ t.flags = ⟨false, false, false, false, false⟩ ∧
      bytesAt t 0x8000FFFC 4 = [0x06, 0x20, 0x00, 0x00] := by decide

/-- T1.18. -/
theorem test_port_store_to_the_last_byte : runs ((start.setD 2 0x1FF).setD 1 0x11) [0x21, 0x1C]
    fun t => t.pc = 0x2002 ∧ t.flags = ⟨false, false, false, false, false⟩ ∧
      bytesAt t 0xFFFFFFFF 1 = [0x11] := by decide

/-- T1.22. -/
theorem test_move_low_to_high_same_register : runs (start.setD 4 0xC3) [0x44, 0x1E]
    fun t => t.getD 4 = 0xC3C3 ∧ t.pc = 0x2002 ∧ t.flags = ⟨false, false, false, false, false⟩ := by decide

/-- T2.4. -/
theorem test_word_load_wraps : runs (poke (poke (start.setD 2 0xFFFFFFFF) 0x0 [0x22]) 0xFFFFFFFF [0x11]) [0x12, 0x22]
    fun t => t.getD 1 = 0x2211 ∧ t.pc = 0x2002 ∧ t.flags = ⟨false, false, false, false, false⟩ := by decide

/-- T2.8. -/
theorem test_word_store_past_the_top_is_partial : runs ((start.setD 1 0xFFFFFFFF).setD 5 0xA1B2) [0x15, 0x28]
    fun t => t.sp = 0x8000FFFC ∧ t.ec = 0x4 ∧ t.pc = 0x1000 ∧ t.flags = ⟨false, false, false, false, false⟩ ∧
      bytesAt t 0x8000FFFC 4 = [0x02, 0x20, 0x00, 0x00] ∧ bytesAt t 0xFFFFFFFF 1 = [0xB2] := by decide

/-- T2.12. -/
theorem test_mwh_moves_low_to_high : runs ((start.setD 1 0xAAAAAAAA).setD 2 0x12345678) [0x12, 0x2E]
    fun t => t.getD 1 = 0x5678AAAA ∧ t.pc = 0x2002 ∧ t.flags = ⟨false, false, false, false, false⟩ := by decide

/-- T2.13. -/
theorem test_mwl_moves_high_to_low : runs ((start.setD 1 0xAAAAAAAA).setD 2 0x12345678) [0x12, 0x2F]
    fun t => t.getD 1 = 0xAAAA1234 ∧ t.pc = 0x2002 ∧ t.flags = ⟨false, false, false, false, false⟩ := by decide

/-- T3.3. -/
theorem test_load_misaligned_over_its_address :
    runs (poke (start.setD 1 0x80000101) 0x80000101 [0x04, 0x03, 0x02, 0x01]) [0x11, 0x32]
    fun t => t.getD 1 = 0x1020304 ∧ t.pc = 0x2002 ∧ t.flags = ⟨false, false, false, false, false⟩ := by decide

/-- T3.9. -/
theorem test_pop_wraps_in_the_ram_half :
    runs (poke (poke ({ start with sp := 0xFFFFFFFE }) 0x80000000 [0xCC, 0xDD]) 0xFFFFFFFE [0xAA, 0xBB]) [0x40, 0x36]
    fun t => t.getD 4 = 0xDDCCBBAA ∧ t.sp = 0x80000002 ∧ t.pc = 0x2002 ∧
      t.flags = ⟨false, false, false, false, false⟩ := by decide

/-- T3.12. -/
theorem test_quick_store_past_the_top_is_partial : runs (start.setD 6 0x12345678) [0x06, 0x39, 0xFE, 0xFF]
    fun t => t.sp = 0x8000FFFC ∧ t.ec = 0x4 ∧ t.pc = 0x1000 ∧ t.flags = ⟨false, false, false, false, false⟩ ∧
      bytesAt t 0x8000FFFC 4 = [0x04, 0x20, 0x00, 0x00] ∧ bytesAt t 0xFFFFFFFE 2 = [0x78, 0x56] := by decide

/-- T3.14. -/
theorem test_ssp_is_little_endian : runs ({ start with sp := 0x8000FFF0 }) [0x00, 0x3B, 0x60, 0x00, 0x00, 0x80]
    fun t => t.pc = 0x2006 ∧ t.flags = ⟨false, false, false, false, false⟩ ∧
      bytesAt t 0x80000060 4 = [0xF0, 0xFF, 0x00, 0x80] := by decide

/-- T3.16. -/
theorem test_push_wraps_in_the_ram_half :
    runs (({ start with sp := 0x80000002 } : State).setD 6 0x12345678) [0x06, 0x3C]
    fun t => t.sp = 0xFFFFFFFE ∧ t.pc = 0x2002 ∧ t.flags = ⟨false, false, false, false, false⟩ ∧
      bytesAt t 0x80000000 2 = [0x34, 0x12] ∧ bytesAt t 0xFFFFFFFE 2 = [0x78, 0x56] := by decide

/-- T3.17. -/
theorem test_push_refused_at_the_third_byte :
    runs (({ start with sp := 0x80010000, platform := { Platform.default with bus := [⟨0x8000FFFD, 0x8000FFFD, .refuse, .refuse⟩] } } : State).setD 6 0x12345678) [0x06, 0x3C]
    fun t => t.sp = 0x8000FFF9 ∧ t.ec = 0x7 ∧ t.pc = 0x1000 ∧ t.flags = ⟨false, false, false, false, false⟩ ∧
      bytesAt t 0x8000FFF9 4 = [0x02, 0x20, 0x00, 0x00] ∧ bytesAt t 0x8000FFFE 2 = [0x34, 0x12] := by decide

/-- T3.20. -/
theorem test_spi_forces_bit_31 : runs (start.setD 2 0x12345678) [0x02, 0x3F]
    fun t => t.sp = 0x92345678 ∧ t.pc = 0x2002 ∧ t.flags = ⟨false, false, false, false, false⟩ := by decide

/-- T4.2. -/
theorem test_jump_not_taken :
    runs ({ start with flags := ⟨false, false, false, false, false⟩ }) [0x10, 0x40, 0x00, 0x30, 0x00, 0x00]
    fun t => t.pc = 0x2006 ∧ t.flags = ⟨false, false, false, false, false⟩ := by decide

/-- T4.5. -/
theorem test_jump_on_carry :
    runs ({ start with flags := ⟨false, false, false, true, false⟩ }) [0x30, 0x40, 0x00, 0x30, 0x00, 0x00]
    fun t => t.pc = 0x3000 ∧ t.flags = ⟨false, false, false, true, false⟩ := by decide

/-- T4.9. -/
theorem test_condition_7_raises : runs start [0x70, 0x40, 0x00, 0x30, 0x00, 0x00]
    fun t => t.sp = 0x8000FFFC ∧ t.ec = 0x2 ∧ t.pc = 0x1000 ∧ t.flags = ⟨false, false, false, false, false⟩ ∧
      bytesAt t 0x8000FFFC 4 = [0x06, 0x20, 0x00, 0x00] := by decide

/-- T4.13. -/
theorem test_jpb_to_itself : runs start [0x00, 0x42, 0xFC, 0xFF]
    fun t => t.pc = 0x2000 ∧ t.flags = ⟨false, false, false, false, false⟩ := by decide

/-- T4.15. -/
theorem test_jpb_wraps_below_zero : runs ({ start with pc := 0x0 }) [0x00, 0x42, 0xFA, 0xFF]
    fun t => t.pc = 0xFFFFFFFE ∧ t.flags = ⟨false, false, false, false, false⟩ := by decide

/-- T4.18. -/
theorem test_call_not_taken_pushes_nothing :
    runs ({ start with sp := 0x80010000, flags := ⟨false, false, false, false, false⟩ }) [0x30, 0x43, 0x00, 0x30, 0x00, 0x00]
    fun t => t.pc = 0x2006 ∧ t.flags = ⟨false, false, false, false, false⟩ := by decide

/-- T4.19. -/
theorem test_int_touches_no_interrupt_state :
    runs ({ start with sp := 0x80010000, ime := true, irq := 0x4 }) [0x02, 0x44]
    fun t => t.sp = 0x8000FFFC ∧ t.pc = 0x1100 ∧ t.ie = 0x1 ∧ t.flags = ⟨false, false, false, false, false⟩ ∧
      bytesAt t 0x8000FFFC 4 = [0x02, 0x20, 0x00, 0x00] := by decide

/-- T4.21. -/
theorem test_int_20_raises : runs ({ start with sp := 0x80010000 }) [0x20, 0x44]
    fun t => t.sp = 0x8000FFFC ∧ t.ec = 0x2 ∧ t.pc = 0x1000 ∧ t.flags = ⟨false, false, false, false, false⟩ ∧
      bytesAt t 0x8000FFFC 4 = [0x02, 0x20, 0x00, 0x00] := by decide

/-- T4.23. -/
theorem test_ret_not_taken_pops_nothing :
    runs (poke ({ start with sp := 0x8000FFFC, flags := ⟨false, false, false, false, false⟩ }) 0x8000FFFC [0x06, 0x20, 0x00, 0x00]) [0x10, 0x45]
    fun t => t.pc = 0x2002 ∧ t.flags = ⟨false, false, false, false, false⟩ := by decide

/-- T4.24. -/
theorem test_reti_sets_ime_and_clears_ec :
    runs (poke ({ start with sp := 0x8000FFFC, ec := 0x4, ime := false }) 0x8000FFFC [0x09, 0x20, 0x00, 0x00]) [0x00, 0x46]
    fun t => t.sp = 0x80010000 ∧ t.ime = true ∧ t.ec = 0x0 ∧ t.pc = 0x2009 ∧
      t.flags = ⟨false, false, false, false, false⟩ := by decide

/-- T4.25. -/
theorem test_reti_and_promotion :
    runs (poke ({ start with sp := 0x8000FFFC, ec := 0x0, ime := true, imp := true }) 0x8000FFFC [0x09, 0x20, 0x00, 0x00]) [0x00, 0x46]
    fun t => t.sp = 0x80010000 ∧ t.imp = false ∧ t.pc = 0x2009 ∧
      t.flags = ⟨false, false, false, false, false⟩ := by decide

/-- T5.1. -/
theorem test_add_carries : runs (start.setD 0 0xABCDEFFF) [0x00, 0x50, 0x01]
    fun t => t.getD 0 = 0xABCDEF00 ∧ t.pc = 0x2003 ∧ t.flags = ⟨true, false, true, true, false⟩ := by decide

/-- T5.3. -/
theorem test_add_two_negatives : runs (start.setD 0 0x80) [0x00, 0x50, 0x80]
    fun t => t.getD 0 = 0x0 ∧ t.pc = 0x2003 ∧ t.flags = ⟨true, false, false, true, true⟩ := by decide

/-- T5.9. -/
theorem test_adc_overflow_from_carry :
    runs ((({ start with flags := ⟨false, false, false, true, false⟩ } : State).setD 0 0x7F).setD 2 0x0) [0x02, 0x54]
    fun t => t.getD 0 = 0x80 ∧ t.pc = 0x2002 ∧ t.flags = ⟨false, false, true, false, true⟩ := by decide

/-- T5.11. -/
theorem test_sub_borrows : runs (start.setD 0 0x0) [0x00, 0x56, 0x01]
    fun t => t.getD 0 = 0xFF ∧ t.pc = 0x2003 ∧ t.flags = ⟨false, true, true, true, false⟩ := by decide

/-- T5.12. -/
theorem test_sub_overflows : runs (start.setD 0 0x80) [0x00, 0x56, 0x01]
    fun t => t.getD 0 = 0x7F ∧ t.pc = 0x2003 ∧ t.flags = ⟨false, true, true, false, true⟩ := by decide

/-- T5.17. -/
theorem test_sbc_wraps_to_zero :
    runs (({ start with flags := ⟨false, false, false, true, false⟩ } : State).setD 0 0x0) [0x00, 0x59, 0xFF]
    fun t => t.pc = 0x2003 ∧ t.flags = ⟨true, true, true, true, false⟩ := by decide

/-- T5.18. -/
theorem test_sbc_overflow_from_borrow :
    runs ((({ start with flags := ⟨false, false, false, true, false⟩ } : State).setD 0 0x80).setD 3 0x0) [0x03, 0x5A]
    fun t => t.getD 0 = 0x7F ∧ t.pc = 0x2002 ∧ t.flags = ⟨false, true, true, false, true⟩ := by decide

/-- T5.21. -/
theorem test_inc_keeps_carry :
    runs (({ start with flags := ⟨false, false, false, true, false⟩ } : State).setD 4 0x7F) [0x40, 0x5C]
    fun t => t.getD 4 = 0x80 ∧ t.pc = 0x2002 ∧ t.flags = ⟨false, false, true, true, true⟩ := by decide

/-- T5.23. -/
theorem test_inc_in_rom_raises_and_keeps_flags :
    runs (poke (({ start with flags := ⟨true, false, false, true, true⟩ } : State).setD 1 0x2100) 0x2100 [0x0F]) [0x10, 0x5D]
    fun t => t.sp = 0x8000FFFC ∧ t.ec = 0x4 ∧ t.pc = 0x1000 ∧ t.flags = ⟨true, false, false, true, true⟩ ∧
      bytesAt t 0x8000FFFC 4 = [0x02, 0x20, 0x00, 0x00] := by decide

/-- T5.25. -/
theorem test_dec_overflows : runs (start.setD 4 0x80) [0x40, 0x5E]
    fun t => t.getD 4 = 0x7F ∧ t.pc = 0x2002 ∧ t.flags = ⟨false, true, true, false, true⟩ := by decide

/-- T6.2. -/
theorem test_addw_half_carry_at_bit_11 : runs (start.setD 0 0x7FFF) [0x00, 0x60, 0x01, 0x00]
    fun t => t.getD 0 = 0x8000 ∧ t.pc = 0x2004 ∧ t.flags = ⟨false, false, true, false, true⟩ := by decide

/-- T6.7. -/
theorem test_addd_half_carry_at_bit_27 : runs (start.setD 0 0xFFFFFFF) [0x00, 0x62, 0x01, 0x00, 0x00, 0x00]
    fun t => t.getD 0 = 0x10000000 ∧ t.pc = 0x2006 ∧ t.flags = ⟨false, false, true, false, false⟩ := by decide

/-- T6.11. -/
theorem test_subw_half_borrow : runs ((start.setD 0 0x1000).setD 2 0x1) [0x02, 0x65]
    fun t => t.getD 0 = 0xFFF ∧ t.pc = 0x2002 ∧ t.flags = ⟨false, true, true, false, false⟩ := by decide

/-- T6.14. -/
theorem test_subd_equal : runs ((start.setD 0 0x12345678).setD 5 0x12345678) [0x05, 0x67]
    fun t => t.getD 0 = 0x0 ∧ t.pc = 0x2002 ∧ t.flags = ⟨true, true, false, false, false⟩ := by decide

/-- T6.16. -/
theorem test_incw_never_sets_v :
    runs (({ start with flags := ⟨false, false, false, false, false⟩ } : State).setD 3 0x7FFF) [0x30, 0x6C]
    fun t => t.getD 3 = 0x8000 ∧ t.pc = 0x2002 ∧ t.flags = ⟨false, false, true, false, false⟩ := by decide

/-- T6.18. -/
theorem test_incd_keeps_carry_and_v :
    runs (({ start with flags := ⟨false, false, false, true, true⟩ } : State).setD 3 0xFFFFFFF) [0x30, 0x6D]
    fun t => t.getD 3 = 0x10000000 ∧ t.pc = 0x2002 ∧ t.flags = ⟨false, false, true, true, true⟩ := by decide

/-- T6.20. -/
theorem test_decw_to_zero :
    runs (({ start with flags := ⟨false, false, false, true, true⟩ } : State).setD 3 0x1) [0x30, 0x6E]
    fun t => t.getD 3 = 0x0 ∧ t.pc = 0x2002 ∧ t.flags = ⟨true, true, false, true, true⟩ := by decide

/-- T6.22. -/
theorem test_decd_half_borrow :
    runs (({ start with flags := ⟨false, false, false, false, false⟩ } : State).setD 3 0x10000000) [0x30, 0x6F]
    fun t => t.getD 3 = 0xFFFFFFF ∧ t.pc = 0x2002 ∧ t.flags = ⟨false, true, true, false, false⟩ := by decide

/-- T7.1. -/
theorem test_and_sets_h :
    runs (({ start with flags := ⟨false, true, false, true, true⟩ } : State).setD 0 0x123456F0) [0x00, 0x70, 0x0F]
    fun t => t.getD 0 = 0x12345600 ∧ t.pc = 0x2003 ∧ t.flags = ⟨true, false, true, false, false⟩ := by decide

/-- T7.6. -/
theorem test_or_from_memory : runs (poke ((start.setD 0 0x1).setD 1 0x2100) 0x2100 [0x80]) [0x01, 0x75]
    fun t => t.getD 0 = 0x81 ∧ t.pc = 0x2002 ∧ t.flags = ⟨false, false, false, false, false⟩ := by decide

/-- T7.8. -/
theorem test_xor_clears :
    runs (({ start with flags := ⟨false, true, true, true, true⟩ } : State).setD 0 0x1234565A) [0x00, 0x77]
    fun t => t.getD 0 = 0x12345600 ∧ t.pc = 0x2002 ∧ t.flags = ⟨true, false, false, false, false⟩ := by decide

/-- T7.10. -/
theorem test_not_keeps_z :
    runs (({ start with flags := ⟨false, false, false, true, true⟩ } : State).setD 3 0x123456FF) [0x30, 0x79]
    fun t => t.getD 3 = 0x12345600 ∧ t.pc = 0x2002 ∧ t.flags = ⟨false, true, true, true, false⟩ := by decide

/-- T7.15. -/
theorem test_cmp_overflows : runs ((start.setD 0 0x80).setD 1 0x1) [0x01, 0x7E]
    fun t => t.pc = 0x2002 ∧ t.flags = ⟨false, true, true, false, true⟩ := by decide

/-- T8.1. -/
theorem test_sla_keeps_v :
    runs (({ start with flags := ⟨false, true, true, false, true⟩ } : State).setD 1 0x12345681) [0x10, 0x80]
    fun t => t.getD 1 = 0x12345602 ∧ t.pc = 0x2002 ∧ t.flags = ⟨false, false, false, true, true⟩ := by decide

/-- T8.4. -/
theorem test_sra_keeps_the_sign : runs (start.setD 1 0x81) [0x10, 0x82]
    fun t => t.getD 1 = 0xC0 ∧ t.pc = 0x2002 ∧ t.flags = ⟨false, false, false, true, false⟩ := by decide

/-- T8.7. -/
theorem test_srl_clears_the_sign : runs (start.setD 1 0x81) [0x10, 0x84]
    fun t => t.getD 1 = 0x40 ∧ t.pc = 0x2002 ∧ t.flags = ⟨false, false, false, true, false⟩ := by decide

/-- T8.9. -/
theorem test_swap_nibbles :
    runs (({ start with flags := ⟨false, true, true, true, true⟩ } : State).setD 1 0x123456A5) [0x10, 0x86]
    fun t => t.getD 1 = 0x1234565A ∧ t.pc = 0x2002 ∧ t.flags = ⟨false, false, false, false, true⟩ := by decide

/-- T8.12. -/
theorem test_swap_bytes : runs (start.setD 1 0xAABB1234) [0x10, 0x88]
    fun t => t.getD 1 = 0xAABB3412 ∧ t.pc = 0x2002 ∧ t.flags = ⟨false, false, false, false, false⟩ := by decide

/-- T8.13. -/
theorem test_swap_words : runs (start.setD 1 0x12345678) [0x10, 0x89]
    fun t => t.getD 1 = 0x56781234 ∧ t.pc = 0x2002 ∧ t.flags = ⟨false, false, false, false, false⟩ := by decide

/-- T8.15. -/
theorem test_rla_clears_z :
    runs (({ start with flags := ⟨true, false, false, false, false⟩ } : State).setD 0 0x80) [0x00, 0x90]
    fun t => t.getD 0 = 0x0 ∧ t.pc = 0x2002 ∧ t.flags = ⟨false, false, false, true, false⟩ := by decide

/-- T8.18. -/
theorem test_rl_in_memory :
    runs (poke (({ start with flags := ⟨false, false, false, true, false⟩ } : State).setD 2 0x80000000) 0x80000000 [0x40]) [0x20, 0x92]
    fun t => t.pc = 0x2002 ∧ t.flags = ⟨false, false, false, false, false⟩ ∧
      bytesAt t 0x80000000 1 = [0x81] := by decide

/-- T8.21. -/
theorem test_rlc_sets_z :
    runs (({ start with flags := ⟨false, false, false, true, false⟩ } : State).setD 2 0x0) [0x20, 0x94]
    fun t => t.pc = 0x2002 ∧ t.flags = ⟨true, false, false, false, false⟩ := by decide

/-- T8.24. -/
theorem test_rra_takes_carry :
    runs (({ start with flags := ⟨false, false, false, true, false⟩ } : State).setD 0 0x2) [0x00, 0x96]
    fun t => t.getD 0 = 0x81 ∧ t.pc = 0x2002 ∧ t.flags = ⟨false, false, false, false, false⟩ := by decide

/-- T8.26. -/
theorem test_rr_in_memory :
    runs (poke (({ start with flags := ⟨false, false, false, true, false⟩ } : State).setD 2 0x80000000) 0x80000000 [0x02]) [0x20, 0x98]
    fun t => t.pc = 0x2002 ∧ t.flags = ⟨false, false, false, false, false⟩ ∧
      bytesAt t 0x80000000 1 = [0x81] := by decide

/-- T8.28. -/
theorem test_rrc_copies_bit_0 :
    runs (({ start with flags := ⟨false, false, false, false, false⟩ } : State).setD 2 0x12345603) [0x20, 0x9A]
    fun t => t.getD 2 = 0x12345681 ∧ t.pc = 0x2002 ∧ t.flags = ⟨false, false, false, true, false⟩ := by decide

/-- TA.1. -/
theorem test_bit_set_clears_z :
    runs (({ start with flags := ⟨true, false, false, true, true⟩ } : State).setD 1 0x80) [0x17, 0xA0]
    fun t => t.pc = 0x2002 ∧ t.flags = ⟨false, false, true, true, true⟩ := by decide

/-- TA.4. -/
theorem test_bit_8_raises : runs (start.setD 1 0x1FF) [0x18, 0xA0]
    fun t => t.sp = 0x8000FFFC ∧ t.ec = 0x2 ∧ t.pc = 0x1000 ∧ t.flags = ⟨false, false, false, false, false⟩ ∧
      bytesAt t 0x8000FFFC 4 = [0x02, 0x20, 0x00, 0x00] := by decide

/-- TA.8. -/
theorem test_set_in_rom_raises : runs (poke (start.setD 1 0x2100) 0x2100 [0x01]) [0x14, 0xA3]
    fun t => t.sp = 0x8000FFFC ∧ t.ec = 0x4 ∧ t.pc = 0x1000 ∧ t.flags = ⟨false, false, false, false, false⟩ ∧
      bytesAt t 0x8000FFFC 4 = [0x02, 0x20, 0x00, 0x00] := by decide

/-- TA.9. -/
theorem test_res_clears : runs (start.setD 1 0xFF) [0x17, 0xA4]
    fun t => t.getD 1 = 0x7F ∧ t.pc = 0x2002 ∧ t.flags = ⟨false, false, false, false, false⟩ := by decide

/-- TA.13. -/
theorem test_tog_in_memory : runs (poke (start.setD 1 0x80000000) 0x80000000 [0x7F]) [0x17, 0xA7]
    fun t => t.pc = 0x2002 ∧ t.flags = ⟨false, false, false, false, false⟩ ∧
      bytesAt t 0x80000000 1 = [0xFF] := by decide

/-- TX.1. -/
theorem test_undefined_identifier : runs ({ start with sp := 0x80010000 }) [0x00, 0x0B]
    fun t => t.sp = 0x8000FFFC ∧ t.ec = 0x1 ∧ t.pc = 0x1000 ∧ t.flags = ⟨false, false, false, false, false⟩ ∧
      bytesAt t 0x8000FFFC 4 = [0x02, 0x20, 0x00, 0x00] := by decide

/-- TX.3. -/
theorem test_double_fault_in_the_handler : runs ({ start with sp := 0x80010000, ec := 0x3 }) [0x00, 0x7B]
    fun t => t.stopf = true ∧ t.df = true ∧ t.pc = 0x2002 ∧
      t.flags = ⟨false, false, false, false, false⟩ := by decide

/-- TX.4. -/
theorem test_lowest_vector_first :
    runs (poke ({ start with sp := 0x80010000, ime := true, ie := 0xD, irq := 0xC }) 0x1100 [0x00, 0x00]) [0x00, 0x00]
    fun t => t.sp = 0x8000FFFC ∧ t.ime = false ∧ t.irq = 0x8 ∧ t.pc = 0x1102 ∧
      t.flags = ⟨false, false, false, false, false⟩ ∧ bytesAt t 0x8000FFFC 4 = [0x00, 0x20, 0x00, 0x00] := by decide

/-- TX.5. -/
theorem test_ime_clear_services_nothing :
    runs ({ start with sp := 0x80010000, ime := false, ie := 0xD, irq := 0xC }) [0x00, 0x00]
    fun t => t.pc = 0x2002 ∧ t.ime = false ∧ t.flags = ⟨false, false, false, false, false⟩ := by decide

/-- TX.6. -/
theorem test_vector_0_ignores_ime :
    runs (poke ({ start with sp := 0x80010000, ime := false, ie := 0x1, irq := 0x1 }) 0x1000 [0x00, 0x00]) [0x00, 0x00]
    fun t => t.sp = 0x8000FFFC ∧ t.irq = 0x0 ∧ t.pc = 0x1002 ∧ t.ime = false ∧
      t.flags = ⟨false, false, false, false, false⟩ ∧ bytesAt t 0x8000FFFC 4 = [0x00, 0x20, 0x00, 0x00] := by decide

/-- TX.8. -/
theorem test_halted_frame_is_idle : runs ({ start with haltf := true, ie := 0x5, irq := 0x0 }) [0x00, 0x00]
    fun t => t.pc = 0x2000 ∧ t.flags = ⟨false, false, false, false, false⟩ := by decide

/-- TX.9. -/
theorem test_halt_wakes_without_ime :
    runs ({ start with haltf := true, ime := false, ie := 0x5, irq := 0x4 }) [0x00, 0x00]
    fun t => t.haltf = false ∧ t.pc = 0x2002 ∧ t.ime = false ∧
      t.flags = ⟨false, false, false, false, false⟩ := by decide

/-- TX.10. -/
theorem test_halt_wakes_and_services :
    runs (poke ({ start with haltf := true, ime := true, ie := 0x5, irq := 0x4, sp := 0x80010000 }) 0x1100 [0x00, 0x00]) [0x00, 0x00]
    fun t => t.sp = 0x8000FFFC ∧ t.ime = false ∧ t.haltf = false ∧ t.irq = 0x0 ∧ t.pc = 0x1102 ∧
      t.flags = ⟨false, false, false, false, false⟩ ∧ bytesAt t 0x8000FFFC 4 = [0x00, 0x20, 0x00, 0x00] := by decide

/-- TX.12. -/
theorem test_stopped_frame_does_nothing :
    runs ({ start with stopf := true, ime := true, ie := 0x5, irq := 0x5 }) [0x00, 0x00]
    fun t => t.pc = 0x2000 ∧ t.flags = ⟨false, false, false, false, false⟩ := by decide

/-- TX.13. -/
theorem test_refused_opcode_byte :
    runs ({ start with sp := 0x80010000, platform := { Platform.default with bus := [⟨0x00002001, 0x00002001, .refuse, .refuse⟩] } }) [0x00, 0x00]
    fun t => t.sp = 0x8000FFFC ∧ t.ec = 0x5 ∧ t.pc = 0x1000 ∧ t.flags = ⟨false, false, false, false, false⟩ ∧
      bytesAt t 0x8000FFFC 4 = [0x01, 0x20, 0x00, 0x00] := by decide

/-- TX.14. -/
theorem test_refused_immediate_byte :
    runs ({ start with sp := 0x80010000, platform := { Platform.default with bus := [⟨0x00002002, 0x00002002, .refuse, .refuse⟩] } }) [0x10, 0x10, 0x77]
    fun t => t.sp = 0x8000FFFC ∧ t.ec = 0x3 ∧ t.pc = 0x1000 ∧ t.flags = ⟨false, false, false, false, false⟩ ∧
      bytesAt t 0x8000FFFC 4 = [0x02, 0x20, 0x00, 0x00] := by decide

/-- TX.15. -/
theorem test_refused_pop_byte :
    runs (poke (({ start with sp := 0x8000FFFC, platform := { Platform.default with bus := [⟨0x8000FFFE, 0x8000FFFE, .refuse, .refuse⟩] } } : State).setD 4 0x44444444) 0x8000FFFC [0x01, 0x02]) [0x40, 0x36]
    fun t => t.sp = 0x8000FFFA ∧ t.ec = 0x8 ∧ t.pc = 0x1000 ∧ t.flags = ⟨false, false, false, false, false⟩ ∧
      bytesAt t 0x8000FFFA 4 = [0x02, 0x20, 0x00, 0x00] := by decide

/-- TX.16. -/
theorem test_refused_push_in_the_handler_entry :
    runs ({ start with sp := 0x80010000, platform := { Platform.default with bus := [⟨0x8000FFFF, 0x8000FFFF, .refuse, .refuse⟩] } }) [0x07, 0x17, 0x00, 0x30, 0x00, 0x00]
    fun t => t.sp = 0x8000FFFF ∧ t.stopf = true ∧ t.df = true ∧ t.ec = 0x4 ∧ t.pc = 0x2006 ∧
      t.flags = ⟨false, false, false, false, false⟩ := by decide

/-- TX.17. -/
theorem test_raise_skips_promotion : runs ({ start with sp := 0x80010000, imp := true, ime := false }) [0x00, 0xA8]
    fun t => t.sp = 0x8000FFFC ∧ t.ec = 0x1 ∧ t.pc = 0x1000 ∧ t.flags = ⟨false, false, false, false, false⟩ ∧
      bytesAt t 0x8000FFFC 4 = [0x02, 0x20, 0x00, 0x00] := by decide

/-- TX.18. -/
theorem test_opcode_straddles_the_top : runs (poke ({ start with pc := 0xFFFFFFFF }) 0x0 [0x00]) [0x00, 0x00]
    fun t => t.pc = 0x1 ∧ t.flags = ⟨false, false, false, false, false⟩ := by decide
/-- The bits of a table row count from the first byte in memory, and `withFetchWord` places them where the step fetches. -/
theorem test_table_word : decodeTableWord 48 0x800010001110 = some (.ldLAbs 1 0x80001000) ∧ decodeTableWord 16 0x5100 = some (.addLReg 0) ∧
    decodeTableWord 16 0x1110 = some (.ldLAbs 1 0) ∧ decodeTableWord 16 0x0B00 = none := by decide

theorem test_withFetchWord :
    (match step (State.reset.withFetchWord 48 0x89ABCDEF3090) with
      | .next t => decide (t.getD 9 = 0x89ABCDEF ∧ t.pc = 0x2006)
      | _ => false) = true := by decide

/-! ### States that meet the hypotheses of the statements -/

/-- `start` with one region on the bus. -/
def onBus (first last : Word) (onRead : ReadPolicy) (onWrite : WritePolicy) : State :=
  { start with platform := { Platform.default with bus := [⟨first, last, onRead, onWrite⟩] } }

/-- Bytes of plain memory, some of them at both ends of the address space, and registers that point at them. -/
def loaded : State :=
  (poke (poke (poke start 0x80001000 [0x78, 0x56, 0x34, 0x12]) 0xFFFFFFFE [0xAA, 0xBB, 0xCC, 0xDD]) 0x80010000 [1, 2, 3, 4]).setD 1
    0x80001000

/-- An answered read, as the statements say it. -/
theorem answered {s : State} {a : Word} (h : (s.peek a).isSome = true) : ∃ b, s.peek a = some b := Option.isSome_iff_exists.1 h

theorem witness_identifier_decides_the_length : (4 ≤ ([0, 0, 0, 0] : List Byte).length) := by decide

theorem witness_step_runs_the_decoded_instruction :
    let bytes : List Byte := [0x10, 0x11, 0x00, 0x10, 0x00, 0x80]
    let s := poke start 0x2000 bytes
    deliver s = .ok s ∧ s.stopf = false ∧ s.haltf = false ∧ s.selectedVector = none ∧
      (∀ k b, bytes[k]? = some b → s.peek (s.pc + BitVec.ofNat 32 k) = some b) ∧
      decode s.platform.strictFields bytes = .ok (.ldLAbs 1 0x80001000, []) := by
  refine ⟨rfl, rfl, rfl, by decide, fun k b h => ?_, rfl⟩
  rcases k with _ | _ | _ | _ | _ | _ | k
  all_goals first
    | (simp at h; done)
    | (obtain rfl := Option.some.inj h; decide)

theorem witness_step_runs_refuses_unused_fields :
    let bytes : List Byte := [0x05, 0x10, 0x3A]
    let s := poke { start with platform := { Platform.default with strictFields := true } } 0x2000 bytes
    deliver s = .ok s ∧ s.stopf = false ∧ s.haltf = false ∧ s.selectedVector = none ∧
      (∀ k b, bytes[k]? = some b → s.peek (s.pc + BitVec.ofNat 32 k) = some b) ∧
      decode false bytes = .ok (.ldLImm 0 0x3A, []) ∧ decode s.platform.strictFields bytes = .error .unusedField := by
  refine ⟨rfl, rfl, rfl, by decide, fun k b h => ?_, rfl, rfl⟩
  rcases k with _ | _ | _ | k
  all_goals first
    | (simp at h; done)
    | (obtain rfl := Option.some.inj h; decide)

/-- An instruction fetched byte by byte, plainly and under `STRICT_FIELDS`, and an undefined identifier. -/
theorem witness_fetch_byte_by_byte :
    (let s := poke start 0x2000 [0x10, 0x11, 0x00, 0x10, 0x00, 0x80];
      (∃ u, fetchBytes 6 s = .done [0x10, 0x11, 0x00, 0x10, 0x00, 0x80] u) ∧
        decode s.platform.strictFields [0x10, 0x11, 0x00, 0x10, 0x00, 0x80] = .ok (.ldLAbs 1 0x80001000, [])) ∧
    (let s := poke { start with platform := { Platform.default with strictFields := true } } 0x2000 [0x05, 0x10, 0x3A];
      (∃ u, fetchBytes 3 s = .done [0x05, 0x10, 0x3A] u) ∧ decode false [0x05, 0x10, 0x3A] = .ok (.ldLImm 0 0x3A, []) ∧
        decode s.platform.strictFields [0x05, 0x10, 0x3A] = .error .unusedField) ∧
    ∃ u, fetchBytes 2 (poke start 0x2000 [0x00, 0x0B]) = .done [0x00, 0x0B] u :=
  ⟨⟨⟨_, rfl⟩, rfl⟩, ⟨⟨_, rfl⟩, rfl, rfl⟩, _, rfl⟩

/-- A byte by byte fetch refused at each opcode byte and at the first and the last immediate byte. -/
theorem witness_refused_fetch_byte_by_byte :
    (∃ u w, fetchBytes 0 (onBus 0x2000 0x2000 .refuse .memory) = .done [] u ∧ busRead u.pc u = .raised .invalidReadAccess w) ∧
    (∃ u w, fetchBytes 1 (poke (onBus 0x2001 0x2001 .refuse .memory) 0x2000 [0x10]) = .done [0x10] u ∧
      busRead u.pc u = .raised .invalidReadAccess w) ∧
    (∃ u w, fetchBytes 2 (poke (onBus 0x2002 0x2002 .refuse .memory) 0x2000 [0x10, 0x11]) = .done [0x10, 0x11] u ∧
      busRead u.pc u = .raised .invalidReadAccess w ∧ 2 < 2 + immLength 0x11) ∧
    (∃ u w, fetchBytes 5 (poke (onBus 0x2005 0x2005 .refuse .memory) 0x2000 [0x10, 0x11, 0, 0, 0]) = .done [0x10, 0x11, 0, 0, 0] u ∧
      busRead u.pc u = .raised .invalidReadAccess w ∧ 5 < 2 + immLength 0x11) :=
  ⟨⟨_, _, rfl, rfl⟩, ⟨_, _, rfl, rfl⟩, ⟨_, _, rfl, rfl, by decide⟩, _, _, rfl, rfl, by decide⟩

theorem witness_undefined_identifier_raises : ∀ ii ∈ ([0x0B, 0x0F, 0x25, 0x26, 0x2B, 0x2C, 0x47, 0x4F, 0x68, 0x6B, 0x7B,
      0x7C, 0x8A, 0x8F, 0x9C, 0x9F, 0xA8, 0xFF] : List Byte),
    let s := poke start 0x2000 [0x00, ii]
    deliver s = .ok s ∧ s.stopf = false ∧ s.haltf = false ∧ s.selectedVector = none ∧ s.peek s.pc = some 0x00 ∧
      s.peek (s.pc + 1) = some ii ∧
      ((0x0B ≤ ii.toNat ∧ ii.toNat ≤ 0x0F) ∨ ii ∈ ([0x25, 0x26, 0x2B, 0x2C, 0x7B, 0x7C] : List Byte) ∨ (0x47 ≤ ii.toNat ∧ ii.toNat ≤ 0x4F) ∨
        (0x68 ≤ ii.toNat ∧ ii.toNat ≤ 0x6B) ∨ (0x8A ≤ ii.toNat ∧ ii.toNat ≤ 0x8F) ∨
        (0x9C ≤ ii.toNat ∧ ii.toNat ≤ 0x9F) ∨ 0xA8 ≤ ii.toNat) := fun ii mem =>
  ⟨rfl, by revert ii; decide⟩

theorem witness_refused_fetch_raises_first_byte :
    let s := onBus 0x2000 0x2000 .refuse .memory
    deliver s = .ok s ∧ s.stopf = false ∧ s.haltf = false ∧ s.selectedVector = none ∧ s.platform.readPolicy s.pc = .refuse :=
  ⟨rfl, by decide⟩

theorem witness_refused_fetch_raises_second_byte :
    let s := poke (onBus 0x2001 0x2001 .refuse .memory) 0x2000 [0x10]
    deliver s = .ok s ∧ s.stopf = false ∧ s.haltf = false ∧ s.selectedVector = none ∧ s.peek s.pc = some 0x10 ∧
      s.platform.readPolicy (s.pc + 1) = .refuse :=
  ⟨rfl, by decide⟩

theorem witness_refused_fetch_raises_immediate :
    let s := poke (onBus 0x2002 0x2005 .refuse .memory) 0x2000 [0x10, 0x11]
    deliver s = .ok s ∧ s.stopf = false ∧ s.haltf = false ∧ s.selectedVector = none ∧ s.peek s.pc = some 0x10 ∧
      s.peek (s.pc + 1) = some 0x11 ∧ s.ReadRefusedAt (s.pc + 2) (immLength 0x11) 0 :=
  ⟨rfl, rfl, rfl, by decide, by decide, by decide, by decide, fun _ lt => absurd lt (Nat.not_lt_zero _), by decide⟩

theorem witness_refused_fetch_raises_last_immediate :
    let s := poke (onBus 0x2005 0x2005 .refuse .memory) 0x2000 [0x10, 0x11]
    deliver s = .ok s ∧ s.stopf = false ∧ s.haltf = false ∧ s.selectedVector = none ∧ s.peek s.pc = some 0x10 ∧
      s.peek (s.pc + 1) = some 0x11 ∧ s.ReadRefusedAt (s.pc + 2) (immLength 0x11) 3 :=
  ⟨rfl, rfl, rfl, by decide, by decide, by decide, by decide, fun j lt => answered (by revert j; decide), by decide⟩

theorem witness_stopped_and_halted_frames :
    (let s : State := { start with stopf := true }; deliver s = .ok s ∧ s.stopf = true) ∧
    (let s : State := { start with haltf := true, irq := 2 };
      deliver s = .ok s ∧ s.stopf = false ∧ s.haltf = true ∧ s.ie &&& s.irq = 0) ∧
    (let s : State := { start with haltf := true, ie := 0x80000001, irq := 0x80000000 };
      deliver s = .ok s ∧ s.stopf = false ∧ s.haltf = true ∧ s.ie &&& s.irq ≠ 0 ∧ s.ime = false ∧ s.irq.getLsbD 0 = false) :=
  ⟨⟨rfl, rfl⟩, ⟨rfl, by decide⟩, rfl, by decide⟩

/-- A frame before which an empty batch is due, and one before which moves are due, with later batches queued: what the
statements about a step ask of the environment. -/
theorem witness_batches_before_a_frame :
    (let s : State := { start with env := [[], [.reset]] }; deliver s = .ok { s with env := [[.reset]] }) ∧
    (let s : State := { start with haltf := true, env := [[.writeIe 6, .requestIrq 2], [.reset]] };
      let t : State := { s with ie := 7, irq := 4, env := [[.reset]] };
      deliver s = .ok t ∧ t.stopf = false ∧ t.haltf = true ∧ t.ie &&& t.irq ≠ 0 ∧ t.ime = false ∧ t.irq.getLsbD 0 = false) :=
  ⟨rfl, rfl, by decide⟩

theorem witness_lowest_ready_vector_is_selected :
    (let s : State := { start with ime := true, ie := 0x8000000D, irq := 0x8000000C }; s.selectedVector = some 2) ∧
    (let s : State := { start with ime := true, ie := 0x80000001, irq := 0x80000000 }; s.selectedVector = some 31) ∧
    (let s : State := { start with irq := 0x00000001 }; s.selectedVector = some 0) ∧
    (let s : State := { start with ie := 0xFFFFFFFF, irq := 0xFFFFFFFE }; s.selectedVector = none) := by decide

theorem witness_interrupt_is_serviced_then_handler_runs : ∀ halted : Bool,
    let s : State := { start with haltf := halted, ime := true, ie := 0x80000001, irq := 0x80000000 }
    deliver s = .ok s ∧ s.stopf = false ∧ s.selectedVector = some 31 ∧ s.mem.wf = true ∧ s.StackTakes := by
  unfold State.StackTakes State.Takes
  exact fun halted => ⟨rfl, by revert halted; decide⟩

/-- A stack that the bus ignores in part: bytes 1 and 2 of a push are not stored. -/
theorem witness_ignored_stack_bytes : (onBus 0x8000FFFD 0x8000FFFE .memory .ignore).StackTakes := by
  unfold State.StackTakes State.Takes
  decide

theorem witness_raise_enters_the_handler :
    (.invalidInstruction, 0x01) ∈ exceptionTable ∧ (0x01 : Byte) ≠ 0x00 ∧ (0x01 : Byte) ≠ 0x0A ∧
      (.hardwareError, 0x09) ∈ exceptionTable ∧ (0x09 : Byte) ≠ 0x00 ∧ (0x09 : Byte) ≠ 0x0A ∧
      start.ec = 0 ∧ start.mem.wf = true ∧ start.StackTakes := by
  unfold State.StackTakes State.Takes
  decide

theorem witness_double_faults :
    (let s : State := { start with ec := 0x01 }; Exc.doubleFault ≠ .ok ∧ Exc.stackOverflow ≠ .ok ∧ s.ec ≠ 0) ∧
    (let s := onBus 0x8000FFFF 0x8000FFFF .memory .refuse;
      Exc.invalidWriteAccess ≠ .ok ∧ Exc.invalidWriteAccess ≠ .doubleFault ∧ s.ec = 0 ∧
        s.platform.writePolicy (pushAddress s.sp 1) = .refuse) := by decide

/-- The push that enters vector 0 refused at its last byte. -/
theorem witness_double_faults_later_byte :
    let s := onBus 0x8000FFFC 0x8000FFFC .memory .refuse
    Exc.invalidWriteAccess ≠ .ok ∧ Exc.invalidWriteAccess ≠ .doubleFault ∧ s.ec = 0 ∧ s.mem.wf = true ∧ s.PushRefusedAt 3 := by
  refine ⟨by decide, by decide, by decide, by decide, by decide, ?_, by decide⟩
  unfold State.Takes
  decide

theorem witness_only_reset_leaves_a_double_fault :
    let s : State := { start with df := true, stopf := true, env := [[.clearStop, .raise 0x09, .requestIrq 3]] }
    s.df = true ∧ s.stopf = true ∧ (∀ batch, s.env.head? = some batch → EnvMove.reset ∉ batch) ∧
      step s = .next { s with irq := 0x00000008, env := [] } := by
  refine ⟨rfl, rfl, fun batch h => ?_, rfl⟩
  obtain rfl := Option.some.inj h
  decide

theorem witness_undefined_arguments_raise :
    7 ≤ (7 : Nibble).toNat ∧ 7 ≤ (15 : Nibble).toNat ∧ 0x20 ≤ (0x20 : Byte).toNat ∧ 0x20 ≤ (0xFF : Byte).toNat ∧
      8 ≤ (8 : Nibble).toNat ∧ 8 ≤ (15 : Nibble).toNat := by decide

theorem witness_stores_to_the_read_only_half_raise :
    (0x7FFFFFFF : Word).msb = false ∧ storeAddress (.stAbsW 0x7FFFFFFF 1) start = some 0x7FFFFFFF ∧
      (0 : Word).msb = false ∧ storeAddress (.stIndL 1 0) start = some 0 ∧
      modifyAddress (.incM 1) (start.setD 1 0x7FFFFFFF) = some 0x7FFFFFFF ∧ modifyAddress (.togM 1 7) start = some 0 ∧
      start.peek 0x7FFFFFFF = some 0xFF ∧ start.peek 0 = some 0xFF := by decide

theorem witness_stores_past_the_top_are_partial :
    (start.setD 1 0xFFFFFFFF).platform.writePolicy 0xFFFFFFFF = .memory ∧ (start.setD 1 0xFFFFFFFF).getD 1 = 0xFFFFFFFF ∧
      start.mem.wf = true ∧ storeOperand (.stAbsW 0xFFFFFFFF 2) start = some (0xFFFFFFFF, 2, 0) ∧
      storeOperand (.stAbsL 0 2) start = some (0, 1, 0) := by decide

/-- A store refused by the CPU's own check at its second byte and at its first, and `SSP` refused by the virtual hardware at
its last. -/
theorem witness_stores_refused_at_a_byte :
    start.WriteRefusedAt 0xFFFFFFFF 2 1 ∧ start.WriteRefusedAt 0 1 0 ∧
      (let s := onBus 0x90000003 0x90000003 .memory .refuse;
        storeOperand (.ssp 0x90000000) s = some (0x90000000, 4, 0x80010000) ∧ s.WriteRefusedAt 0x90000000 4 3) := by
  refine ⟨⟨by decide, ?_, .inl (by decide)⟩, ⟨by decide, ?_, .inl (by decide)⟩, by decide, by decide, ?_, .inr (by decide)⟩
  all_goals
    unfold State.TakesAll State.Takes
    decide

theorem witness_bus_answers_one_byte :
    start.platform.readPolicy 0 = .memory ∧ start.platform.readPolicy 0xFFFFFFFF = .memory ∧
      (onBus 0x90000000 0x90000000 .openBus .memory).platform.readPolicy 0x90000000 = .openBus ∧
      (onBus 0 0 .refuse .memory).platform.readPolicy 0 = .refuse ∧ (0x7FFFFFFF : Word).msb = false ∧ (0x80000000 : Word).msb = true ∧
      start.platform.writePolicy 0x80000000 = .memory ∧ start.mem.wf = true ∧
      (onBus 0x80000000 0x80000000 .memory .ignore).platform.writePolicy 0x80000000 = .ignore ∧
      (onBus 0x80000000 0x80000000 .memory .refuse).platform.writePolicy 0x80000000 = .refuse := by decide

/-- Reads of data that are answered at every byte, and one that is refused. -/
theorem witness_bus_answers_reads :
    (readOperand (.ldDAbs 2 0xFFFFFFFE) loaded = some (0xFFFFFFFE, 4) ∧
      readBytes 4 0xFFFFFFFE loaded = .done [0xAA, 0xBB, 0xCC, 0xDD] loaded ∧
      immediateForm (.ldDAbs 2 0xFFFFFFFE) (joinBytes [0xAA, 0xBB, 0xCC, 0xDD]) = some (.ldDImm 2 0xDDCCBBAA)) ∧
    (readOperand (.bitM 1 7) loaded = some (0x80001000, 1) ∧ readBytes 1 0x80001000 loaded = .done [0x78] loaded ∧
      ∃ u, exec (.bitL 1 7) (loaded.setL 1 ((joinBytes [0x78]).setWidth 8)) = .next u) ∧
    (let s := onBus 0 0 .refuse .memory;
      readOperand (.ldWAbs 2 0xFFFFFFFF) s = some (0xFFFFFFFF, 2) ∧ readBytes 2 0xFFFFFFFF s = .raised .invalidReadAccess s) :=
  ⟨⟨rfl, rfl, by decide⟩, ⟨by decide, rfl, _, rfl⟩, rfl, rfl⟩

/-- Writes of data, completed and refused. -/
theorem witness_bus_answers_writes :
    (storeOperand (.stAbsL 0x80000000 2) start = some (0x80000000, 1, 0) ∧ ∃ t, writeBytes 1 0x80000000 0 start = .done () t) ∧
    (storeOperand (.stAbsW 0xFFFFFFFF 2) start = some (0xFFFFFFFF, 2, 0) ∧ ∃ e t, writeBytes 2 0xFFFFFFFF 0 start = .raised e t) :=
  ⟨⟨by decide, _, rfl⟩, by decide, _, _, rfl⟩

/-- A read-modify-write that is stored, one that is refused after its read, and one whose write is ignored. -/
theorem witness_bus_answers_modifications :
    (modifyAddress (.incM 1) loaded = some 0x80001000 ∧ registerForm (.incM 1) = some (1, .incL 1) ∧
      busRead 0x80001000 loaded = .done 0x78 loaded ∧
      ∃ u, exec (.incL 1) (loaded.setL 1 0x78) = .next u ∧ ∃ w, busWrite 0x80001000 (u.getL 1) loaded = .done () w) ∧
    (modifyAddress (.togM 2 7) start = some 0 ∧ registerForm (.togM 2 7) = some (2, .togL 2 7) ∧ busRead 0 start = .done 0xFF start ∧
      ∃ u, exec (.togL 2 7) (start.setL 2 0xFF) = .next u ∧ ∃ e w, busWrite 0 (u.getL 2) start = .raised e w) ∧
    (let s := (onBus 0x80000000 0x80000000 .memory .ignore).setD 1 0x80000000;
      modifyAddress (.incM 1) s = some 0x80000000 ∧ s.peek 0x80000000 = some 0xFF ∧ (0x80000000 : Word).msb = true ∧
        s.platform.writePolicy 0x80000000 = .ignore ∧ ∃ u, exec (.incL 1) (s.setL 1 0xFF) = .next u) :=
  ⟨⟨by decide, rfl, rfl, _, rfl, _, rfl⟩, ⟨by decide, rfl, rfl, _, rfl, _, _, rfl⟩, by decide, by decide, by decide, by decide, _, rfl⟩

/-- First writes refused by the CPU's own check and by the virtual hardware. -/
theorem witness_first_writes_refused :
    start.RefusesWrite 0x7FFFFFFF ∧ storeAddress (.stAbsD 0x7FFFFFFF 2) start = some 0x7FFFFFFF ∧
      (let s := (onBus 0xFFFFFFFF 0xFFFFFFFF .memory .refuse).setD 1 0xFFFFFFFF;
        s.RefusesWrite 0xFFFFFFFF ∧ storeAddress (.stIndW 1 2) s = some 0xFFFFFFFF ∧
          modifyAddress (.incM 1) s = some 0xFFFFFFFF ∧ s.peek 0xFFFFFFFF = some 0xFF) :=
  ⟨.inl (by decide), by decide, .inr (by decide), by decide⟩

/-- A read-modify-write on open bus, its write stored, and one whose write is refused. -/
theorem witness_open_bus_modifications :
    (let s := (onBus 0x90000003 0x90000003 .openBus .memory).setD 1 0x90000003;
      modifyAddress (.incM 1) s = some 0x90000003 ∧ registerForm (.incM 1) = some (1, .incL 1) ∧
        s.platform.readPolicy 0x90000003 = .openBus ∧
        ∃ u, exec (.incL 1) (s.setL 1 0xFF) = .next u ∧ ∃ w, busWrite 0x90000003 (u.getL 1) s = .done () w) ∧
    (let s := (onBus 0x90000003 0x90000003 .openBus .refuse).setD 1 0x90000003;
      modifyAddress (.incM 1) s = some 0x90000003 ∧ s.platform.readPolicy 0x90000003 = .openBus ∧
        ∃ u, exec (.incL 1) (s.setL 1 0xFF) = .next u ∧ ∃ e w, busWrite 0x90000003 (u.getL 1) s = .raised e w) :=
  ⟨⟨by decide, rfl, by decide, _, rfl, _, rfl⟩, by decide, by decide, _, rfl, _, _, rfl⟩

/-- Open bus at every byte of a load and of `BIT`, and an ignored write at every byte of `SSP`. -/
theorem witness_open_bus_and_ignored :
    (let s := (onBus 0x90000000 0x90000003 .openBus .ignore).setD 1 0x90000003;
      readOperand (.ldDAbs 2 0x90000000) s = some (0x90000000, 4) ∧
        (∀ k, k < 4 → s.platform.readPolicy (0x90000000 + BitVec.ofNat 32 k) = .openBus) ∧
        immediateForm (.ldDAbs 2 0x90000000) 0xFFFFFFFF = some (.ldDImm 2 0xFFFFFFFF) ∧
        readOperand (.bitM 1 0) s = some (0x90000003, 1) ∧
        (∀ k, k < 1 → s.platform.readPolicy (0x90000003 + BitVec.ofNat 32 k) = .openBus) ∧
        storeOperand (.ssp 0x90000000) s = some (0x90000000, 4, 0x80010000) ∧
        ∀ k, k < 4 → (0x90000000 + BitVec.ofNat 32 k : Word).msb = true ∧
          s.platform.writePolicy (0x90000000 + BitVec.ofNat 32 k) = .ignore) := by decide

/-- Reads refused at their only byte, for a load, an accumulator operation, `BIT` and a read-modify-write. -/
theorem witness_reads_refused :
    let s := (onBus 0x90000000 0x90000000 .refuse .memory).setD 1 0x90000000
    (∀ i ∈ [Instr.ldLAbs 2 0x90000000, .cmpInd 1, .bitM 1 7, .rrcM 1], readOperand i s = some (0x90000000, 1)) ∧
      s.ReadRefusedAt 0x90000000 1 0 :=
  ⟨by decide, by decide, fun _ lt => absurd lt (Nat.not_lt_zero _), by decide⟩

/-- A 32-bit load refused at its last byte, the address wrapping. -/
theorem witness_reads_refused_at_a_later_byte :
    let s := onBus 0x00000001 0x00000001 .refuse .memory
    readOperand (.ldDAbs 2 0xFFFFFFFE) s = some (0xFFFFFFFE, 4) ∧ s.ReadRefusedAt 0xFFFFFFFE 4 3 :=
  ⟨by decide, by decide, fun j lt => answered (by revert j; decide), by decide⟩

theorem witness_device_windows :
    let s := (onBus 0xFFFFFF00 0xFFFFFFFF .device .device).setD 1 0xFFFFFFFF
    s.platform.readPolicy 0xFFFFFFFF = .device ∧ readOperand (.ldpLAbs 2 0xFF) s = some (0xFFFFFFFF, 1) ∧
      immediateForm (.ldpLAbs 2 0xFF) ((0x12 : Byte).setWidth 32) = some (.ldLImm 2 0x12) ∧
      readOperand (.ldWInd 2 1) s = some (0xFFFFFFFF, 2) ∧ (0xFFFFFFFF : Word).msb = true ∧
      s.platform.writePolicy 0xFFFFFFFF = .device ∧ storeOperand (.stpIndL 1 2) s = some (0xFFFFFFFF, 1, 0) := by decide

theorem witness_system_register_windows : ∀ r ∈ [SysReg.ie, .irq, .ec],
    let s := onBus 0xFFFFFFF0 0xFFFFFFF4 (.sysReg r) (.sysReg r)
    (s.platform.regionOffset 0xFFFFFFF0 = 0 ∧ s.platform.readPolicy 0xFFFFFFF0 = .sysReg r ∧ (0xFFFFFFF0 : Word).msb = true ∧
      s.platform.writePolicy 0xFFFFFFF0 = .sysReg r ∧ readOperand (.ldqLAbs 2 0xFFF0) s = some (0xFFFFFFF0, 1) ∧
      storeOperand (.stqAbsL 0xFFF0 2) s = some (0xFFFFFFF0, 1, 0)) ∧
    (s.platform.regionOffset 0xFFFFFFF3 = 3 ∧ s.platform.readPolicy 0xFFFFFFF3 = .sysReg r ∧
      s.platform.writePolicy 0xFFFFFFF3 = .sysReg r) ∧
    (s.platform.regionOffset 0xFFFFFFF4 = 4 ∧ s.platform.readPolicy 0xFFFFFFF4 = .sysReg r ∧
      s.platform.writePolicy 0xFFFFFFF4 = .sysReg r) := by decide

theorem witness_environment_moves :
    (let s : State := { start with stopf := true }; s.stopf = true ∧ (0x0A : Byte).toNat ≤ 0x0A) ∧ start.stopf = false ∧
      0x0B ≤ (0x0B : Byte).toNat ∧ (let s : State := { start with df := true }; s.df = true) ∧ start.df = false ∧
      start.mem.wf = true ∧ start.env = [] := by decide

/-- A batch that is delivered, in its order, and one that is refused. -/
theorem witness_environment_batches :
    (let s : State := { start with env := [[.writeIe 0, .writeIe 6], [.reset]] };
      s.env = [.writeIe 0, .writeIe 6] :: [[.reset]] ∧ deliver s = .ok { start with ie := 7, env := [[.reset]] }) ∧
    (let s : State := { start with env := [[.raise 0x0B]] }; deliver s = .error (.undefinedExceptionCode 0x0B)) :=
  ⟨⟨rfl, rfl⟩, rfl⟩

theorem witness_hardware_reset : loaded.mem.wf = true := by decide

theorem witness_every_step_keeps_the_invariant : ∃ s t : State, s.Inv ∧ step s = .next t :=
  ⟨State.reset, _, ⟨by decide, by decide, by decide, by decide, by decide⟩, rfl⟩

theorem witness_read_only_half_is_never_written :
    let s := poke start 0x2000 [0x00, 0x00]
    s.mem.wf = true ∧ deliver s = .ok s ∧ (∃ t, step s = .next t) ∧ (0x7FFFFFFF : Word).msb = false :=
  ⟨by decide, rfl, ⟨_, rfl⟩, by decide⟩

theorem witness_no_instruction_writes_ie_or_requests :
    (∀ a r, start.platform.writePolicy a ≠ .sysReg r) ∧ ∃ t, exec .nop start = .next t :=
  ⟨fun _ _ h => WritePolicy.noConfusion h, _, rfl⟩

theorem witness_only_reti_and_exceptions_write_ec :
    (∃ t, exec .reti { start with ec := 0x04 } = .next t) ∧ ∃ t, exec (.int 0x20) start = .next t := ⟨⟨_, rfl⟩, _, rfl⟩

theorem witness_flag_columns : (∃ t, exec .scf start = .next t) ∧ ∃ t, exec (.bitL 0 8) start = .next t := ⟨⟨_, rfl⟩, _, rfl⟩

theorem witness_add_then_daa_adds_decimals :
    let s := start.setD 0 0x99
    let t := promote s.imp (accumulateL aluAdd 0x99 s)
    (s.getL 0).toNat = 99 / 10 * 16 + 99 % 10 ∧ (0x99 : Byte).toNat = 99 / 10 * 16 + 99 % 10 ∧ exec (.addLImm 0x99) s = .next t ∧
      ∃ u, exec .daa t = .next u :=
  ⟨by decide, by decide, rfl, _, rfl⟩

theorem witness_byte_loads :
    loaded.Holds (0x80001000 : Word) 1 (0x78 : Byte) ∧ loaded.Holds (loaded.getD 1) 1 (0x78 : Byte) ∧ loaded.Holds (quickAddress 0xFFFE) 1 (0xAA : Byte) ∧
      loaded.Holds (quickAddress (loaded.getW 0)) 1 (0xFF : Byte) ∧ loaded.Holds (portAddress 0xFF) 1 (0xBB : Byte) ∧
      loaded.Holds (portAddress (loaded.getL 0)) 1 (0xFF : Byte) := by
  unfold State.Holds
  decide

theorem witness_wide_loads :
    loaded.Holds (0x80001000 : Word) 2 (0x5678 : Half) ∧ loaded.Holds (loaded.getD 1) 2 (0x5678 : Half) ∧ loaded.Holds (quickAddress 0xFFFF) 2 (0xCCBB : Half) ∧
      loaded.Holds (quickAddress (loaded.getW 1)) 2 (0xFFFF : Half) ∧ loaded.Holds (0xFFFFFFFE : Word) 4 (0xDDCCBBAA : Word) ∧
      loaded.Holds (loaded.getD 1) 4 (0x12345678 : Word) ∧ loaded.Holds (quickAddress 0xFFFE) 4 (0xDDCCBBAA : Word) ∧
      loaded.Holds (quickAddress (loaded.getW 1)) 4 (0xFFFFFFFF : Word) := by
  unfold State.Holds
  decide

theorem witness_byte_stores :
    loaded.mem.wf = true ∧ loaded.TakesAll (0x80000000 : Word) 1 ∧ loaded.TakesAll (loaded.getD 1) 1 ∧ loaded.TakesAll (quickAddress 0xFFFF) 1 ∧
      loaded.TakesAll (quickAddress (loaded.getW 1)) 1 ∧ loaded.TakesAll (portAddress 0xFF) 1 ∧ loaded.TakesAll (portAddress (loaded.getL 1)) 1 := by
  unfold State.TakesAll State.Takes
  decide

theorem witness_wide_stores :
    loaded.mem.wf = true ∧ loaded.TakesAll (0xFFFFFFFE : Word) 2 ∧ loaded.TakesAll (loaded.getD 1) 2 ∧ loaded.TakesAll (quickAddress 0xFFFE) 2 ∧
      loaded.TakesAll (quickAddress (loaded.getW 1)) 2 ∧ loaded.TakesAll (0x80000000 : Word) 4 ∧ loaded.TakesAll (loaded.getD 1) 4 ∧
      loaded.TakesAll (quickAddress 0xFFFC) 4 ∧ loaded.TakesAll (quickAddress (loaded.getW 1)) 4 ∧ loaded.TakesAll (0xFFFFFFFC : Word) 4 := by
  unfold State.TakesAll State.Takes
  decide

theorem witness_stack_pointer_writes :
    (Instr.lsp 0x00001000 = .lsp 0x00001000) ∧ ∃ y, Instr.spi 1 = .spi y ∧ (0x80001000 : Word) = loaded.getD y :=
  ⟨rfl, 1, rfl, by decide⟩

theorem witness_push_and_pop :
    start.mem.wf = true ∧ start.StackTakes ∧ loaded.sp.msb = true ∧ loaded.StackHolds 0x04030201 := by
  unfold State.StackTakes State.Takes State.StackHolds
  decide

theorem witness_pop_after_push_restores :
    start.mem.wf = true ∧ start.sp.msb = true ∧
      (∀ k, k < 4 → start.platform.readPolicy (pushAddress start.sp (k + 1)) = .memory ∧
        start.platform.writePolicy (pushAddress start.sp (k + 1)) = .memory) ∧ ∃ t, exec (.push 2) start = .next t :=
  ⟨by decide, by decide, by decide, _, rfl⟩

theorem witness_refused_stack_bytes :
    (onBus 0x8000FFFF 0x8000FFFF .memory .refuse).platform.writePolicy (pushAddress start.sp 1) = .refuse ∧
      (0x0, true) ∈ conditionTable start.flags ∧ (0x1F : Byte).toNat ≤ 0x1F := by decide

theorem witness_refused_pushes :
    (onBus 0x8000FFFF 0x8000FFFF .memory .refuse).PushRefusedAt 0 ∧ (onBus 0x8000FFFC 0x8000FFFC .memory .refuse).PushRefusedAt 3 ∧
      (let s := { onBus 0x8000FFFD 0x8000FFFD .memory .refuse with ime := true, ie := 0x80000001, irq := 0x80000000 };
        s.mem.wf = true ∧ s.PushRefusedAt 2 ∧ deliver s = .ok s ∧ s.stopf = false ∧ s.selectedVector = some 31) := by
  refine ⟨⟨by decide, ?_, by decide⟩, ⟨by decide, ?_, by decide⟩, by decide, ⟨by decide, ?_, by decide⟩, rfl, rfl, by decide⟩
  all_goals
    unfold State.Takes
    decide

/-- Pushes and pops byte by byte: completed and refused, with none being handled. -/
theorem witness_stack_accesses :
    (∃ t, stackWrite 4 (start.getD 2) start = .done () t) ∧ (∃ t, stackWrite 4 start.pc start = .done () t) ∧
      (∃ t, stackWrite 4 start.pc (acknowledge 31 start) = .done () t) ∧ start.ec = 0 ∧
      (∃ t, stackWrite 4 start.pc (acknowledge 0 { start with ec := 0x09 }) = .done () t) ∧
      (∃ t, stackRead 4 loaded = .done [1, 2, 3, 4] t) ∧
      (let s := onBus 0x8000FFFC 0x8000FFFC .memory .refuse;
        (∃ e t, stackWrite 4 (s.getD 2) s = .raised e t) ∧ (∃ e t, stackWrite 4 s.pc s = .raised e t) ∧
          (∃ e t, stackWrite 4 s.pc (acknowledge 31 s) = .raised e t) ∧
          ∃ e t, stackWrite 4 s.pc (acknowledge 0 { s with ec := 0x09 }) = .raised e t) ∧
      ∃ e t, stackRead 4 (onBus 0x80010003 0x80010003 .refuse .memory) = .raised e t :=
  ⟨⟨_, rfl⟩, ⟨_, rfl⟩, ⟨_, rfl⟩, rfl, ⟨_, rfl⟩, ⟨_, rfl⟩, ⟨⟨_, _, rfl⟩, ⟨_, _, rfl⟩, ⟨_, _, rfl⟩, _, _, rfl⟩, _, _, rfl⟩

theorem witness_refused_pops :
    (onBus 0x80010000 0x80010000 .refuse .memory).PopRefusedAt 0 ∧ (onBus 0x80010003 0x80010003 .refuse .memory).PopRefusedAt 3 :=
  ⟨⟨by decide, fun _ lt => absurd lt (Nat.not_lt_zero _), by decide⟩, by decide, fun j lt => answered (by revert j; decide), by decide⟩

theorem witness_jumps : (0x0, true) ∈ conditionTable start.flags ∧ (0x1, false) ∈ conditionTable start.flags ∧
    (0x6, true) ∈ conditionTable start.flags := by decide

theorem witness_calls :
    (0x5, false) ∈ conditionTable start.flags ∧ (0x0, true) ∈ conditionTable start.flags ∧ (0x6, true) ∈ conditionTable start.flags ∧
      (0x1F : Byte).toNat ≤ 0x1F ∧ start.mem.wf = true ∧ start.StackTakes := by
  unfold State.StackTakes State.Takes
  decide

theorem witness_returns :
    loaded.sp.msb = true ∧ (0x3, false) ∈ conditionTable loaded.flags ∧ (0x4, true) ∈ conditionTable loaded.flags ∧
      loaded.StackHolds 0x04030201 := by
  unfold State.StackHolds
  decide

/-- For the statements whose memory form is `OP L0, [DY]`: `byte_additions`, `byte_subtractions`, `compares`, `logic`. -/
theorem witness_accumulator_operations : loaded.Holds (loaded.getD 1) 1 (0x78 : Byte) := by
  unfold State.Holds
  decide

/-- For the statements whose memory form is `OP [DX]`: `byte_increments`, `complement`, `shifts`, `swaps`, `rotates`. -/
theorem witness_byte_operations :
    loaded.mem.wf = true ∧ loaded.Holds (loaded.getD 1) 1 (0x78 : Byte) ∧ loaded.Takes (loaded.getD 1) := by
  unfold State.Holds State.Takes
  decide

theorem witness_bit_tests_and_changes :
    (7 : Nibble).toNat ≤ 7 ∧ (0 : Nibble).toNat ≤ 7 ∧ loaded.mem.wf = true ∧ loaded.Holds (loaded.getD 1) 1 (0x78 : Byte) ∧
      loaded.Takes (loaded.getD 1) := by
  unfold State.Holds State.Takes
  decide

/-- For `acknowledge_clears_request_ime_and_halt` and `vector_addresses`. -/
theorem witness_vectors : 0 < 32 ∧ 31 < 32 := by decide

theorem witness_power_and_interrupt_control : Instr.nop ∈ [Instr.nop, .stop, .halt, .di, .ei, .eii] ∧
    Instr.eii ∈ [Instr.nop, .stop, .halt, .di, .ei, .eii] := by decide

end Sys2Proof.Tests
end

/-! Acknowledging an interrupt (R504) and the table of vector addresses (R506). -/

namespace Sys2Proof.Machine

/-! ### Acknowledge (R504) -/

/-- Masking with the complement of `1 <<< i` clears bit `i` and keeps every other bit, at every width. -/
theorem getLsbD_and_not_one_shiftLeft {w : Nat} (v : BitVec w) (i k : Nat) :
    (v &&& ~~~(1#w <<< i)).getLsbD k = (v.getLsbD k && decide (k ≠ i)) := by
  rw [← BitVec.twoPow_eq, BitVec.getLsbD_and, BitVec.getLsbD_not, BitVec.getLsbD_twoPow]
  by_cases lt : k < w
  · by_cases eq : i = k
    · simp [eq, lt]
    · simp [eq, lt, Ne.symm eq]
  · have beyond : v.getLsbD k = false := BitVec.getLsbD_of_ge v k (Nat.le_of_not_lt lt)
    simp [beyond]

theorem getLsbD_acknowledge_irq (i : Nat) (s : State) (k : Nat) :
    (acknowledge i s).irq.getLsbD k = (s.irq.getLsbD k && decide (k ≠ i)) := by
  rw [acknowledge_irq]
  exact getLsbD_and_not_one_shiftLeft s.irq i k

theorem acknowledge_registersKept (i : Nat) (s : State) : RegistersKept s (acknowledge i s) :=
  acknowledge_getD i s

theorem acknowledge_pointersKept (i : Nat) (s : State) : PointersKept s (acknowledge i s) :=
  ⟨acknowledge_pc i s, acknowledge_sp i s⟩

theorem acknowledge_memoryKept (i : Nat) (s : State) : MemoryKept s (acknowledge i s) := fun a => by
  rw [acknowledge_mem]

theorem acknowledge_outsideKept (i : Nat) (s : State) : OutsideKept s (acknowledge i s) :=
  ⟨acknowledge_platform i s, acknowledge_env i s, acknowledge_fresh i s⟩

/-- Settles O9: the bit of `IRQ` by `getLsbD_acknowledge_irq`, everything else field by field. -/
theorem acknowledge_clears_request_ime_and_halt : Obligations.acknowledge_clears_request_ime_and_halt := by
  rintro s i - t rfl
  exact ⟨getLsbD_acknowledge_irq i s, acknowledge_ime i s, acknowledge_haltf i s,
    acknowledge_registersKept i s, acknowledge_flags i s, acknowledge_pointersKept i s,
    acknowledge_memoryKept i s, acknowledge_outsideKept i s,
    acknowledge_ie i s, acknowledge_imp i s, acknowledge_ec i s, acknowledge_stopf i s, acknowledge_df i s⟩

/-! ### Vector addresses (R506) -/

/-- No wrap modulo `2^32`: the offset of a vector below 32 is below `0x1000`. -/
theorem vectorAddress_toNat {i : Nat} (lt : i < 32) : (vectorAddress i).toNat = 0x1000 + i * 0x80 := by
  have base : Config.vectorBase.toNat = 0x1000 := by decide
  simp only [vectorAddress, Config.vectorStride, BitVec.toNat_add, BitVec.toNat_ofNat, base]
  omega

/-- The top of the last slot is `0x1FFF`. -/
theorem vectorAddress_slot_le {i : Nat} (lt : i < 32) : (vectorAddress i).toNat + 0x7F ≤ 0x1FFF := by
  have value := vectorAddress_toNat lt
  omega

/-- A vector lies in the read-only half, where bit 31 of an address is clear (R72). -/
theorem vectorAddress_msb {i : Nat} (lt : i < 32) : (vectorAddress i).msb = false := by
  have below := vectorAddress_slot_le lt
  rw [BitVec.msb_eq_false_iff_two_mul_lt]
  omega

/-- Settles O10: the address, its slot and its half from `vectorAddress_toNat`; the four printed addresses by evaluation. -/
theorem vector_addresses : Obligations.vector_addresses := fun _ lt =>
  ⟨vectorAddress_toNat lt, vectorAddress_slot_le lt, vectorAddress_msb lt, by decide, by decide, by decide, by decide⟩

end Sys2Proof.Machine

/-! Decoding what was encoded, and what the identifier byte decides (spec/30_encoding.md R100 to R112). -/

namespace Sys2Proof.Machine

/-! ### Decoding an encoded instruction -/

theorem highField_append (x y : Nibble) : (x ++ y : Byte).extractLsb' 4 4 = x := by revert x y; decide

theorem lowField_append (x y : Nibble) : (x ++ y : Byte).extractLsb' 0 4 = y := by revert x y; decide

theorem fields_append (b : Byte) : b.extractLsb' 4 4 ++ b.extractLsb' 0 4 = b := by revert b; decide

theorem joinBytes_halfBytes (v : Half) : (joinBytes (halfBytes v)).setWidth 16 = v :=
  (joinBytes_two _ _).trans (joinHalf_bytes v)

theorem joinBytes_wordBytes (v : Word) : joinBytes (wordBytes v) = v :=
  (joinBytes_four _ _ _ _).trans (joinWord_bytes v)

open Laws in
/-- Every encoding has the shape that R102, R103 and R109 give it. -/
theorem encoding_statement : ∀ i : Instr, Encoding.Statement i
  | .nop => Encoding.nop | .stop => Encoding.stop | .halt => Encoding.halt | .di => Encoding.di | .ei => Encoding.ei
  | .eii => Encoding.eii | .daa => Encoding.daa | .scf => Encoding.scf | .ccf => Encoding.ccf | .clv => Encoding.clv
  | .sev => Encoding.sev | .ldLImm x imm => Encoding.ldLImm x imm | .ldLAbs x addr => Encoding.ldLAbs x addr
  | .ldLInd x y => Encoding.ldLInd x y | .ldqLAbs x off => Encoding.ldqLAbs x off
  | .ldqLInd x y => Encoding.ldqLInd x y | .ldpLAbs x off => Encoding.ldpLAbs x off
  | .ldpLInd x y => Encoding.ldpLInd x y | .stAbsL addr y => Encoding.stAbsL addr y
  | .stIndL x y => Encoding.stIndL x y | .stqAbsL off y => Encoding.stqAbsL off y
  | .stqIndL x y => Encoding.stqIndL x y | .stpAbsL off y => Encoding.stpAbsL off y
  | .stpIndL x y => Encoding.stpIndL x y | .mvLL x y => Encoding.mvLL x y | .mvHL x y => Encoding.mvHL x y
  | .mvLH x y => Encoding.mvLH x y | .ldWImm x imm => Encoding.ldWImm x imm | .ldWAbs x addr => Encoding.ldWAbs x addr
  | .ldWInd x y => Encoding.ldWInd x y | .ldqWAbs x off => Encoding.ldqWAbs x off
  | .ldqWInd x y => Encoding.ldqWInd x y | .stAbsW addr y => Encoding.stAbsW addr y
  | .stIndW x y => Encoding.stIndW x y | .stqAbsW off y => Encoding.stqAbsW off y
  | .stqIndW x y => Encoding.stqIndW x y | .mvWW x y => Encoding.mvWW x y | .mwh x y => Encoding.mwh x y
  | .mwl x y => Encoding.mwl x y | .ldDImm x imm => Encoding.ldDImm x imm | .ldDAbs x addr => Encoding.ldDAbs x addr
  | .ldDInd x y => Encoding.ldDInd x y | .ldqDAbs x off => Encoding.ldqDAbs x off
  | .ldqDInd x y => Encoding.ldqDInd x y | .lsp imm => Encoding.lsp imm | .pop x => Encoding.pop x
  | .stAbsD addr y => Encoding.stAbsD addr y | .stIndD x y => Encoding.stIndD x y
  | .stqAbsD off y => Encoding.stqAbsD off y | .stqIndD x y => Encoding.stqIndD x y | .ssp addr => Encoding.ssp addr
  | .push y => Encoding.push y | .mvDD x y => Encoding.mvDD x y | .spo x => Encoding.spo x | .spi y => Encoding.spi y
  | .jmpImm c target => Encoding.jmpImm c target | .jmpReg c y => Encoding.jmpReg c y
  | .jpb c off => Encoding.jpb c off | .call c target => Encoding.call c target | .int n => Encoding.int n
  | .ret c => Encoding.ret c | .reti => Encoding.reti | .addLImm imm => Encoding.addLImm imm
  | .addLReg y => Encoding.addLReg y | .addLInd y => Encoding.addLInd y | .adcLImm imm => Encoding.adcLImm imm
  | .adcLReg y => Encoding.adcLReg y | .adcLInd y => Encoding.adcLInd y | .subLImm imm => Encoding.subLImm imm
  | .subLReg y => Encoding.subLReg y | .subLInd y => Encoding.subLInd y | .sbcLImm imm => Encoding.sbcLImm imm
  | .sbcLReg y => Encoding.sbcLReg y | .sbcLInd y => Encoding.sbcLInd y | .incL x => Encoding.incL x
  | .incM x => Encoding.incM x | .decL x => Encoding.decL x | .decM x => Encoding.decM x
  | .addWImm imm => Encoding.addWImm imm | .addWReg y => Encoding.addWReg y | .addDImm imm => Encoding.addDImm imm
  | .addDReg y => Encoding.addDReg y | .subWImm imm => Encoding.subWImm imm | .subWReg y => Encoding.subWReg y
  | .subDImm imm => Encoding.subDImm imm | .subDReg y => Encoding.subDReg y | .incW x => Encoding.incW x
  | .incD x => Encoding.incD x | .decW x => Encoding.decW x | .decD x => Encoding.decD x
  | .andImm imm => Encoding.andImm imm | .andReg y => Encoding.andReg y | .andInd y => Encoding.andInd y
  | .orImm imm => Encoding.orImm imm | .orReg y => Encoding.orReg y | .orInd y => Encoding.orInd y
  | .xorImm imm => Encoding.xorImm imm | .xorReg y => Encoding.xorReg y | .xorInd y => Encoding.xorInd y
  | .notL x => Encoding.notL x | .notM x => Encoding.notM x | .cmpImm imm => Encoding.cmpImm imm
  | .cmpReg y => Encoding.cmpReg y | .cmpInd y => Encoding.cmpInd y | .slaL x => Encoding.slaL x
  | .slaM x => Encoding.slaM x | .sraL x => Encoding.sraL x | .sraM x => Encoding.sraM x | .srlL x => Encoding.srlL x
  | .srlM x => Encoding.srlM x | .swapL x => Encoding.swapL x | .swapM x => Encoding.swapM x
  | .swapW x => Encoding.swapW x | .swapD x => Encoding.swapD x | .rla => Encoding.rla | .rlL x => Encoding.rlL x
  | .rlM x => Encoding.rlM x | .rlca => Encoding.rlca | .rlcL x => Encoding.rlcL x | .rlcM x => Encoding.rlcM x
  | .rra => Encoding.rra | .rrL x => Encoding.rrL x | .rrM x => Encoding.rrM x | .rrca => Encoding.rrca
  | .rrcL x => Encoding.rrcL x | .rrcM x => Encoding.rrcM x | .bitL x b => Encoding.bitL x b
  | .bitM x b => Encoding.bitM x b | .setL x b => Encoding.setL x b | .setM x b => Encoding.setM x b
  | .resL x b => Encoding.resL x b | .resM x b => Encoding.resM x b | .togL x b => Encoding.togL x b
  | .togM x b => Encoding.togM x b

/-- The identifier of an encoding selects the constructor; its fields and its immediate give the operands back. -/
theorem exists_encode_build (i : Instr) :
    ∃ ii x y imm, encode i = opcode ii x y ++ imm ∧ build ii x y (joinBytes imm) = some i := by
  cases i with
  | ldLAbs | stAbsL | ldWAbs | stAbsW | ldDImm | ldDAbs | lsp | stAbsD | ssp | jmpImm | call | addDImm | subDImm =>
    exact ⟨_, _, _, wordBytes _, rfl, by rw [joinBytes_wordBytes]; rfl⟩
  | ldLImm x imm => exact ⟨_, _, _, [imm], rfl, congrArg (some <| Instr.ldLImm x ·) (joinBytes_one imm)⟩
  | ldpLAbs x off => exact ⟨_, _, _, [off], rfl, congrArg (some <| Instr.ldpLAbs x ·) (joinBytes_one off)⟩
  | addLImm imm => exact ⟨_, _, _, [imm], rfl, congrArg (some <| Instr.addLImm ·) (joinBytes_one imm)⟩
  | adcLImm imm => exact ⟨_, _, _, [imm], rfl, congrArg (some <| Instr.adcLImm ·) (joinBytes_one imm)⟩
  | subLImm imm => exact ⟨_, _, _, [imm], rfl, congrArg (some <| Instr.subLImm ·) (joinBytes_one imm)⟩
  | sbcLImm imm => exact ⟨_, _, _, [imm], rfl, congrArg (some <| Instr.sbcLImm ·) (joinBytes_one imm)⟩
  | andImm imm => exact ⟨_, _, _, [imm], rfl, congrArg (some <| Instr.andImm ·) (joinBytes_one imm)⟩
  | orImm imm => exact ⟨_, _, _, [imm], rfl, congrArg (some <| Instr.orImm ·) (joinBytes_one imm)⟩
  | xorImm imm => exact ⟨_, _, _, [imm], rfl, congrArg (some <| Instr.xorImm ·) (joinBytes_one imm)⟩
  | cmpImm imm => exact ⟨_, _, _, [imm], rfl, congrArg (some <| Instr.cmpImm ·) (joinBytes_one imm)⟩
  | stpAbsL off y => exact ⟨_, _, _, [off], rfl, congrArg (some <| Instr.stpAbsL · y) (joinBytes_one off)⟩
  | ldqLAbs x off => exact ⟨_, _, _, halfBytes off, rfl, congrArg (some <| Instr.ldqLAbs x ·) (joinBytes_halfBytes off)⟩
  | stqAbsL off y => exact ⟨_, _, _, halfBytes off, rfl, congrArg (some <| Instr.stqAbsL · y) (joinBytes_halfBytes off)⟩
  | ldWImm x imm => exact ⟨_, _, _, halfBytes imm, rfl, congrArg (some <| Instr.ldWImm x ·) (joinBytes_halfBytes imm)⟩
  | ldqWAbs x off => exact ⟨_, _, _, halfBytes off, rfl, congrArg (some <| Instr.ldqWAbs x ·) (joinBytes_halfBytes off)⟩
  | stqAbsW off y => exact ⟨_, _, _, halfBytes off, rfl, congrArg (some <| Instr.stqAbsW · y) (joinBytes_halfBytes off)⟩
  | ldqDAbs x off => exact ⟨_, _, _, halfBytes off, rfl, congrArg (some <| Instr.ldqDAbs x ·) (joinBytes_halfBytes off)⟩
  | stqAbsD off y => exact ⟨_, _, _, halfBytes off, rfl, congrArg (some <| Instr.stqAbsD · y) (joinBytes_halfBytes off)⟩
  | jpb c off => exact ⟨_, _, _, halfBytes off, rfl, congrArg (some <| Instr.jpb c ·) (joinBytes_halfBytes off)⟩
  | addWImm imm => exact ⟨_, _, _, halfBytes imm, rfl, congrArg (some <| Instr.addWImm ·) (joinBytes_halfBytes imm)⟩
  | subWImm imm => exact ⟨_, _, _, halfBytes imm, rfl, congrArg (some <| Instr.subWImm ·) (joinBytes_halfBytes imm)⟩
  | int n => exact ⟨_, _, _, [], rfl, congrArg (some <| Instr.int ·) (fields_append n)⟩
  | _ => exact ⟨_, _, _, [], (List.append_nil _).symm, rfl⟩

/-- An instruction whose unused fields are zero decodes alike with and without `STRICT_FIELDS`. -/
theorem decodeParts_of_build {lo ii : Byte} {imm : Word} {i : Instr} (unused : lo &&& ~~~fieldMask ii = 0)
    (h : build ii (lo.extractLsb' 4 4) (lo.extractLsb' 0 4) imm = some i) (strict : Bool) :
    decodeParts strict lo ii imm = .ok i := by
  simp [decodeParts, h, unused]

/-- With the whole immediate there, decoding looks at that many bytes and leaves the others. -/
theorem decode_append {lo ii : Byte} {imm rest : List Byte} (length : imm.length = immLength ii) (strict : Bool) :
    decode strict (lo :: ii :: (imm ++ rest)) = (decodeParts strict lo ii (joinBytes imm)).map fun i => (i, rest) := by
  simp [decode, ← length]

/-- Settles O1: the encoding has its shape (`encoding_statement`), and building from it gives the instruction back. -/
theorem decode_of_encode : Obligations.decode_of_encode := by
  intro strict i rest
  obtain ⟨lo, ii, imm, shape, length, unused⟩ := encoding_statement i
  obtain ⟨ii', x, y, imm', split, built⟩ := exists_encode_build i
  obtain ⟨rfl, rfl, rfl⟩ : lo = x ++ y ∧ ii = ii' ∧ imm = imm' := by
    simpa only [opcode, List.cons_append, List.nil_append, List.cons.injEq] using shape.symm.trans split
  rw [shape, List.cons_append, List.cons_append, decode_append length,
    decodeParts_of_build unused (by rwa [highField_append, lowField_append])]
  rfl

/-- Settles O2: each word evaluated by the decoder. -/
theorem written_words_decode : Obligations.written_words_decode :=
  ⟨rfl, rfl, rfl, rfl, rfl, rfl, rfl, rfl, rfl, rfl, rfl⟩

/-! ### What the identifier decides -/

/-- Whether an identifier has an instruction depends on it alone (R100). -/
theorem isSome_build (ii : Byte) (x y : Nibble) (imm : Word) : (build ii x y imm).isSome = (build ii 0 0 0).isSome := by
  simp only [build, buildControl, buildLoad8, buildLoad16, buildLoad32, buildBranch, buildArith8, buildArithWide,
    buildLogic8, buildShift, buildRotate, buildBit]
  split
  all_goals try split
  all_goals rfl

/-- The identifiers without an instruction (R111), as ranges of their values. -/
def UndefinedIdentifier (n : Nat) : Prop :=
  (0x0B ≤ n ∧ n ≤ 0x0F) ∨ n = 0x25 ∨ n = 0x26 ∨ n = 0x2B ∨ n = 0x2C ∨ (0x47 ≤ n ∧ n ≤ 0x4F) ∨ (0x68 ≤ n ∧ n ≤ 0x6B) ∨
    n = 0x7B ∨ n = 0x7C ∨ (0x8A ≤ n ∧ n ≤ 0x8F) ∨ (0x9C ≤ n ∧ n ≤ 0x9F) ∨ 0xA8 ≤ n

theorem build_zero_eq_none_iff : ∀ ii : Byte, build ii 0 0 0 = none ↔ UndefinedIdentifier ii.toNat := by
  unfold UndefinedIdentifier
  decide

theorem build_eq_none_iff (ii : Byte) (x y : Nibble) (imm : Word) :
    build ii x y imm = none ↔ UndefinedIdentifier ii.toNat := by
  rw [← build_zero_eq_none_iff, ← Option.isNone_iff_eq_none, ← Option.isNone_iff_eq_none, ← Option.not_isSome,
    ← Option.not_isSome, isSome_build]

theorem decodeParts_undefined {ii : Byte} (h : UndefinedIdentifier ii.toNat) (strict : Bool) (lo : Byte) (imm : Word) :
    decodeParts strict lo ii imm = .error (.undefinedIdentifier ii) := by
  simp only [decodeParts, (build_eq_none_iff ii _ _ imm).mpr h]

theorem immLength_le_four (ii : Byte) : immLength ii ≤ 4 := by
  unfold immLength
  split_ifs <;> decide

theorem opcode_mask_x (x y : Nibble) : (x ++ y : Byte) &&& 0xF0#8 = x ++ 0#4 := by revert x y; decide

theorem opcode_mask_y (x y : Nibble) : (x ++ y : Byte) &&& 0x0F#8 = 0#4 ++ y := by revert x y; decide

theorem opcode_mask_both (b : Byte) : b &&& 0xFF#8 = b := by revert b; decide

/-- The encoder emits the fields that carry an argument, and zeros in the others (R109). -/
theorem head_encode_build {ii : Byte} {x y : Nibble} {imm : Word} {i : Instr} (h : build ii x y imm = some i) :
    (encode i).head? = some ((x ++ y) &&& fieldMask ii) := by
  rw [← fields_append ii]
  simp only [build, buildControl, buildLoad8, buildLoad16, buildLoad32, buildBranch, buildArith8, buildArithWide,
    buildLogic8, buildShift, buildRotate, buildBit] at h
  generalize ii.extractLsb' 0 4 = op, ii.extractLsb' 4 4 = family at h ⊢
  split at h
  all_goals try split at h
  all_goals simp only [reduceCtorEq, Option.some.injEq] at h
  all_goals subst h
  all_goals simp [encode, opcode, fieldMask, opcode_mask_x, opcode_mask_y, opcode_mask_both, regField, fields_append]

theorem and_eq_self_iff (b m : Byte) : b &&& m = b ↔ b &&& ~~~m = 0 := by
  rw [BitVec.eq_of_getLsbD_eq_iff, BitVec.eq_of_getLsbD_eq_iff]
  refine forall_congr' fun k => forall_congr' fun lt => ?_
  rw [BitVec.getLsbD_and, BitVec.getLsbD_and, BitVec.getLsbD_not]
  cases b.getLsbD k <;> simp [lt]

theorem decodeParts_build {lo ii : Byte} {imm : Word} {i : Instr}
    (h : build ii (lo.extractLsb' 4 4) (lo.extractLsb' 0 4) imm = some i) (strict : Bool) :
    decodeParts strict lo ii imm =
      if strict = true ∧ (encode i).head? ≠ some lo then .error .unusedField else .ok i := by
  simp [decodeParts, h, head_encode_build h, fields_append, and_eq_self_iff]

/-- Settles O3: by `build_eq_none_iff` and `decodeParts_build`, the immediate being at most four bytes long. -/
theorem identifier_decides_the_length : Obligations.identifier_decides_the_length := by
  intro lo ii rest enough n
  have bytes (strict : Bool) : decode strict (lo :: ii :: rest) =
      (decodeParts strict lo ii (joinBytes (rest.take (immLength ii)))).map fun i => (i, rest.drop (immLength ii)) := by
    have := immLength_le_four ii
    rw [decode, if_neg (by omega)]
  split
  case isTrue undefined =>
    intro strict
    rw [bytes, decodeParts_undefined undefined]
    rfl
  case isFalse undefined =>
    obtain ⟨i, built⟩ := Option.ne_none_iff_exists'.mp (mt (build_eq_none_iff ii (lo.extractLsb' 4 4) (lo.extractLsb' 0 4)
      (joinBytes (rest.take (immLength ii)))).mp undefined)
    refine ⟨i, rest.drop (immLength ii), ?_, ?_, ?_⟩
    · simp only [immLength, List.contains_iff_mem]
    · rw [bytes, decodeParts_build built]
      rfl
    · rw [bytes, decodeParts_build built]
      by_cases same : (encode i).head? = some lo <;> simp [same] <;> rfl

end Sys2Proof.Machine

/-! Relations that hold across every instruction, every frame and every step: the invariant, the read-only half, and what
no instruction writes (spec/10_state.md R28, R40 to R45; spec/20_memory.md R72; spec/60_exceptions.md R510, R511). -/

namespace Sys2Proof.Machine

/-! ### Across an instruction and a frame -/

namespace Closed

variable {R : State → State → Prop}

theorem promote (k : Closed R) (b : Bool) (s : State) : R s (promote b s) := by
  cases b
  · exact k.refl s
  · exact k.trans (k.ime s true) (k.imp _ false)

/-- What an instruction that completes or raises keeps: what its body, the promotion and a raise keep. -/
theorem complete (k : Closed R) {body : Act Unit} (h : Preserves R body)
    (ack : ∀ (e : Exc) (s : State), e ≠ .doubleFault → R s (acknowledge 0 { s with ec := e.code }))
    (df : ∀ s : State, R s (enterDoubleFault s)) {s t : State} (next : complete body s = .next t) : R s t := by
  have kept := h s
  rcases complete_cases next with ⟨u, done, rfl⟩ | ⟨e, u, raised, rfl⟩
  · rw [done] at kept
    exact k.trans kept (k.promote s.imp u)
  · rw [raised] at kept
    exact k.trans kept (k.raise e (ack e) df u)

theorem exec (k : Closed R) (flags : ∀ (s : State) (f : Flags), R s (s.setFlags f))
    (ret : ∀ s : State, R s { s with ec := 0x00 })
    (ack : ∀ (e : Exc) (s : State), e ≠ .doubleFault → R s (acknowledge 0 { s with ec := e.code }))
    (df : ∀ s : State, R s (enterDoubleFault s)) {i : Instr} {s t : State} (next : exec i s = .next t) : R s t := by
  obtain ⟨body, eq, kept⟩ := k.exec_body flags i (fun _ => ret) s
  exact k.complete kept ack df (eq ▸ next)

end Closed

/-- A relation that no elementary update of a frame breaks, those of the flags, of `EC` and of the interrupt check among
them. -/
structure FrameClosed (R : State → State → Prop) : Prop extends Closed R where
  flags : ∀ (s : State) (f : Flags), R s (s.setFlags f)
  ret : ∀ s : State, R s { s with ec := 0x00 }
  exception : ∀ (s : State) (e : Exc), e ≠ .doubleFault → R s { s with ec := e.code }
  acknowledge : ∀ (s : State) (i : Nat), R s (acknowledge i s)
  doubleFault : ∀ s : State, R s (enterDoubleFault s)
  wake : ∀ s : State, R s { s with haltf := false }

namespace FrameClosed

variable {R : State → State → Prop}

theorem takes (k : FrameClosed R) (e : Exc) (s : State) (ne : e ≠ .doubleFault) :
    R s (Machine.acknowledge 0 { s with ec := e.code }) :=
  k.trans (k.exception s e ne) (k.acknowledge _ 0)

theorem raise (k : FrameClosed R) (e : Exc) (s : State) : R s (raise e s) :=
  k.toClosed.raise e (k.takes e) k.doubleFault s

theorem exec (k : FrameClosed R) {i : Instr} {s t : State} (next : exec i s = .next t) : R s t :=
  k.toClosed.exec k.flags k.ret k.takes k.doubleFault next

theorem interruptCheck (k : FrameClosed R) (s : State) : R s (interruptCheck s) := by
  unfold Machine.interruptCheck
  split
  · rename_i i _
    have served := k.service i (Machine.acknowledge i s)
    unfold serviceInterrupt
    split
    · rename_i eq
      rw [eq] at served
      exact k.trans (k.acknowledge s i) served
    · rename_i eq
      rw [eq] at served
      exact k.trans (k.acknowledge s i) (k.trans served (k.raise _ _))
  · exact k.refl s

theorem runInstruction (k : FrameClosed R) {s t : State} (next : runInstruction s = .next t) : R s t := by
  have fetched := k.fetchInstruction s
  unfold Machine.runInstruction at next
  split at next
  · rename_i f u eq
    rw [eq] at fetched
    unfold executeFetched at next
    split at next
    · exact k.trans fetched (k.exec next)
    · cases next
    · cases next
      exact k.trans fetched (k.raise _ u)
  · rename_i e u eq
    rw [eq] at fetched
    cases next
    exact k.trans fetched (k.raise e u)

theorem frame (k : FrameClosed R) {s t : State} (next : frame s = .next t) : R s t := by
  have woken {u : State} (h : haltCheck s = some u) : R s u := by
    unfold haltCheck at h
    split at h
    · split at h
      · cases h
      · cases h
        exact k.wake s
    · cases h
      exact k.refl s
  unfold Machine.frame at next
  split at next
  · cases next
    exact k.refl s
  · split at next
    · cases next
      exact k.refl s
    · rename_i u eq
      have checked := k.trans (woken eq) (k.interruptCheck u)
      split at next
      · cases next
        exact checked
      · exact k.trans checked (k.runInstruction next)

end FrameClosed

/-- A step is the delivery of the moves that are due, and a frame. -/
theorem step_of_deliver {s t : State} (h : deliver s = .ok t) : step s = frame t := by
  simp only [step, deliverThenFrame, h]

theorem step_of_deliver_error {s : State} {r : Refusal} (h : deliver s = .error r) : step s = .refused r := by
  simp only [step, deliverThenFrame, h]

theorem step_eq_next {s t : State} (h : step s = .next t) : ∃ u, deliver s = .ok u ∧ frame u = .next t := by
  cases e : deliver s with
  | ok u => exact ⟨u, rfl, step_of_deliver e ▸ h⟩
  | error r =>
    rw [step_of_deliver_error e] at h
    cases h

/-- What every single move keeps, the moves of a batch and their delivery keep. -/
theorem applyMoves_induction {P : State → Prop} {moves : List EnvMove}
    (step : ∀ m ∈ moves, ∀ s t : State, P s → applyMove m s = .ok t → P t) {s t : State} (h : P s)
    (eq : applyMoves moves s = .ok t) : P t := by
  induction moves generalizing s with
  | nil =>
    cases eq
    exact h
  | cons m rest ih =>
    unfold applyMoves at eq
    split at eq
    · rename_i u first
      exact ih (fun m' mem => step m' (.tail _ mem)) (step m (.head _) s u h first) eq
    · cases eq

theorem deliver_induction {P : State → Prop} {s t : State}
    (step : ∀ batch, s.env.head? = some batch → ∀ m ∈ batch, ∀ u v : State, P u → applyMove m u = .ok v → P v)
    (env : ∀ e, P { s with env := e }) (eq : deliver s = .ok t) : P t := by
  unfold deliver at eq
  split at eq
  · cases eq
    exact env s.env
  · rename_i batch rest head
    exact applyMoves_induction (step batch (by rw [head]; rfl)) (env rest) eq

/-! ### The invariant -/

/-- The invariant speaks of six fields only. -/
theorem State.Inv.congr {s t : State} (h : s.Inv) (sp : t.sp = s.sp) (ie : t.ie = s.ie) (mem : t.mem = s.mem)
    (ec : t.ec = s.ec) (df : t.df = s.df) (stopf : t.stopf = s.stopf) : t.Inv :=
  ⟨sp ▸ h.stackHalf, ie ▸ h.vectorZeroEnabled, mem ▸ h.memoryForm, ec ▸ h.exceptionCode,
    by rw [df, stopf]; exact h.doubleFaultStops⟩

theorem State.Inv.setIe {s : State} (h : s.Inv) (v : Word) : (s.setIe v).Inv :=
  ⟨h.stackHalf, by simp, h.memoryForm, h.exceptionCode, h.doubleFaultStops⟩

theorem State.Inv.write {s : State} (h : s.Inv) (a : Word) (b : Byte) : (s.setMem (s.mem.write a.toNat b)).Inv :=
  ⟨h.stackHalf, h.vectorZeroEnabled, Memory.wf_writeAt h.memoryForm a b, h.exceptionCode, h.doubleFaultStops⟩

theorem State.Inv.setSysRegByte {s : State} (h : s.Inv) (r : SysReg) (k : Nat) (b : Byte) :
    (s.setSysRegByte r k b).Inv := by
  unfold State.setSysRegByte
  cases r with
  | ie =>
    dsimp only
    split
    · exact h.setIe _
    · exact h
  | irq =>
    dsimp only
    split
    · exact h.congr rfl rfl rfl rfl rfl rfl
    · exact h
  | ec => exact h

/-- Every code but that of a double fault is one the CPU writes to `EC`. -/
theorem Exc.code_lt {e : Exc} (ne : e ≠ .doubleFault) : e.code.toNat < 0x0A := by
  cases e with
  | doubleFault => exact absurd rfl ne
  | _ => decide

theorem State.Inv.enterDoubleFault {s : State} (h : s.Inv) : (enterDoubleFault s).Inv :=
  ⟨h.stackHalf, h.vectorZeroEnabled, h.memoryForm, h.exceptionCode, fun _ => rfl⟩

theorem frameClosed_inv : FrameClosed fun s t => s.Inv → t.Inv where
  refl _ := id
  trans first second := second ∘ first
  fresh _ _ h := h.congr rfl rfl rfl rfl rfl rfl
  store _ a b _ h := h.write a b
  sysReg _ _ r k b _ h := h.setSysRegByte r k b
  sp _ v h := ⟨stackAddress_msb v, h.vectorZeroEnabled, h.memoryForm, h.exceptionCode, h.doubleFaultStops⟩
  pc _ _ h := h.congr rfl rfl rfl rfl rfl rfl
  register _ _ _ h := h.congr rfl rfl rfl rfl rfl rfl
  stop _ h := ⟨h.stackHalf, h.vectorZeroEnabled, h.memoryForm, h.exceptionCode, fun _ => rfl⟩
  halt _ h := h.congr rfl rfl rfl rfl rfl rfl
  ime _ _ h := h.congr rfl rfl rfl rfl rfl rfl
  imp _ _ h := h.congr rfl rfl rfl rfl rfl rfl
  flags _ _ h := h.congr rfl rfl rfl rfl rfl rfl
  ret _ h := ⟨h.stackHalf, h.vectorZeroEnabled, h.memoryForm, Exc.code_lt (e := .ok) (by decide), h.doubleFaultStops⟩
  exception _ _ ne h := ⟨h.stackHalf, h.vectorZeroEnabled, h.memoryForm, Exc.code_lt ne, h.doubleFaultStops⟩
  acknowledge _ _ h := h.congr rfl rfl rfl rfl rfl rfl
  doubleFault _ h := h.enterDoubleFault
  wake _ h := h.congr rfl rfl rfl rfl rfl rfl

theorem hardwareReset_inv {s : State} (h : s.Inv) : (hardwareReset s).Inv :=
  ⟨stackAddress_msb _, show (0x00000001 : Word).getLsbD 0 = true by decide,
    Memory.wf_writeRam (Memory.wf_romHalf h.memoryForm) _, Exc.code_lt (e := .ok) (by decide), fun df => by cases df⟩

/-- Every move of the environment keeps the invariant. -/
theorem applyMove_inv {m : EnvMove} {s t : State} (h : s.Inv) (eq : applyMove m s = .ok t) : t.Inv := by
  cases m with
  | requestIrq i =>
    cases eq
    exact h.congr rfl rfl rfl rfl rfl rfl
  | writeIe v =>
    cases eq
    exact h.setIe v
  | raise code =>
    unfold applyMove at eq
    dsimp only at eq
    split at eq
    · cases eq
    · cases eq
      split
      · exact h
      · exact frameClosed_inv.raise _ s h
  | clearStop =>
    cases eq
    split
    · exact h
    · rename_i df
      exact ⟨h.stackHalf, h.vectorZeroEnabled, h.memoryForm, h.exceptionCode, fun set => absurd set df⟩
  | reset =>
    cases eq
    exact hardwareReset_inv h
  | pokeByte a b =>
    cases eq
    exact h.write a b
  | remapBus bus =>
    cases eq
    exact h.congr rfl rfl rfl rfl rfl rfl

/-- Settles O25: the moves that are due keep the invariant (`applyMove_inv`), and so does the frame (`frameClosed_inv`). -/
theorem every_step_keeps_the_invariant : Obligations.every_step_keeps_the_invariant := by
  intro s t inv next
  obtain ⟨u, delivered, framed⟩ := step_eq_next next
  have before : u.Inv := deliver_induction (fun _ _ _ _ _ _ => applyMove_inv) (fun _ => inv.congr rfl rfl rfl rfl rfl rfl) delivered
  exact frameClosed_inv.frame framed before

/-- Settles O24: the five parts, each by evaluation of the state after reset. -/
theorem reset_has_the_invariant : Obligations.reset_has_the_invariant :=
  ⟨by decide, by decide, by decide, by decide, by decide⟩

/-- Settles O23: field by field. -/
theorem reset_values : Obligations.reset_values :=
  ⟨rfl, rfl, rfl, rfl, rfl, rfl, rfl, rfl, rfl, rfl⟩

/-! ### The read-only half -/

/-- Memory stays canonical, and its read-only half reads as before. -/
structure ReadOnlyKept (s t : State) : Prop where
  form : t.mem.wf = true
  bytes : ∀ a : Word, a.msb = false → t.mem.read a.toNat = s.mem.read a.toNat

theorem ReadOnlyKept.of_mem_eq {s t : State} (wf : s.mem.wf = true) (eq : t.mem = s.mem) : ReadOnlyKept s t :=
  ⟨eq ▸ wf, fun _ _ => by rw [eq]⟩

theorem ReadOnlyKept.store {s : State} (wf : s.mem.wf = true) {a : Word} (m : a.msb = true) (b : Byte) :
    ReadOnlyKept s (s.setMem (s.mem.write a.toNat b)) := by
  refine ⟨Memory.wf_writeAt wf a b, fun c low => ?_⟩
  have ne : c ≠ a := by
    rintro rfl
    rw [m] at low
    cases low
  rw [State.setMem_mem, Memory.read_write wf, if_neg (toNat_ne ne)]

theorem setSysRegByte_mem (s : State) (r : SysReg) (k : Nat) (b : Byte) : (s.setSysRegByte r k b).mem = s.mem := by
  cases r <;> simp only [State.setSysRegByte] <;> split_ifs <;> rfl

theorem frameClosed_readOnly : FrameClosed fun s t => s.mem.wf = true → ReadOnlyKept s t where
  refl _ wf := .of_mem_eq wf rfl
  trans first second wf :=
    have h := first wf
    have h' := second h.form
    ⟨h'.form, fun a low => (h'.bytes a low).trans (h.bytes a low)⟩
  fresh _ _ wf := .of_mem_eq wf rfl
  store _ _ b m wf := .store wf m b
  sysReg s _ r k b _ wf := .of_mem_eq wf (setSysRegByte_mem s r k b)
  sp _ _ wf := .of_mem_eq wf rfl
  pc _ _ wf := .of_mem_eq wf rfl
  register _ _ _ wf := .of_mem_eq wf rfl
  stop _ wf := .of_mem_eq wf rfl
  halt _ wf := .of_mem_eq wf rfl
  ime _ _ wf := .of_mem_eq wf rfl
  imp _ _ wf := .of_mem_eq wf rfl
  flags _ _ wf := .of_mem_eq wf rfl
  ret _ wf := .of_mem_eq wf rfl
  exception _ _ _ wf := .of_mem_eq wf rfl
  acknowledge _ _ wf := .of_mem_eq wf rfl
  doubleFault _ wf := .of_mem_eq wf rfl
  wake _ wf := .of_mem_eq wf rfl

/-- Settles O26: nothing in a frame writes below bit 31 (`frameClosed_readOnly`). -/
theorem read_only_half_is_never_written : Obligations.read_only_half_is_never_written := by
  intro s t u wf delivered next
  rw [step_of_deliver delivered] at next
  exact (frameClosed_readOnly.frame next wf).bytes

/-! ### What no instruction writes -/

/-- `IE`, every request but vector 0's, the platform and the environment are kept; vector 0's request may be cleared. -/
structure RequestsKept (s t : State) : Prop where
  ie : t.ie = s.ie
  others : ∀ k, k ≠ 0 → t.irq.getLsbD k = s.irq.getLsbD k
  zero : t.irq.getLsbD 0 = true → s.irq.getLsbD 0 = true
  platform : t.platform = s.platform
  env : t.env = s.env

theorem RequestsKept.of_eq {s t : State} (ie : t.ie = s.ie) (irq : t.irq = s.irq) (platform : t.platform = s.platform)
    (env : t.env = s.env) : RequestsKept s t :=
  ⟨ie, fun _ _ => by rw [irq], fun h => irq ▸ h, platform, env⟩

theorem RequestsKept.trans {s t u : State} (h : RequestsKept s t) (h' : RequestsKept t u) : RequestsKept s u :=
  ⟨h'.ie.trans h.ie, fun k ne => (h'.others k ne).trans (h.others k ne), h.zero ∘ h'.zero,
    h'.platform.trans h.platform, h'.env.trans h.env⟩

theorem RequestsKept.acknowledge (s : State) (e : Exc) : RequestsKept s (acknowledge 0 { s with ec := e.code }) :=
  ⟨rfl, fun k ne => (getLsbD_acknowledge_irq 0 _ k).trans (by simp [ne]),
    fun h => by rw [getLsbD_acknowledge_irq] at h; simp at h, rfl, rfl⟩

/-- No window of the platform is on a system register. -/
def MapsNoSysReg (s : State) : Prop := ∀ a r, s.platform.writePolicy a ≠ .sysReg r

theorem closed_requests : Closed fun s t => MapsNoSysReg s → RequestsKept s t where
  refl _ _ := .of_eq rfl rfl rfl rfl
  trans first second none :=
    have h := first none
    h.trans (second fun a r => by rw [h.platform]; exact none a r)
  fresh _ _ _ := .of_eq rfl rfl rfl rfl
  store _ _ _ _ _ := .of_eq rfl rfl rfl rfl
  sysReg _ a r _ _ mapped none := absurd mapped (none a r)
  sp _ _ _ := .of_eq rfl rfl rfl rfl
  pc _ _ _ := .of_eq rfl rfl rfl rfl
  register _ _ _ _ := .of_eq rfl rfl rfl rfl
  stop _ _ := .of_eq rfl rfl rfl rfl
  halt _ _ := .of_eq rfl rfl rfl rfl
  ime _ _ _ := .of_eq rfl rfl rfl rfl
  imp _ _ _ := .of_eq rfl rfl rfl rfl

/-- Settles O27: no elementary update writes them but vector 0's acknowledgement (`closed_requests`). -/
theorem no_instruction_writes_ie_or_requests : Obligations.no_instruction_writes_ie_or_requests := by
  intro i s t none next
  have kept := closed_requests.exec (fun _ _ _ => .of_eq rfl rfl rfl rfl) (fun _ _ => .of_eq rfl rfl rfl rfl)
    (fun e s _ _ => .acknowledge s e) (fun _ _ => .of_eq rfl rfl rfl rfl) next none
  exact ⟨kept.ie, kept.others, kept.zero, kept.platform, kept.env⟩

end Sys2Proof.Machine

/-! What writes `EC` and the flags (spec/10_state.md R35, R42; spec/60_exceptions.md R509 to R511, R524, R527). -/

namespace Sys2Proof.Machine

/-! ### Taking an exception -/

theorem raise_of_ec_zero {e : Exc} {s : State} (ok : e ≠ .ok) (df : e ≠ .doubleFault) (h : s.ec = 0) :
    raise e s = takeException e s := by
  cases e with
  | ok => exact absurd rfl ok
  | doubleFault => exact absurd rfl df
  | _ => exact if_pos h

theorem raise_of_ec_ne_zero {e : Exc} {s : State} (ok : e ≠ .ok) (h : s.ec ≠ 0) : raise e s = enterDoubleFault s := by
  cases e with
  | ok => exact absurd rfl ok
  | doubleFault => rfl
  | _ => exact if_neg h

/-- All a raise can do: nothing, a double fault, or taking an exception while none is being handled. -/
theorem raise_cases (e : Exc) (s : State) :
    (e = .ok ∧ raise e s = s) ∨ raise e s = enterDoubleFault s ∨
      (e ≠ .ok ∧ e ≠ .doubleFault ∧ s.ec = 0 ∧ raise e s = takeException e s) := by
  by_cases ok : e = .ok
  · subst ok
    exact .inl ⟨rfl, rfl⟩
  by_cases df : e = .doubleFault
  · subst df
    exact .inr (.inl rfl)
  by_cases none : s.ec = 0
  · exact .inr (.inr ⟨ok, df, none, raise_of_ec_zero ok df none⟩)
  · exact .inr (.inl (raise_of_ec_ne_zero ok none))

/-! ### What writes `EC` -/

/-- What a sequence that raises did. -/
theorem Act.bind_eq_raised {α β : Type} {x : Act α} {f : α → Act β} {s u : State} {e : Exc}
    (h : Act.bind x f s = .raised e u) : x s = .raised e u ∨ ∃ a t, x s = .done a t ∧ f a t = .raised e u := by
  unfold Act.bind at h
  split at h
  · exact .inr ⟨_, _, ‹_›, h⟩
  · rename_i eq
    cases h
    exact .inl eq

theorem setSysRegByte_ec (s : State) (r : SysReg) (k : Nat) (b : Byte) : (s.setSysRegByte r k b).ec = s.ec := by
  cases r <;> simp only [State.setSysRegByte] <;> split_ifs <;> rfl

theorem closed_ec : Closed fun s t => t.ec = s.ec where
  refl _ := rfl
  trans first second := second.trans first
  fresh _ _ := rfl
  store _ _ _ _ := rfl
  sysReg s _ r k b _ := setSysRegByte_ec s r k b
  sp _ _ := rfl
  pc _ _ := rfl
  register _ _ _ := rfl
  stop _ := rfl
  halt _ := rfl
  ime _ _ := rfl
  imp _ _ := rfl

theorem setSysRegByte_flags (s : State) (r : SysReg) (k : Nat) (b : Byte) :
    (s.setSysRegByte r k b).flags = s.flags := by
  cases r <;> simp only [State.setSysRegByte] <;> split_ifs <;> rfl

theorem closed_flags : Closed fun s t => t.flags = s.flags where
  refl _ := rfl
  trans first second := second.trans first
  fresh _ _ := rfl
  store _ _ _ _ := rfl
  sysReg s _ r k b _ := setSysRegByte_flags s r k b
  sp _ _ := rfl
  pc _ _ := rfl
  register _ _ _ := rfl
  stop _ := rfl
  halt _ := rfl
  ime _ _ := rfl
  imp _ _ := rfl

theorem takeException_ec (e : Exc) (s : State) : (takeException e s).ec = e.code := by
  have served := closed_ec.service 0 (acknowledge 0 { s with ec := e.code })
  unfold takeException
  split
  · rename_i eq
    rwa [eq] at served
  · rename_i eq
    rwa [eq] at served

theorem returnFromHandler_done {s t : State} (h : returnFromHandler s = .done () t) :
    ∃ v u, pop32 s = .done v u ∧ t = { u.setPc v with ime := true, ec := 0x00 } := by
  obtain ⟨v, u, popped, rest⟩ := Act.bind_eq_done h
  cases rest
  exact ⟨v, u, popped, rfl⟩

theorem returnFromHandler_raised {s t : State} {e : Exc} (h : returnFromHandler s = .raised e t) :
    pop32 s = .raised e t := by
  rcases Act.bind_eq_raised h with raised | ⟨v, u, -, rest⟩
  · exact raised
  · cases rest

/-- How an instruction ends as far as `EC` is concerned: it completes and leaves `EC`, or is `RETI` and clears it, or it
raises an exception with `EC` as it was. -/
theorem exec_ec {i : Instr} {s t : State} (next : exec i s = .next t) :
    t.ec = s.ec ∨ (i = .reti ∧ t.ec = 0) ∨ ∃ e u, u.ec = s.ec ∧ t = raise e u := by
  by_cases reti : i = .reti
  · subst reti
    rcases complete_cases (body := returnFromHandler) next with ⟨u, done, rfl⟩ | ⟨e, u, raised, rfl⟩
    · obtain ⟨v, w, -, rfl⟩ := returnFromHandler_done done
      exact .inr (.inl ⟨rfl, promote_ec _ _⟩)
    · have kept := closed_ec.pop32 s
      rw [returnFromHandler_raised raised] at kept
      exact .inr (.inr ⟨e, u, kept, rfl⟩)
  · obtain ⟨body, eq, kept⟩ := closed_ec.exec_body (fun _ _ => rfl) i (fun h => absurd h reti) s
    have kept := kept s
    rcases complete_cases (eq ▸ next) with ⟨u, done, rfl⟩ | ⟨e, u, raised, rfl⟩
    · rw [done] at kept
      exact .inl ((promote_ec _ _).trans kept)
    · rw [raised] at kept
      exact .inr (.inr ⟨e, u, kept, rfl⟩)

/-- Settles O28: an instruction ends as `exec_ec` says, and a raise as `raise_cases` says. -/
theorem only_reti_and_exceptions_write_ec : Obligations.only_reti_and_exceptions_write_ec := by
  intro i s t next
  rcases exec_ec next with kept | reti | ⟨e, u, same, rfl⟩
  · exact .inl kept
  · exact .inr (.inl reti)
  · rcases raise_cases e u with ⟨-, eq⟩ | eq | ⟨ok, df, none, eq⟩
    · exact .inl (by rw [eq]; exact same)
    · exact .inl (by rw [eq]; exact same)
    · exact .inr (.inr ⟨same ▸ none, e, u, ok, df, none, rfl, by rw [eq]; exact takeException_ec e u⟩)

/-! ### The Flags columns -/

/-- A raise leaves the flags alone. -/
theorem raise_flags (e : Exc) (s : State) : (raise e s).flags = s.flags :=
  closed_flags.raise e (fun _ _ => rfl) (fun _ => rfl) s

/-- What neither an access nor a jump touches: `EC`, `DF` and the flags. -/
structure Quiet (s t : State) : Prop where
  ec : t.ec = s.ec
  df : t.df = s.df
  flags : t.flags = s.flags

theorem Quiet.trans {s t u : State} (h : Quiet s t) (h' : Quiet t u) : Quiet s u :=
  ⟨h'.ec.trans h.ec, h'.df.trans h.df, h'.flags.trans h.flags⟩

theorem quiet_setSysRegByte (s : State) (r : SysReg) (k : Nat) (b : Byte) : Quiet s (s.setSysRegByte r k b) := by
  cases r with
  | ec => exact ⟨rfl, rfl, rfl⟩
  | _ =>
    simp only [State.setSysRegByte]
    split <;> exact ⟨rfl, rfl, rfl⟩

theorem closed_quiet : Closed Quiet where
  refl _ := ⟨rfl, rfl, rfl⟩
  trans := Quiet.trans
  fresh _ _ := ⟨rfl, rfl, rfl⟩
  store _ _ _ _ := ⟨rfl, rfl, rfl⟩
  sysReg s _ r k b _ := quiet_setSysRegByte s r k b
  sp _ _ := ⟨rfl, rfl, rfl⟩
  pc _ _ := ⟨rfl, rfl, rfl⟩
  register _ _ _ := ⟨rfl, rfl, rfl⟩
  stop _ := ⟨rfl, rfl, rfl⟩
  halt _ := ⟨rfl, rfl, rfl⟩
  ime _ _ := ⟨rfl, rfl, rfl⟩
  imp _ _ := ⟨rfl, rfl, rfl⟩

/-- The action never raises `OK`. -/
def Act.NeverOk {α : Type} (a : Act α) : Prop := ∀ s t, a s ≠ .raised .ok t

namespace Act.NeverOk

theorem pure {α : Type} (a : α) : (Act.pure a).NeverOk := fun _ _ h => by cases h

theorem update (f : State → State) : (update f).NeverOk := fun _ _ h => by cases h

theorem bind {α β : Type} {x : Act α} {f : α → Act β} (hx : x.NeverOk) (hf : ∀ a, (f a).NeverOk) :
    (Act.bind x f).NeverOk := by
  intro s t h
  rcases Act.bind_eq_raised h with first | ⟨a, u, -, second⟩
  · exact hx s t first
  · exact hf a u t second

theorem andThen {α β : Type} {x : Act α} {y : Act β} (hx : x.NeverOk) (hy : y.NeverOk) : (Act.then x y).NeverOk :=
  bind hx fun _ => hy

theorem busRead (a : Word) : (busRead a).NeverOk := by
  intro s t h
  rcases busRead_cases a s with ⟨b, n, e⟩ | ⟨n, e⟩ <;> cases e.symm.trans h

theorem busWrite (a : Word) (b : Byte) : (busWrite a b).NeverOk := by
  intro s t h
  rcases busWrite_cases a b s with ⟨-, e⟩ | ⟨n, e⟩ | ⟨r, k, -, e⟩ | ⟨n, e⟩ <;> cases e.symm.trans h

theorem memRead16 (a : Word) : (memRead16 a).NeverOk := bind (busRead _) fun _ => bind (busRead _) fun _ => pure _

theorem memRead32 (a : Word) : (memRead32 a).NeverOk :=
  bind (busRead _) fun _ => bind (busRead _) fun _ => bind (busRead _) fun _ => bind (busRead _) fun _ => pure _

theorem memWrite16 (a : Word) (v : Half) : (memWrite16 a v).NeverOk := andThen (busWrite _ _) (busWrite _ _)

theorem memWrite32 (a v : Word) : (memWrite32 a v).NeverOk :=
  andThen (busWrite _ _) (andThen (busWrite _ _) (andThen (busWrite _ _) (busWrite _ _)))

theorem reporting {α : Type} {e : Exc} (ne : e ≠ .ok) (x : Act α) : (Act.reporting e x).NeverOk := by
  intro s t h
  unfold Act.reporting at h
  split at h
  · cases h
  · cases h
    exact ne rfl

theorem push32 (v : Word) : (push32 v).NeverOk := push32_bytes v ▸ reporting (by decide) _

theorem pop32 : pop32.NeverOk := pop32_bytes ▸ reporting (by decide) _

end Act.NeverOk

/-- `EC` and `DF` are kept, and the flags changed as a column says. -/
structure FlagColumn.Held (col : FlagColumn) (s t : State) : Prop where
  ec : t.ec = s.ec
  df : t.df = s.df
  flags : col.allows s.flags t.flags = true

/-- How an instruction body ends: completed, the column is held; raised, it was not `OK`, and `EC` and the flags are kept. -/
def FlagColumn.Ends (col : FlagColumn) (body : Act Unit) : Prop :=
  ∀ s, match body s with
    | .done _ t => col.Held s t
    | .raised e t => e ≠ .ok ∧ Quiet s t

/-- The column of the instructions that write no flag. -/
def FlagColumn.untouched : FlagColumn := ⟨.kept, .kept, .kept, .kept, .kept⟩

theorem FlagColumn.held_of_quiet {s t : State} (h : Quiet s t) : FlagColumn.untouched.Held s t :=
  ⟨h.ec, h.df, by simp [FlagColumn.allows, FlagEffect.allows, FlagColumn.untouched, h.flags]⟩

namespace FlagColumn.Ends

variable {col : FlagColumn}

theorem quiet {body : Act Unit} (h : Preserves Quiet body) (never : body.NeverOk) : FlagColumn.untouched.Ends body := by
  intro s
  have kept := h s
  cases e : body s with
  | done _ t =>
    rw [e] at kept
    exact FlagColumn.held_of_quiet kept
  | raised x t =>
    rw [e] at kept
    exact ⟨fun ok => never s t (ok ▸ e), kept⟩

theorem update {f : State → State} (h : ∀ s, col.Held s (f s)) : col.Ends (update f) := h

theorem raising {e : Exc} (ne : e ≠ .ok) : col.Ends (raising e) := fun _ => ⟨ne, rfl, rfl, rfl⟩

theorem ite {b : Bool} {x y : Act Unit} (hx : col.Ends x) (hy : col.Ends y) : col.Ends (if b then x else y) := by
  cases b
  · exact hy
  · exact hx

theorem checkBit {b : Nibble} {body : Act Unit} (h : col.Ends body) : col.Ends (checkBit b body) :=
  ite h (raising (by decide))

theorem ifCond {c : Nibble} {taken : Act Unit} (h : FlagColumn.untouched.Ends taken) :
    FlagColumn.untouched.Ends (ifCond c taken) := by
  intro s
  unfold Machine.ifCond
  cases Cond.ofField c with
  | none => exact ⟨by decide, rfl, rfl, rfl⟩
  | some k =>
    dsimp only
    cases k.holds s.flags
    · exact FlagColumn.held_of_quiet ⟨rfl, rfl, rfl⟩
    · exact h s

/-- A byte read from memory, given to an operation that holds the column. -/
theorem withByte {a : Word} {f : Byte → State → State} (h : ∀ b s, col.Held s (f b s)) : col.Ends (withByte a f) := by
  intro s
  unfold Machine.withByte memRead8
  rcases busRead_cases a s with ⟨b, n, e⟩ | ⟨n, e⟩
  · rw [Act.bind_done e]
    have held := h b { s with fresh := n }
    exact ⟨held.ec, held.df, held.flags⟩
  · rw [Act.bind_raised e]
    exact ⟨by decide, rfl, rfl, rfl⟩

theorem modifyM {op : Unary 8} {a : Word} (h : ∀ f v, col.allows f (op f v).2 = true) : col.Ends (modifyM op a) := by
  intro s
  unfold Machine.modifyM memRead8
  rcases busRead_cases a s with ⟨b, n, e⟩ | ⟨n, e⟩
  · rw [Act.bind_done e]
    have kept := closed_quiet.memWrite8 a (op s.flags b).1 { s with fresh := n }
    cases write : memWrite8 a (op s.flags b).1 { s with fresh := n } with
    | done _ t =>
      rw [write] at kept
      rw [Act.then_done write]
      exact ⟨kept.ec, kept.df, h s.flags b⟩
    | raised x t =>
      rw [write] at kept
      rw [Act.then_raised write]
      exact ⟨fun ok => Act.NeverOk.busWrite _ _ _ _ (ok ▸ write), kept.ec, kept.df, kept.flags⟩
  · rw [Act.bind_raised e]
    exact ⟨by decide, rfl, rfl, rfl⟩

theorem load {α : Type} {read : Act α} {write : α → State → State} (kept : Preserves Quiet read) (never : read.NeverOk)
    (h : ∀ v s, Quiet s (write v s)) : FlagColumn.untouched.Ends (Act.bind read fun v => Machine.update (write v)) :=
  quiet (closed_quiet.bind kept fun v => .update (h v)) (never.bind fun _ => .update _)

theorem pushing (v : Word) (f : State → Word) :
    FlagColumn.untouched.Ends (Act.then (push32 v) (Machine.update fun t => t.setPc (f t))) :=
  quiet (closed_quiet.andThen (closed_quiet.push32 v) (.update fun _ => ⟨rfl, rfl, rfl⟩)) (.andThen (.push32 v) (.update _))

end FlagColumn.Ends

/-- A column that allows what an operation on two operands, or on one, does to the flags. -/
def FlagColumn.AllowsBinary {w : Nat} (col : FlagColumn) (op : Binary w) : Prop := ∀ f a b, col.allows f (op f a b).2 = true
def FlagColumn.AllowsUnary {w : Nat} (col : FlagColumn) (op : Unary w) : Prop := ∀ f v, col.allows f (op f v).2 = true

namespace FlagColumn.Ends

variable {col : FlagColumn}

theorem setFlags {f : State → Flags} (h : ∀ s, col.allows s.flags (f s) = true) :
    col.Ends (Machine.update fun s => s.setFlags (f s)) :=
  update fun s => ⟨rfl, rfl, h s⟩

theorem accumulateL {op : Binary 8} (h : col.AllowsBinary op) (b : Byte) : col.Ends (Machine.update (accumulateL op b)) :=
  update fun _ => ⟨rfl, rfl, h _ _ _⟩

theorem accumulateW {op : Binary 16} (h : col.AllowsBinary op) (b : Half) : col.Ends (Machine.update (accumulateW op b)) :=
  update fun _ => ⟨rfl, rfl, h _ _ _⟩

theorem accumulateD {op : Binary 32} (h : col.AllowsBinary op) (b : Word) : col.Ends (Machine.update (accumulateD op b)) :=
  update fun _ => ⟨rfl, rfl, h _ _ _⟩

theorem modifyL {op : Unary 8} (h : col.AllowsUnary op) (x : Reg) : col.Ends (Machine.update (modifyL op x)) :=
  update fun _ => ⟨rfl, rfl, h _ _⟩

theorem modifyW {op : Unary 16} (h : col.AllowsUnary op) (x : Reg) : col.Ends (Machine.update (modifyW op x)) :=
  update fun _ => ⟨rfl, rfl, h _ _⟩

theorem modifyD {op : Unary 32} (h : col.AllowsUnary op) (x : Reg) : col.Ends (Machine.update (modifyD op x)) :=
  update fun _ => ⟨rfl, rfl, h _ _⟩

end FlagColumn.Ends

@[simp] theorem FlagEffect.allows_kept (b : Bool) : FlagEffect.kept.allows b b = true := beq_self_eq_true b
@[simp] theorem FlagEffect.allows_result (b b' : Bool) : FlagEffect.result.allows b b' = true := rfl
@[simp] theorem FlagEffect.allows_cleared (b : Bool) : FlagEffect.cleared.allows b false = true := rfl
@[simp] theorem FlagEffect.allows_set (b : Bool) : FlagEffect.set.allows b true = true := rfl

theorem allows_shiftFlags {w : Nat} (f : Flags) (r : BitVec w) (out : Bool) :
    FlagColumn.allows ⟨.result, .cleared, .cleared, .result, .kept⟩ f (shiftFlags f r out) = true := by
  simp [FlagColumn.allows, shiftFlags]

theorem allows_clearZ_shiftFlags {w : Nat} (f : Flags) (r : BitVec w) (out : Bool) :
    FlagColumn.allows ⟨.cleared, .cleared, .cleared, .result, .kept⟩ f { shiftFlags f r out with z := false } = true := by
  simp [FlagColumn.allows, shiftFlags]

theorem allows_aluSwap (k : Nat) : FlagColumn.AllowsUnary ⟨.result, .cleared, .cleared, .cleared, .kept⟩ (aluSwap k) :=
  fun f v => by simp [FlagColumn.allows, aluSwap, shiftFlags]

theorem allows_aluInc8 : FlagColumn.AllowsUnary ⟨.result, .cleared, .result, .kept, .result⟩ aluInc8 :=
  fun f v => by simp [FlagColumn.allows, aluInc8, addN]

theorem allows_aluDec8 : FlagColumn.AllowsUnary ⟨.result, .set, .result, .kept, .result⟩ aluDec8 :=
  fun f v => by simp [FlagColumn.allows, aluDec8, subN]

theorem allows_aluIncWide {w : Nat} : FlagColumn.AllowsUnary ⟨.result, .cleared, .result, .kept, .kept⟩ (aluIncWide (w := w)) :=
  fun f v => by simp [FlagColumn.allows, aluIncWide, addN]

theorem allows_aluDecWide {w : Nat} : FlagColumn.AllowsUnary ⟨.result, .set, .result, .kept, .kept⟩ (aluDecWide (w := w)) :=
  fun f v => by simp [FlagColumn.allows, aluDecWide, subN]

theorem allows_aluNot : FlagColumn.AllowsUnary ⟨.kept, .set, .set, .kept, .cleared⟩ aluNot :=
  fun f v => by simp [FlagColumn.allows, aluNot]

theorem allows_aluDaa : FlagColumn.AllowsUnary ⟨.result, .kept, .cleared, .result, .kept⟩ aluDaa :=
  fun f v => by simp [FlagColumn.allows, aluDaa]

theorem allows_addN {w : Nat} (f : Flags) (a b : BitVec w) (c : Bool) :
    FlagColumn.allows ⟨.result, .cleared, .result, .result, .result⟩ f (addN a b c).2 = true := rfl

theorem allows_subN {w : Nat} (f : Flags) (a b : BitVec w) (c : Bool) :
    FlagColumn.allows ⟨.result, .set, .result, .result, .result⟩ f (subN a b c).2 = true := rfl

theorem allows_bitTestFlags (f : Flags) (v : Byte) (b : Nibble) :
    FlagColumn.allows ⟨.result, .cleared, .set, .kept, .kept⟩ f (bitTestFlags f v b) = true := by
  simp [FlagColumn.allows, bitTestFlags]

theorem allows_same (f : Flags) : FlagColumn.untouched.allows f f = true := by
  simp [FlagColumn.allows, FlagColumn.untouched]

/-- Every instruction is one completed body, which ends as the Flags column of the instruction says (R35). -/
theorem exec_ends (i : Instr) (ne : i ≠ .reti) (s : State) :
    ∃ body, exec i s = complete body s ∧ (flagColumn i).Ends body := by
  cases i with
  | reti => exact absurd rfl ne
  | nop | stop | halt | di | ei | eii | ldLImm | mvLL | mvHL | mvLH | ldWImm | mvWW | mwh | mwl | ldDImm | lsp | mvDD
  | spo | spi =>
    unfold exec; refine ⟨_, rfl, ?_⟩
    exact FlagColumn.Ends.update fun _ => FlagColumn.held_of_quiet ⟨rfl, rfl, rfl⟩
  | ldLAbs | ldLInd | ldqLAbs | ldqLInd | ldpLAbs | ldpLInd =>
    unfold exec; refine ⟨_, rfl, ?_⟩
    exact FlagColumn.Ends.load (closed_quiet.memRead8 _) (.busRead _) fun _ _ => ⟨rfl, rfl, rfl⟩
  | ldWAbs | ldWInd | ldqWAbs | ldqWInd =>
    unfold exec; refine ⟨_, rfl, ?_⟩
    exact FlagColumn.Ends.load (closed_quiet.memRead16 _) (.memRead16 _) fun _ _ => ⟨rfl, rfl, rfl⟩
  | ldDAbs | ldDInd | ldqDAbs | ldqDInd =>
    unfold exec; refine ⟨_, rfl, ?_⟩
    exact FlagColumn.Ends.load (closed_quiet.memRead32 _) (.memRead32 _) fun _ _ => ⟨rfl, rfl, rfl⟩
  | stAbsL | stIndL | stqAbsL | stqIndL | stpAbsL | stpIndL =>
    unfold exec; refine ⟨_, rfl, ?_⟩
    exact FlagColumn.Ends.quiet (closed_quiet.storeL _ _) fun _ => Act.NeverOk.busWrite _ _ _
  | stAbsW | stIndW | stqAbsW | stqIndW =>
    unfold exec; refine ⟨_, rfl, ?_⟩
    exact FlagColumn.Ends.quiet (closed_quiet.storeW _ _) fun _ => Act.NeverOk.memWrite16 _ _ _
  | stAbsD | stIndD | stqAbsD | stqIndD =>
    unfold exec; refine ⟨_, rfl, ?_⟩
    exact FlagColumn.Ends.quiet (closed_quiet.storeD _ _) fun _ => Act.NeverOk.memWrite32 _ _ _
  | ssp =>
    unfold exec; refine ⟨_, rfl, ?_⟩
    exact FlagColumn.Ends.quiet (closed_quiet.memWrite32 _ _) (.memWrite32 _ _)
  | push =>
    unfold exec; refine ⟨_, rfl, ?_⟩
    exact FlagColumn.Ends.quiet (closed_quiet.push32 _) (.push32 _)
  | pop =>
    unfold exec; refine ⟨_, rfl, ?_⟩
    exact FlagColumn.Ends.load closed_quiet.pop32 .pop32 fun _ _ => ⟨rfl, rfl, rfl⟩
  | jmpImm | jmpReg | jpb =>
    unfold exec; refine ⟨_, rfl, ?_⟩
    exact FlagColumn.Ends.ifCond (.update fun _ => FlagColumn.held_of_quiet ⟨rfl, rfl, rfl⟩)
  | ret =>
    unfold exec; refine ⟨_, rfl, ?_⟩
    exact FlagColumn.Ends.ifCond (.load closed_quiet.pop32 .pop32 fun _ _ => ⟨rfl, rfl, rfl⟩)
  | call =>
    unfold exec; refine ⟨_, rfl, ?_⟩
    exact FlagColumn.Ends.ifCond (.pushing _ _)
  | int =>
    unfold exec; refine ⟨_, rfl, ?_⟩
    exact FlagColumn.Ends.ite (.pushing _ _) (.raising (by decide))
  | scf | ccf | clv | sev =>
    unfold exec; refine ⟨_, rfl, ?_⟩
    exact FlagColumn.Ends.setFlags fun _ => by
      simp [flagColumn, FlagColumn.allows, Flags.setCarry, Flags.complementCarry, Flags.writeOverflow]
  | daa =>
    unfold exec; refine ⟨_, rfl, ?_⟩
    exact FlagColumn.Ends.modifyL allows_aluDaa _
  | addLImm | addLReg | adcLImm | adcLReg =>
    unfold exec; refine ⟨_, rfl, ?_⟩
    exact FlagColumn.Ends.accumulateL (fun _ _ _ => allows_addN _ _ _ _) _
  | subLImm | subLReg | sbcLImm | sbcLReg =>
    unfold exec; refine ⟨_, rfl, ?_⟩
    exact FlagColumn.Ends.accumulateL (fun _ _ _ => allows_subN _ _ _ _) _
  | andImm | andReg | orImm | orReg | xorImm | xorReg =>
    unfold exec; refine ⟨_, rfl, ?_⟩
    exact FlagColumn.Ends.accumulateL (fun _ _ _ => rfl) _
  | addLInd | adcLInd =>
    unfold exec; refine ⟨_, rfl, ?_⟩
    exact FlagColumn.Ends.withByte fun _ _ => ⟨rfl, rfl, allows_addN _ _ _ _⟩
  | subLInd | sbcLInd | cmpInd =>
    unfold exec; refine ⟨_, rfl, ?_⟩
    exact FlagColumn.Ends.withByte fun _ _ => ⟨rfl, rfl, allows_subN _ _ _ _⟩
  | andInd | orInd | xorInd =>
    unfold exec; refine ⟨_, rfl, ?_⟩
    exact FlagColumn.Ends.withByte fun _ _ => ⟨rfl, rfl, rfl⟩
  | cmpImm | cmpReg =>
    unfold exec; refine ⟨_, rfl, ?_⟩
    exact FlagColumn.Ends.update fun _ => ⟨rfl, rfl, allows_subN _ _ _ _⟩
  | addWImm | addWReg =>
    unfold exec; refine ⟨_, rfl, ?_⟩
    exact FlagColumn.Ends.accumulateW (fun _ _ _ => allows_addN _ _ _ _) _
  | subWImm | subWReg =>
    unfold exec; refine ⟨_, rfl, ?_⟩
    exact FlagColumn.Ends.accumulateW (fun _ _ _ => allows_subN _ _ _ _) _
  | addDImm | addDReg =>
    unfold exec; refine ⟨_, rfl, ?_⟩
    exact FlagColumn.Ends.accumulateD (fun _ _ _ => allows_addN _ _ _ _) _
  | subDImm | subDReg =>
    unfold exec; refine ⟨_, rfl, ?_⟩
    exact FlagColumn.Ends.accumulateD (fun _ _ _ => allows_subN _ _ _ _) _
  | incL =>
    unfold exec; refine ⟨_, rfl, ?_⟩
    exact FlagColumn.Ends.modifyL allows_aluInc8 _
  | incM =>
    unfold exec; refine ⟨_, rfl, ?_⟩
    exact FlagColumn.Ends.modifyM allows_aluInc8
  | decL =>
    unfold exec; refine ⟨_, rfl, ?_⟩
    exact FlagColumn.Ends.modifyL allows_aluDec8 _
  | decM =>
    unfold exec; refine ⟨_, rfl, ?_⟩
    exact FlagColumn.Ends.modifyM allows_aluDec8
  | incW =>
    unfold exec; refine ⟨_, rfl, ?_⟩
    exact FlagColumn.Ends.modifyW allows_aluIncWide _
  | incD =>
    unfold exec; refine ⟨_, rfl, ?_⟩
    exact FlagColumn.Ends.modifyD allows_aluIncWide _
  | decW =>
    unfold exec; refine ⟨_, rfl, ?_⟩
    exact FlagColumn.Ends.modifyW allows_aluDecWide _
  | decD =>
    unfold exec; refine ⟨_, rfl, ?_⟩
    exact FlagColumn.Ends.modifyD allows_aluDecWide _
  | notL =>
    unfold exec; refine ⟨_, rfl, ?_⟩
    exact FlagColumn.Ends.modifyL allows_aluNot _
  | notM =>
    unfold exec; refine ⟨_, rfl, ?_⟩
    exact FlagColumn.Ends.modifyM allows_aluNot
  | swapL =>
    unfold exec; refine ⟨_, rfl, ?_⟩
    exact FlagColumn.Ends.modifyL (allows_aluSwap 4) _
  | swapM =>
    unfold exec; refine ⟨_, rfl, ?_⟩
    exact FlagColumn.Ends.modifyM (allows_aluSwap 4)
  | swapW =>
    unfold exec; refine ⟨_, rfl, ?_⟩
    exact FlagColumn.Ends.modifyW (allows_aluSwap 8) _
  | swapD =>
    unfold exec; refine ⟨_, rfl, ?_⟩
    exact FlagColumn.Ends.modifyD (allows_aluSwap 16) _
  | slaL | sraL | srlL | rlL | rlcL | rrL | rrcL =>
    unfold exec; refine ⟨_, rfl, ?_⟩
    exact FlagColumn.Ends.modifyL (fun _ _ => allows_shiftFlags _ _ _) _
  | slaM | sraM | srlM | rlM | rlcM | rrM | rrcM =>
    unfold exec; refine ⟨_, rfl, ?_⟩
    exact FlagColumn.Ends.modifyM fun _ _ => allows_shiftFlags _ _ _
  | rla | rlca | rra | rrca =>
    unfold exec; refine ⟨_, rfl, ?_⟩
    exact FlagColumn.Ends.modifyL (fun _ _ => allows_clearZ_shiftFlags _ _ _) _
  | bitL =>
    unfold exec; refine ⟨_, rfl, ?_⟩
    exact FlagColumn.Ends.checkBit (.setFlags fun _ => allows_bitTestFlags _ _ _)
  | bitM =>
    unfold exec; refine ⟨_, rfl, ?_⟩
    exact FlagColumn.Ends.checkBit (.withByte fun _ _ => ⟨rfl, rfl, allows_bitTestFlags _ _ _⟩)
  | setL | resL | togL =>
    unfold exec; refine ⟨_, rfl, ?_⟩
    exact FlagColumn.Ends.checkBit (.modifyL (fun _ _ => allows_same _) _)
  | setM | resM | togM =>
    unfold exec; refine ⟨_, rfl, ?_⟩
    exact FlagColumn.Ends.checkBit (.modifyM fun _ _ => allows_same _)

theorem complete_ends {col : FlagColumn} {body : Act Unit} (ends : col.Ends body) {s t : State}
    (next : complete body s = .next t) :
    col.Held s t ∨ (t.flags = s.flags ∧ ∃ e u, e ≠ .ok ∧ u.ec = s.ec ∧ u.flags = s.flags ∧ t = raise e u) := by
  have ends := ends s
  rcases complete_cases next with ⟨u, done, rfl⟩ | ⟨e, u, raised, rfl⟩
  · rw [done] at ends
    exact .inl ⟨(promote_ec _ _).trans ends.ec, (promote_df _ _).trans ends.df, by rw [promote_flags]; exact ends.flags⟩
  · rw [raised] at ends
    obtain ⟨ok, quiet⟩ := ends
    exact .inr ⟨(raise_flags e u).trans quiet.flags, e, u, ok, quiet.ec, quiet.flags, rfl⟩

/-- Settles O29: every body ends as its column says (`exec_ends`); `RETI` also clears `EC`. -/
theorem flag_columns : Obligations.flag_columns := by
  intro i s t next
  by_cases reti : i = .reti
  · subst reti
    rcases complete_cases (body := returnFromHandler) next with ⟨u, done, rfl⟩ | ⟨e, u, raised, rfl⟩
    · obtain ⟨v, w, popped, rfl⟩ := returnFromHandler_done done
      have kept := closed_quiet.pop32 s
      rw [popped] at kept
      refine .inl ⟨.inr ⟨rfl, promote_ec _ _⟩, (promote_df _ _).trans kept.df, ?_⟩
      rw [promote_flags]
      exact (FlagColumn.held_of_quiet (s := s) (t := s.setFlags w.flags) ⟨rfl, rfl, kept.flags⟩).flags
    · have popped := returnFromHandler_raised raised
      have kept := closed_quiet.pop32 s
      rw [popped] at kept
      exact .inr ⟨(raise_flags e u).trans kept.flags, e, u, fun ok => Act.NeverOk.pop32 s u (ok ▸ popped), kept.ec,
        kept.flags, rfl⟩
  · obtain ⟨body, eq, ends⟩ := exec_ends i reti s
    rcases complete_ends ends (eq ▸ next) with held | raised
    · exact .inl ⟨.inl held.ec, held.df, held.flags⟩
    · exact .inr raised

end Sys2Proof.Machine

/-! Frames: what an instruction that completes leaves alone, for each way an instruction writes its result
(spec/10_state.md R20 to R28, R507; spec/20_memory.md R78, R79). -/

namespace Sys2Proof.Machine

/-! ### The control state -/

/-- Nothing changed but the general registers, the pointers, the flags and the memory. -/
def ControlUntouched (s u : State) : Prop :=
  u = { s with d := u.d, pc := u.pc, sp := u.sp, flags := u.flags, mem := u.mem }

/-- An instruction that completes without touching the control state leaves it alone but for the promotion (R507). -/
theorem controlKept_promote {s u : State} (h : ControlUntouched s u) : ControlKept s (promote s.imp u) where
  system := by
    constructor
    · rw [promote_stopf, h]
    · rw [promote_haltf, h]
    · rw [promote_df, h]
    · rw [promote_ie, h]
    · rw [promote_irq, h]
    · rw [promote_ec, h]
  promoted := by
    have ime : u.ime = s.ime := by rw [h]
    have imp : u.imp = s.imp := by rw [h]
    exact ⟨by rw [promote_ime, ime, Bool.or_comm], by rw [promote_imp, imp, Bool.not_and_self]⟩
  outside := by
    constructor
    · rw [promote_platform, h]
    · rw [promote_env, h]
    · rw [promote_fresh, h]

theorem promote_pointersKept {s u : State} (pc : u.pc = s.pc) (sp : u.sp = s.sp) (b : Bool) : PointersKept s (promote b u) :=
  ⟨(promote_pc b u).trans pc, (promote_sp b u).trans sp⟩

theorem promote_memoryKept {s u : State} (mem : u.mem = s.mem) (b : Bool) : MemoryKept s (promote b u) :=
  fun _ => by rw [promote_mem, mem]

theorem promote_registersKept {s u : State} (d : u.d = s.d) (b : Bool) : RegistersKept s (promote b u) :=
  fun r => (promote_getD b u r).trans (State.getD_congr d r)

/-! ### Registers and flags -/

theorem RegisterBits.promote {w : Nat} {s u : State} {x : Reg} {low width : Nat} {v : BitVec w}
    (h : RegisterBits s u x low width v) (b : Bool) : RegisterBits s (promote b u) x low width v := fun r k => by
  rw [promote_getD]
  exact h r k

/-- A completed write of bits of one register and of the flags. -/
theorem writesRegisterAndFlags_promote {w : Nat} {s u : State} {x : Reg} {low width : Nat} {v : BitVec w}
    (bits : RegisterBits s u x low width v) (pc : u.pc = s.pc) (sp : u.sp = s.sp) (mem : u.mem = s.mem)
    (control : ControlUntouched s u) : WritesRegisterAndFlags s (promote s.imp u) x low width v u.flags :=
  ⟨bits.promote _, promote_flags _ _, promote_pointersKept pc sp _, promote_memoryKept mem _, controlKept_promote control⟩

theorem WritesRegisterAndFlags.onlyRegister {w : Nat} {s t : State} {x : Reg} {low width : Nat} {v : BitVec w}
    (h : WritesRegisterAndFlags s t x low width v s.flags) : WritesOnlyRegister s t x low width v :=
  ⟨h.bits, h.flags, h.pointers, h.memory, h.control⟩

/-- Only the low bits of the value count. -/
theorem WritesOnlyRegister.congr {w w' : Nat} {s t : State} {x : Reg} {low width : Nat} {v : BitVec w} {v' : BitVec w'}
    (h : WritesOnlyRegister s t x low width v) (e : ∀ k, k < width → v'.getLsbD k = v.getLsbD k) :
    WritesOnlyRegister s t x low width v' :=
  ⟨h.bits.congr e, h.flags, h.pointers, h.memory, h.control⟩

theorem writesOnlyRegister_setL (s : State) (x : Reg) (v : Byte) :
    WritesOnlyRegister s (promote s.imp (s.setL x v)) x 0 8 v :=
  (writesRegisterAndFlags_promote (registerBits_setL rfl) rfl rfl rfl rfl).onlyRegister

theorem writesOnlyRegister_setH (s : State) (x : Reg) (v : Byte) :
    WritesOnlyRegister s (promote s.imp (s.setH x v)) x 8 8 v :=
  (writesRegisterAndFlags_promote (registerBits_setH rfl) rfl rfl rfl rfl).onlyRegister

theorem writesOnlyRegister_setW (s : State) (x : Reg) (v : Half) :
    WritesOnlyRegister s (promote s.imp (s.setW x v)) x 0 16 v :=
  (writesRegisterAndFlags_promote (registerBits_setW rfl) rfl rfl rfl rfl).onlyRegister

theorem writesOnlyRegister_setD (s : State) (x : Reg) (v : Word) :
    WritesOnlyRegister s (promote s.imp (s.setD x v)) x 0 32 v :=
  (writesRegisterAndFlags_promote (registerBits_setD rfl) rfl rfl rfl rfl).onlyRegister

/-- Writing bits 31 to 16 of register `x` with its low half put back. -/
theorem registerBits_setHigh (s : State) (x : Reg) (v : Half) :
    RegisterBits s (s.setD x (v ++ s.getW x)) x 16 16 v := by
  intro r k
  rw [State.getD_setD]
  by_cases e : r = x
  · subst e
    simp only [if_true, getLsbD_append_16_16, State.getLsbD_getW, true_and]
    by_cases low : k < 16
    · simp [low, show ¬ 16 ≤ k by omega]
    · by_cases high : k < 32
      · simp [low, show 16 ≤ k by omega, high]
      · simp [low, high, BitVec.getLsbD_of_ge (s.getD r) k (by omega), BitVec.getLsbD_of_ge v (k - 16) (by omega)]
  · simp [e]

theorem writesRegisterAndFlags_accumulateL (s : State) (op : Binary 8) (b : Byte) :
    WritesRegisterAndFlags s (promote s.imp (accumulateL op b s)) 0 0 8 (op s.flags (s.getL 0) b).1
      (op s.flags (s.getL 0) b).2 :=
  writesRegisterAndFlags_promote (u := accumulateL op b s) (registerBits_setL rfl) rfl rfl rfl rfl

theorem writesRegisterAndFlags_accumulateW (s : State) (op : Binary 16) (b : Half) :
    WritesRegisterAndFlags s (promote s.imp (accumulateW op b s)) 0 0 16 (op s.flags (s.getW 0) b).1
      (op s.flags (s.getW 0) b).2 :=
  writesRegisterAndFlags_promote (u := accumulateW op b s) (registerBits_setW rfl) rfl rfl rfl rfl

theorem writesRegisterAndFlags_accumulateD (s : State) (op : Binary 32) (b : Word) :
    WritesRegisterAndFlags s (promote s.imp (accumulateD op b s)) 0 0 32 (op s.flags (s.getD 0) b).1
      (op s.flags (s.getD 0) b).2 :=
  writesRegisterAndFlags_promote (u := accumulateD op b s) (registerBits_setD rfl) rfl rfl rfl rfl

theorem writesRegisterAndFlags_modifyL (s : State) (op : Unary 8) (x : Reg) :
    WritesRegisterAndFlags s (promote s.imp (modifyL op x s)) x 0 8 (op s.flags (s.getL x)).1 (op s.flags (s.getL x)).2 :=
  writesRegisterAndFlags_promote (u := modifyL op x s) (registerBits_setL rfl) rfl rfl rfl rfl

theorem writesRegisterAndFlags_modifyW (s : State) (op : Unary 16) (x : Reg) :
    WritesRegisterAndFlags s (promote s.imp (modifyW op x s)) x 0 16 (op s.flags (s.getW x)).1 (op s.flags (s.getW x)).2 :=
  writesRegisterAndFlags_promote (u := modifyW op x s) (registerBits_setW rfl) rfl rfl rfl rfl

theorem writesRegisterAndFlags_modifyD (s : State) (op : Unary 32) (x : Reg) :
    WritesRegisterAndFlags s (promote s.imp (modifyD op x s)) x 0 32 (op s.flags (s.getD x)).1 (op s.flags (s.getD x)).2 :=
  writesRegisterAndFlags_promote (u := modifyD op x s) (registerBits_setD rfl) rfl rfl rfl rfl

theorem writesOnlyFlags_setFlags (s : State) (f : Flags) : WritesOnlyFlags s (promote s.imp (s.setFlags f)) f :=
  ⟨promote_registersKept rfl _, promote_flags _ _, ⟨promote_pc _ _, promote_sp _ _⟩, promote_memoryKept rfl _,
    controlKept_promote rfl⟩

/-! ### Memory -/

/-- A completed write of `n` bytes of memory from `a` up, and of the flags. -/
theorem writesMemory_promote {w n : Nat} {s u : State} {a : Word} {v : BitVec w} (wf : s.mem.wf = true) (small : n < 2 ^ 32)
    (mem : u.mem = Memory.writeBytes s.platform s.mem a v n) (d : u.d = s.d) (pc : u.pc = s.pc) (sp : u.sp = s.sp)
    (control : ControlUntouched s u) : WritesMemory s (promote s.imp u) a n v u.flags := by
  refine ⟨promote_registersKept d _, promote_flags _ _, promote_pointersKept pc sp _, ?_, controlKept_promote control⟩
  unfold MemoryWritten
  rw [promote_mem, mem]
  exact Memory.read_writeBytes wf s.platform a v small

/-! ### Operand forms -/

theorem withByte_holds {s : State} {a : Word} {b : Byte} (h : s.Holds a 1 b) (f : Byte → State → State) :
    withByte a f s = .done () (f b s) := Act.bind_done (memRead8_holds h)

theorem modifyM_takes {s : State} {a : Word} {v : Byte} (h : s.Holds a 1 v) (takes : s.TakesAll a 1) (op : Unary 8) :
    modifyM op a s = .done ()
      ((s.setMem (Memory.writeBytes s.platform s.mem a (op s.flags v).1 1)).setFlags (op s.flags v).2) := by
  unfold modifyM
  rw [Act.bind_done (memRead8_holds h), Act.then_done (memWrite8_takes takes _)]
  rfl

theorem State.Takes.all {s : State} {a : Word} (h : s.Takes a) : s.TakesAll a 1 := fun k lt => by
  obtain rfl : k = 0 := by omega
  rwa [BitVec.add_zero]

/-- A byte operation in its two forms, from what it does to the flags and the operand. -/
theorem byteOperation_of {onRegister onMemory : Reg → Instr} {op : Unary 8} {P : Flags → Byte → Byte → Flags → Prop}
    (register : ∀ x s, exec (onRegister x) s = complete (update (modifyL op x)) s)
    (memory : ∀ x s, exec (onMemory x) s = complete (modifyM op (s.getD x)) s)
    (value : ∀ f v, P f v (op f v).1 (op f v).2) : ByteOperation onRegister onMemory P := by
  intro s x
  refine ⟨⟨_, _, _, register x s, value _ _, writesRegisterAndFlags_modifyL s op x⟩, fun v wf holds takes => ?_⟩
  exact ⟨_, _, _, (memory x s).trans (complete_done (modifyM_takes holds takes.all op)), value _ _,
    writesMemory_promote wf (by decide) rfl rfl rfl rfl rfl⟩

/-- An accumulator operation in its three forms, from what it does to the flags, `L0` and the operand. -/
theorem accumulatorOperation_of {immediate : Byte → Instr} {onRegister onMemory : Reg → Instr} {op : Binary 8}
    {P : Flags → Byte → Byte → Byte → Flags → Prop}
    (imm : ∀ b s, exec (immediate b) s = complete (update (accumulateL op b)) s)
    (register : ∀ y s, exec (onRegister y) s = complete (update (accumulateL op (s.getL y))) s)
    (memory : ∀ y s, exec (onMemory y) s = complete (withByte (s.getD y) (accumulateL op)) s)
    (value : ∀ f a b, P f a b (op f a b).1 (op f a b).2) : AccumulatorOperation immediate onRegister onMemory P := fun s =>
  ⟨fun b => ⟨_, _, _, imm b s, value _ _ _, writesRegisterAndFlags_accumulateL s op b⟩,
    fun y => ⟨_, _, _, register y s, value _ _ _, writesRegisterAndFlags_accumulateL s op _⟩,
    fun y b holds => ⟨_, _, _, (memory y s).trans (complete_done (withByte_holds holds _)), value _ _ _,
      writesRegisterAndFlags_accumulateL s op b⟩⟩

theorem exists_loadL {s : State} {a : Word} {v : Byte} (h : s.Holds a 1 v) (x : Reg) :
    ∃ t, complete (loadL x a) s = .next t ∧ WritesOnlyRegister s t x 0 8 v :=
  ⟨_, complete_done (Act.bind_done (memRead8_holds h)), writesOnlyRegister_setL s x v⟩

theorem exists_loadW {s : State} {a : Word} {v : Half} (h : s.Holds a 2 v) (x : Reg) :
    ∃ t, complete (loadW x a) s = .next t ∧ WritesOnlyRegister s t x 0 16 v :=
  ⟨_, complete_done (Act.bind_done (memRead16_holds h)), writesOnlyRegister_setW s x v⟩

theorem exists_loadD {s : State} {a : Word} {v : Word} (h : s.Holds a 4 v) (x : Reg) :
    ∃ t, complete (loadD x a) s = .next t ∧ WritesOnlyRegister s t x 0 32 v :=
  ⟨_, complete_done (Act.bind_done (memRead32_holds h)), writesOnlyRegister_setD s x v⟩

theorem exists_storeL {s : State} (wf : s.mem.wf = true) {a : Word} (h : s.TakesAll a 1) (y : Reg) :
    ∃ t, complete (storeL a y) s = .next t ∧ WritesMemory s t a 1 (s.getL y) s.flags :=
  ⟨_, complete_done (memWrite8_takes h _), writesMemory_promote wf (by decide) rfl rfl rfl rfl rfl⟩

theorem exists_storeW {s : State} (wf : s.mem.wf = true) {a : Word} (h : s.TakesAll a 2) (y : Reg) :
    ∃ t, complete (storeW a y) s = .next t ∧ WritesMemory s t a 2 (s.getW y) s.flags :=
  ⟨_, complete_done (memWrite16_takes h _), writesMemory_promote wf (by decide) rfl rfl rfl rfl rfl⟩

theorem exists_storeD {s : State} (wf : s.mem.wf = true) {a : Word} (h : s.TakesAll a 4) (y : Reg) :
    ∃ t, complete (storeD a y) s = .next t ∧ WritesMemory s t a 4 (s.getD y) s.flags :=
  ⟨_, complete_done (memWrite32_takes h _), writesMemory_promote wf (by decide) rfl rfl rfl rfl rfl⟩

theorem exists_memWrite32 {s : State} (wf : s.mem.wf = true) {a : Word} (h : s.TakesAll a 4) (v : Word) :
    ∃ t, complete (memWrite32 a v) s = .next t ∧ WritesMemory s t a 4 v s.flags :=
  ⟨_, complete_done (memWrite32_takes h v), writesMemory_promote wf (by decide) rfl rfl rfl rfl rfl⟩

end Sys2Proof.Machine

/-! CPU control, loads, stores, moves, the stack and branches (spec/40 to spec/44), each with its frame. -/

namespace Sys2Proof.Machine

/-! ### CPU control -/

/-- The frame of the instructions that write the power flags, `IME` and `IMP` only. -/
theorem powerFrame {s u : State}
    (same : u = { s with stopf := u.stopf, haltf := u.haltf, ime := u.ime, imp := u.imp }) {stopf haltf ime imp : Bool}
    (stop : u.stopf = stopf) (halt : u.haltf = haltf) (master : (s.imp || u.ime) = ime) (pending : (!s.imp && u.imp) = imp) :
    let t := promote s.imp u
    RegistersKept s t ∧ t.flags = s.flags ∧ PointersKept s t ∧ MemoryKept s t ∧ OutsideKept s t ∧ t.stopf = stopf ∧
      t.haltf = haltf ∧ t.ime = ime ∧ t.imp = imp ∧ t.df = s.df ∧ t.ie = s.ie ∧ t.irq = s.irq ∧ t.ec = s.ec :=
  ⟨promote_registersKept (by rw [same]) _, by rw [promote_flags, same], promote_pointersKept (by rw [same]) (by rw [same]) _,
    promote_memoryKept (by rw [same]) _,
    ⟨by rw [promote_platform, same], by rw [promote_env, same], by rw [promote_fresh, same]⟩,
    (promote_stopf _ _).trans stop, (promote_haltf _ _).trans halt, (promote_ime _ _).trans master,
    (promote_imp _ _).trans pending, by rw [promote_df, same], by rw [promote_ie, same], by rw [promote_irq, same],
    by rw [promote_ec, same]⟩

/-- Settles O30: each of the six is one update of the control state, and then the promotion. -/
theorem power_and_interrupt_control : Obligations.power_and_interrupt_control := by
  intro s i mem
  simp only [List.mem_cons, List.not_mem_nil, or_false] at mem
  rcases mem with rfl | rfl | rfl | rfl | rfl | rfl
  all_goals exact ⟨_, rfl, powerFrame rfl (by simp) (by simp) (by simp) (by simp)⟩

/-- Settles O31: each is one write of the flags. -/
theorem flag_instructions : Obligations.flag_instructions := fun s =>
  ⟨⟨_, rfl, writesOnlyFlags_setFlags s _⟩, ⟨_, rfl, writesOnlyFlags_setFlags s _⟩,
    ⟨_, rfl, writesOnlyFlags_setFlags s _⟩, ⟨_, rfl, writesOnlyFlags_setFlags s _⟩⟩

/-! ### Loads, stores, moves -/

theorem getLsbD_getL_of_lt (s : State) (y : Reg) {k : Nat} (lt : k < 8) : (s.getD y).getLsbD k = (s.getL y).getLsbD k := by
  rw [State.getLsbD_getL, decide_eq_true lt, Bool.true_and]

theorem getLsbD_getW_of_lt (s : State) (y : Reg) {k : Nat} (lt : k < 16) : (s.getD y).getLsbD k = (s.getW y).getLsbD k := by
  rw [State.getLsbD_getW, decide_eq_true lt, Bool.true_and]

/-- Settles O34: each is one write of a view, of which only the low bits of the value count. -/
theorem immediate_loads_and_moves : Obligations.immediate_loads_and_moves := by
  intro s x y
  refine ⟨fun imm => ⟨_, rfl, writesOnlyRegister_setL s x imm⟩, fun imm => ⟨_, rfl, writesOnlyRegister_setW s x imm⟩,
    fun imm => ⟨_, rfl, writesOnlyRegister_setD s x imm⟩,
    ⟨_, rfl, (writesOnlyRegister_setL s x (s.getL y)).congr fun k lt => getLsbD_getL_of_lt s y lt⟩,
    ⟨_, rfl, (writesOnlyRegister_setH s x (s.getL y)).congr fun k lt => getLsbD_getL_of_lt s y lt⟩,
    ⟨_, rfl, (writesOnlyRegister_setL s x (s.getH y)).congr fun k lt => ?_⟩,
    ⟨_, rfl, (writesOnlyRegister_setW s x (s.getW y)).congr fun k lt => getLsbD_getW_of_lt s y lt⟩,
    ⟨_, rfl, ?_⟩,
    ⟨_, rfl, (writesOnlyRegister_setW s x ((s.getD y).extractLsb' 16 16)).congr fun k lt => ?_⟩,
    ⟨_, rfl, writesOnlyRegister_setD s x (s.getD y)⟩, ⟨_, rfl, writesOnlyRegister_setD s x s.sp⟩⟩
  · rw [BitVec.getLsbD_ushiftRight, State.getLsbD_getH, decide_eq_true lt, Bool.true_and]
  · have high := writesRegisterAndFlags_promote (registerBits_setHigh s x (s.getW y)) rfl rfl rfl rfl
    exact high.onlyRegister.congr fun k lt => getLsbD_getW_of_lt s y lt
  · simp [lt]

/-- Settles O35: an offset below the size of its window does not wrap. -/
theorem windows : Obligations.windows := by
  constructor <;> intro off
  · have base : Config.quickBase.toNat = 0xFFFF0000 := by decide
    have value : (quickAddress off).toNat = 0xFFFF0000 + off.toNat := by
      rw [quickAddress, BitVec.toNat_add, base, BitVec.toNat_setWidth]
      omega
    exact ⟨value, by rw [BitVec.msb_eq_true_iff_two_mul_ge]; omega⟩
  · have base : Config.portBase.toNat = 0xFFFFFF00 := by decide
    have value : (portAddress off).toNat = 0xFFFFFF00 + off.toNat := by
      rw [portAddress, BitVec.toNat_add, base, BitVec.toNat_setWidth]
      omega
    exact ⟨value, by rw [BitVec.msb_eq_true_iff_two_mul_ge]; omega⟩

/-- Settles O36: every form is `loadL` at its address. -/
theorem byte_loads : Obligations.byte_loads := fun _ x _ _ =>
  ⟨fun _ h => exists_loadL h x, fun h => exists_loadL h x, fun _ h => exists_loadL h x, fun h => exists_loadL h x,
    fun _ h => exists_loadL h x, fun h => exists_loadL h x⟩

/-- Settles O37: every form is `loadW` or `loadD` at its address. -/
theorem wide_loads : Obligations.wide_loads := fun _ x _ _ _ =>
  ⟨fun _ h => exists_loadW h x, fun h => exists_loadW h x, fun _ h => exists_loadW h x, fun h => exists_loadW h x,
    fun _ h => exists_loadD h x, fun h => exists_loadD h x, fun _ h => exists_loadD h x, fun h => exists_loadD h x⟩

/-- Settles O38: every form is `storeL` at its address. -/
theorem byte_stores : Obligations.byte_stores := fun _ _ y wf =>
  ⟨fun _ h => exists_storeL wf h y, fun h => exists_storeL wf h y, fun _ h => exists_storeL wf h y,
    fun h => exists_storeL wf h y, fun _ h => exists_storeL wf h y, fun h => exists_storeL wf h y⟩

/-- Settles O39: every form is `storeW`, or a write of four bytes, at its address. -/
theorem wide_stores : Obligations.wide_stores := fun _ _ y wf =>
  ⟨fun _ h => exists_storeW wf h y, fun h => exists_storeW wf h y, fun _ h => exists_storeW wf h y,
    fun h => exists_storeW wf h y, fun _ h => exists_storeD wf h y, fun h => exists_storeD wf h y,
    fun _ h => exists_storeD wf h y, fun h => exists_storeD wf h y, fun _ h => exists_memWrite32 wf h _⟩

/-! ### The stack -/

theorem getLsbD_stackAddress (v : Word) (k : Nat) : (stackAddress v).getLsbD k = (decide (k = 31) || v.getLsbD k) := by
  rw [stackAddress, BitVec.getLsbD_or, Bool.or_comm]
  congr 1
  by_cases small : k < 31
  · rw [getLsbD_bit31 small, decide_eq_false (by omega)]
  · by_cases e : k = 31
    · subst e
      rfl
    · rw [BitVec.getLsbD_of_ge _ _ (by omega), decide_eq_false e]

/-- Settles O40: each is one write of `SP`. -/
theorem stack_pointer_writes : Obligations.stack_pointer_writes := by
  intro s i v form
  have ends : exec i s = .next (promote s.imp (s.setSp v)) := by
    rcases form with rfl | ⟨y, rfl, rfl⟩ <;> rfl
  refine ⟨_, ends, fun k => ?_, promote_pc _ _, promote_registersKept rfl _, promote_flags _ _, promote_memoryKept rfl _,
    controlKept_promote rfl⟩
  rw [promote_sp]
  exact getLsbD_stackAddress v k

/-- A push followed by a jump, or by none. -/
theorem pushesAndGoes_promote {s u : State} {v : Word} (wf : s.mem.wf = true) (d : u.d = s.d) (flags : u.flags = s.flags)
    (sp : u.sp = pushAddress s.sp 4) (mem : u.mem = Memory.pushBytes s.platform s.mem s.sp v 4)
    (control : ControlUntouched s u) : PushesAndGoes s (promote s.imp u) v u.pc := by
  refine ⟨promote_registersKept d _, (promote_flags _ _).trans flags, promote_pc _ _, (promote_sp _ _).trans sp, ?_,
    controlKept_promote control⟩
  unfold MemoryPushed BytesPushed
  rw [promote_mem, mem]
  exact Memory.read_pushBytes wf s.platform s.sp v (by decide)

/-- Settles O41: by what a push of bytes that are taken does, and a pop of bytes that are readable. -/
theorem push_and_pop : Obligations.push_and_pop := by
  intro s r
  refine ⟨fun wf takes => ?_, fun msb v holds => ?_⟩
  · unfold exec execPush
    exact ⟨_, complete_done (push32_takes takes (s.getD r)), pushesAndGoes_promote wf rfl rfl rfl rfl rfl⟩
  · have popped : (Act.bind pop32 fun v => update fun t => t.setD r v) s =
        .done () (({ s with sp := popAddress s.sp 4 } : State).setD r v) := Act.bind_done (pop32_holds msb holds)
    have bits : RegisterBits s (({ s with sp := popAddress s.sp 4 } : State).setD r v) r 0 32 v := registerBits_setD rfl
    exact ⟨_, complete_done popped, bits.promote _, promote_flags _ _, promote_pc _ _, promote_sp _ _,
      promote_memoryKept rfl _, controlKept_promote rfl⟩

/-! ### Branches -/

/-- The conditions of R280 are the fields that name one, with its value. -/
theorem cond_of_table {f : Flags} {c : Nibble} {m : Bool} (h : (c, m) ∈ conditionTable f) :
    ∃ k, Cond.ofField c = some k ∧ k.holds f = m := by
  simp only [conditionTable, List.mem_cons, Prod.mk.injEq, List.not_mem_nil, or_false] at h
  rcases h with ⟨rfl, rfl⟩ | ⟨rfl, rfl⟩ | ⟨rfl, rfl⟩ | ⟨rfl, rfl⟩ | ⟨rfl, rfl⟩ | ⟨rfl, rfl⟩ | ⟨rfl, rfl⟩ <;>
    exact ⟨_, rfl, rfl⟩

theorem ifCond_of_table {s : State} {c : Nibble} {m : Bool} (h : (c, m) ∈ conditionTable s.flags) (taken : Act Unit) :
    ifCond c taken s = if m then taken s else .done () s := by
  obtain ⟨k, named, value⟩ := cond_of_table h
  simp only [ifCond, named, value]

theorem writesOnlyPc_promote (s : State) (target : Word) : WritesOnlyPc s (promote s.imp (s.setPc target)) target :=
  ⟨promote_registersKept rfl _, promote_flags _ _, promote_pc _ _, promote_sp _ _, promote_memoryKept rfl _,
    controlKept_promote rfl⟩

theorem exists_jump {s : State} {c : Nibble} {m : Bool} (h : (c, m) ∈ conditionTable s.flags) (target : State → Word) :
    ∃ t, complete (ifCond c (update fun t => t.setPc (target t))) s = .next t ∧
      WritesOnlyPc s t (if m then target s else s.pc) := by
  cases m with
  | true => exact ⟨_, complete_done (ifCond_of_table h _), writesOnlyPc_promote s (target s)⟩
  | false => exact ⟨_, complete_done (ifCond_of_table h _), writesOnlyPc_promote s s.pc⟩

/-- Settles O44: each jump is one write of `PC` under its condition. -/
theorem jumps : Obligations.jumps := by
  intro s c m y target off h
  refine ⟨exists_jump h fun _ => target, exists_jump h fun t => t.getD y, ?_⟩
  have base : s.pc + off.signExtend 32 = BitVec.ofInt 32 (s.pc.toNat + off.toInt) := by
    rw [BitVec.ofInt_add, BitVec.ofInt_natCast, BitVec.ofNat_toNat, BitVec.setWidth_eq]
    rfl
  rw [← base]
  exact exists_jump h fun t => t.pc + off.signExtend 32

/-- A push of `PC` and a jump, whose bytes are all taken. -/
theorem push32_pc_takes {s : State} (takes : s.StackTakes) (target : Word) :
    Act.then (push32 s.pc) (update fun t => t.setPc target) s =
      .done () { s with pc := target, sp := pushAddress s.sp 4, mem := Memory.pushBytes s.platform s.mem s.sp s.pc 4 } :=
  Act.then_done (push32_takes takes s.pc)

theorem vectorAddress_eq (n : Byte) : vectorAddress n.toNat = BitVec.ofNat 32 (0x1000 + n.toNat * 0x80) := by
  rw [vectorAddress, BitVec.ofNat_add]
  rfl

/-- Settles O45: a push of the address of the next instruction, and a jump. -/
theorem calls : Obligations.calls := by
  intro s c m target n h
  refine ⟨?_, ?_, fun small wf takes => ?_⟩
  · rintro rfl
    exact ⟨_, complete_done (ifCond_of_table h _), writesOnlyPc_promote s s.pc⟩
  · rintro rfl wf takes
    exact ⟨_, complete_done ((ifCond_of_table h _).trans (push32_pc_takes takes target)),
      pushesAndGoes_promote wf rfl rfl rfl rfl rfl⟩
  · have defined : vectorDefined n = true := decide_eq_true small
    rw [← vectorAddress_eq]
    refine ⟨_, complete_done (Eq.trans ?_ (push32_pc_takes takes (vectorAddress n.toNat))),
      pushesAndGoes_promote wf rfl rfl rfl rfl rfl⟩
    rw [if_pos defined]

/-- Settles O46: a pop into `PC`, to which `RETI` adds its two writes. -/
theorem returns : Obligations.returns := by
  intro s c m v msb h
  refine ⟨?_, ?_, fun holds => ?_⟩
  · rintro rfl
    exact ⟨_, complete_done (ifCond_of_table h _), writesOnlyPc_promote s s.pc⟩
  · rintro rfl holds
    have popped : (Act.bind pop32 fun target => update fun t => t.setPc target) s =
        .done () { s with sp := popAddress s.sp 4, pc := v } := Act.bind_done (pop32_holds msb holds)
    exact ⟨_, complete_done ((ifCond_of_table h _).trans popped), promote_pc _ _, promote_sp _ _,
      promote_registersKept rfl _, promote_flags _ _, promote_memoryKept rfl _, controlKept_promote rfl⟩
  · have popped : returnFromHandler s =
        .done () { s with sp := popAddress s.sp 4, pc := v, ime := true, ec := 0 } := Act.bind_done (pop32_holds msb holds)
    refine ⟨_, complete_done popped, promote_pc _ _, promote_sp _ _, ?_, promote_ec _ _,
      promote_registersKept rfl _, promote_flags _ _, promote_memoryKept rfl _,
      ⟨promote_platform _ _, promote_env _ _, promote_fresh _ _⟩, ?_, promote_stopf _ _, promote_haltf _ _, promote_df _ _,
      promote_ie _ _, promote_irq _ _⟩
    · rw [promote_ime, Bool.or_true]
    · rw [promote_imp, Bool.not_and_self]

end Sys2Proof.Machine

/-! `POP` after `PUSH` (spec/20_memory.md R83, R84). -/

namespace Sys2Proof.Machine

/-! ### A push and the pop that undoes it -/

/-- What `k` bytes of a pop have gone up from a pushed `SP`, `4 - k` bytes of the push went down. -/
theorem popAddress_pushAddress (sp : Word) {k : Nat} (le : k ≤ 4) :
    popAddress (pushAddress sp 4) k = pushAddress sp (4 - k) := by
  apply BitVec.eq_of_toNat_eq
  rw [popAddress, pushAddress, pushAddress, toNat_stackAddress, toNat_stackAddress, BitVec.toNat_add, toNat_stackAddress,
    BitVec.toNat_sub, BitVec.toNat_sub, BitVec.toNat_ofNat, BitVec.toNat_ofNat, BitVec.toNat_ofNat]
  omega

theorem pushAddress_zero {sp : Word} (msb : sp.msb = true) : pushAddress sp 0 = sp := by
  rw [pushAddress, BitVec.sub_zero, stackAddress_of_msb msb]

/-- After a push onto plain memory, the stack holds what was pushed. -/
theorem PushesAndGoes.stackHolds {s t : State} {v target : Word} (h : PushesAndGoes s t v target)
    (plain : ∀ k, k < 4 → s.platform.readPolicy (pushAddress s.sp (k + 1)) = .memory ∧
      s.platform.writePolicy (pushAddress s.sp (k + 1)) = .memory) : t.StackHolds v := by
  intro k lt
  obtain ⟨readable, stored⟩ := plain (3 - k) (by omega)
  have value := h.memory.1 (3 - k) (by omega) stored
  have place : popAddress t.sp k = pushAddress s.sp (3 - k + 1) := by
    rw [h.sp, popAddress_pushAddress s.sp (by omega), show 4 - k = 3 - k + 1 by omega]
  rw [State.peek, place, h.control.outside.platform, readable]
  dsimp only
  rw [value, show 3 - (3 - k) = k by omega]

theorem RegisterBits.getD_eq {s t : State} {x : Reg} {v : Word} (h : RegisterBits s t x 0 32 v) : t.getD x = v := by
  apply BitVec.eq_of_getLsbD_eq
  intro k lt
  rw [h x k, if_pos ⟨rfl, Nat.zero_le k, by omega⟩, Nat.sub_zero]

/-- Settles O42: the push leaves the stack holding the value (`PushesAndGoes.stackHolds`), and the pop goes back up. -/
theorem pop_after_push_restores : Obligations.pop_after_push_restores := by
  intro s t x y wf msb plain pushed
  have takes : s.StackTakes := fun k lt => ⟨stackAddress_msb _, .inl (plain k lt).2⟩
  obtain ⟨t', pushed', goes⟩ := (push_and_pop s y).1 wf takes
  obtain rfl : t = t' := Host.Outcome.next.inj (pushed.symm.trans pushed')
  have top : t.sp.msb = true := goes.sp ▸ stackAddress_msb _
  obtain ⟨u, popped, bits, -, -, sp, -, -⟩ := (push_and_pop t x).2 top _ (goes.stackHolds plain)
  refine ⟨u, popped, bits.getD_eq, ?_⟩
  rw [sp, goes.sp, popAddress_pushAddress s.sp (by omega), Nat.sub_self, pushAddress_zero msb]

end Sys2Proof.Machine

/-! The values and flags of the operations, in the spec's words (spec/45_arith_8.md R300, R301; spec/46 to spec/49). -/

namespace Sys2Proof.Machine

/-! ### Addition and subtraction at every width -/

/-- The overflow of an addition: equal signs in, the other sign out. -/
theorem msb_addition_overflow {w : Nat} (a b r : BitVec (w + 1)) :
    (~~~(a ^^^ b) &&& (a ^^^ r)).msb = ((a.msb == b.msb) && (a.msb != r.msb)) := by
  simp only [BitVec.msb_and, BitVec.msb_not, BitVec.msb_xor]
  cases a.msb <;> cases b.msb <;> cases r.msb <;> simp

theorem msb_subtraction_overflow {w : Nat} (a b r : BitVec w) :
    ((a ^^^ b) &&& (a ^^^ r)).msb = ((a.msb != b.msb) && (a.msb != r.msb)) := by
  simp only [BitVec.msb_and, BitVec.msb_xor]

/-- The sign of a value and its signed value, from the half `2 ^ w` of the range. -/
theorem msb_eq_decide_half {w : Nat} (a : BitVec (w + 1)) : a.msb = decide (2 ^ w ≤ a.toNat) := BitVec.msb_eq_decide a

theorem toInt_eq_half {w : Nat} (a : BitVec (w + 1)) :
    a.toInt = if 2 ^ w ≤ a.toNat then (a.toNat : Int) - 2 * (2 ^ w : Nat) else a.toNat := by
  rw [BitVec.toInt_eq_msb_cond, msb_eq_decide_half]
  simp only [decide_eq_true_eq, Nat.pow_succ, Nat.mul_comm _ 2]
  rfl

theorem toNat_lt_half {w : Nat} (a : BitVec (w + 1)) : a.toNat < 2 * 2 ^ w := by
  have := a.isLt
  rwa [Nat.pow_succ, Nat.mul_comm] at this

theorem decide_eq_zero_iff_toNat {w : Nat} (r : BitVec w) : decide (r = 0) = decide (r.toNat = 0) :=
  decide_eq_decide.mpr (by rw [BitVec.toNat_eq]; rfl)

theorem mod_of_lt_double {x m : Nat} (h : x < 2 * m) : x % m = if x < m then x else x - m := by
  split
  · exact Nat.mod_eq_of_lt ‹_›
  · rw [Nat.mod_eq_sub_mod (by omega), Nat.mod_eq_of_lt (by omega)]

/-- `AddN` gives what R300 asks for, at every width. -/
theorem addResult_addN {w : Nat} (a b : BitVec (w + 1)) (c : Bool) :
    AddResult a b c.toNat (addN a b c).1 (addN a b c).2 := by
  have value : (addN a b c).1.toNat = (a.toNat + b.toNat + c.toNat) % 2 ^ (w + 1) := BitVec.toNat_ofNat _ _
  refine ⟨value, decide_eq_zero_iff_toNat _, rfl, rfl, rfl, ?_⟩
  change (~~~(a ^^^ b) &&& (a ^^^ (addN a b c).1)).msb = _
  rw [msb_addition_overflow, msb_eq_decide_half, msb_eq_decide_half, msb_eq_decide_half, toInt_eq_half, toInt_eq_half,
    Nat.add_sub_cancel, value, Nat.pow_succ, Nat.mul_comm _ 2]
  have la := toNat_lt_half a
  have lb := toNat_lt_half b
  have lc := Bool.toNat_le c
  have cast : (2 : Int) ^ w = (2 ^ w : Nat) := by norm_cast
  rw [cast]
  generalize (2 : Nat) ^ w = half at *
  generalize a.toNat = a at *
  generalize b.toNat = b at *
  generalize c.toNat = c at *
  rw [mod_of_lt_double (show a + b + c < 2 * (2 * half) by omega), Bool.eq_iff_iff]
  simp only [Bool.and_eq_true, beq_iff_eq, bne_iff_ne, decide_eq_true_eq, ne_eq, decide_eq_decide]
  split_ifs <;> omega

/-- `SubN` gives what R301 asks for, at every width. -/
theorem subResult_subN {w : Nat} (a b : BitVec (w + 1)) (c : Bool) :
    SubResult a b c.toNat (subN a b c).1 (subN a b c).2 := by
  have la := toNat_lt_half a
  have lb := toNat_lt_half b
  have lc := Bool.toNat_le c
  have half_pos : 0 < 2 ^ w := Nat.two_pow_pos w
  have wrap : (subN a b c).1.toNat =
      if a.toNat < b.toNat + c.toNat then a.toNat + 2 * 2 ^ w - b.toNat - c.toNat else a.toNat - b.toNat - c.toNat := by
    change (a - b - BitVec.ofNat (w + 1) c.toNat).toNat = _
    rw [BitVec.toNat_sub, BitVec.toNat_sub, BitVec.toNat_ofNat, Nat.pow_succ, Nat.mul_comm _ 2]
    generalize (2 : Nat) ^ w = half at *
    generalize a.toNat = a at *
    generalize b.toNat = b at *
    generalize c.toNat = c at *
    rw [Nat.mod_eq_of_lt (show c < 2 * half by omega), mod_of_lt_double (show 2 * half - b + a < 2 * (2 * half) by omega)]
    split_ifs <;> rw [mod_of_lt_double (by omega)] <;> split_ifs <;> omega
  refine ⟨?_, decide_eq_zero_iff_toNat _, rfl, ?_, ?_, ?_⟩
  · have cast : (2 : Int) ^ (w + 1) = 2 * (2 ^ w : Nat) := by norm_cast; rw [Nat.pow_succ, Nat.mul_comm]
    rw [wrap, cast]
    split
    · rw [← Int.add_emod_right, Int.emod_eq_of_lt] <;> omega
    · rw [Int.emod_eq_of_lt] <;> omega
  · exact decide_eq_decide.mpr (by omega)
  · exact decide_eq_decide.mpr (by omega)
  · change ((a ^^^ b) &&& (a ^^^ (subN a b c).1)).msb = _
    rw [msb_subtraction_overflow, msb_eq_decide_half, msb_eq_decide_half, msb_eq_decide_half, toInt_eq_half, toInt_eq_half,
      Nat.add_sub_cancel, wrap]
    have cast : (2 : Int) ^ w = (2 ^ w : Nat) := by norm_cast
    rw [cast]
    generalize (2 : Nat) ^ w = half at *
    generalize a.toNat = a at *
    generalize b.toNat = b at *
    generalize c.toNat = c at *
    rw [Bool.eq_iff_iff]
    simp only [Bool.and_eq_true, bne_iff_ne, decide_eq_true_eq, ne_eq, decide_eq_decide]
    split_ifs <;> omega

/-! ### Additions, subtractions and compares -/

/-- Settles O47: `accumulateL` with the sum of R300, without and with the Carry flag. -/
theorem byte_additions : Obligations.byte_additions :=
  ⟨accumulatorOperation_of (op := aluAdd) (fun _ _ => rfl) (fun _ _ => rfl) (fun _ _ => rfl)
      fun _ a b => addResult_addN (w := 7) a b false,
    accumulatorOperation_of (op := aluAdc) (fun _ _ => rfl) (fun _ _ => rfl) (fun _ _ => rfl)
      fun f a b => addResult_addN (w := 7) a b f.c⟩

/-- Settles O48: `accumulateL` with the difference of R301, without and with the Carry flag as a borrow. -/
theorem byte_subtractions : Obligations.byte_subtractions :=
  ⟨accumulatorOperation_of (op := aluSub) (fun _ _ => rfl) (fun _ _ => rfl) (fun _ _ => rfl)
      fun _ a b => subResult_subN (w := 7) a b false,
    accumulatorOperation_of (op := aluSbc) (fun _ _ => rfl) (fun _ _ => rfl) (fun _ _ => rfl)
      fun f a b => subResult_subN (w := 7) a b f.c⟩

/-- Settles O49: the flags of the difference of R301, and nothing else. -/
theorem compares : Obligations.compares := fun s =>
  ⟨fun b => ⟨_, _, _, rfl, subResult_subN (w := 7) _ b false, writesOnlyFlags_setFlags s _⟩,
    fun y => ⟨_, _, _, rfl, subResult_subN (w := 7) _ (s.getL y) false, writesOnlyFlags_setFlags s _⟩,
    fun _ b holds => ⟨_, _, _, complete_done (withByte_holds holds (compareL aluSub)),
      subResult_subN (w := 7) _ b false, writesOnlyFlags_setFlags s _⟩⟩

/-- Settles O51: the operations of O47 and O48 at 16 and 32 bits. -/
theorem wide_additions_and_subtractions : Obligations.wide_additions_and_subtractions := fun s y =>
  ⟨fun b => ⟨_, _, _, rfl, addResult_addN (w := 15) _ b false, writesRegisterAndFlags_accumulateW s aluAdd b⟩,
    ⟨_, _, _, rfl, addResult_addN (w := 15) _ _ false, writesRegisterAndFlags_accumulateW s aluAdd (s.getW y)⟩,
    fun b => ⟨_, _, _, rfl, addResult_addN (w := 31) _ b false, writesRegisterAndFlags_accumulateD s aluAdd b⟩,
    ⟨_, _, _, rfl, addResult_addN (w := 31) _ _ false, writesRegisterAndFlags_accumulateD s aluAdd (s.getD y)⟩,
    fun b => ⟨_, _, _, rfl, subResult_subN (w := 15) _ b false, writesRegisterAndFlags_accumulateW s aluSub b⟩,
    ⟨_, _, _, rfl, subResult_subN (w := 15) _ _ false, writesRegisterAndFlags_accumulateW s aluSub (s.getW y)⟩,
    fun b => ⟨_, _, _, rfl, subResult_subN (w := 31) _ b false, writesRegisterAndFlags_accumulateD s aluSub b⟩,
    ⟨_, _, _, rfl, subResult_subN (w := 31) _ _ false, writesRegisterAndFlags_accumulateD s aluSub (s.getD y)⟩⟩

/-! ### Increments and decrements -/

theorem toNat_one {w : Nat} (pos : 0 < w) : (1 : BitVec (w + 4)).toNat = 1 :=
  (BitVec.toNat_ofNat 1 _).trans (Nat.mod_eq_of_lt (Nat.one_lt_two_pow (by omega)))

/-- The sum with 1: `H` from low bits that are all ones. -/
theorem addN_one {w : Nat} (pos : 0 < w) (v : BitVec (w + 4)) :
    (addN v 1 false).1.toNat = (v.toNat + 1) % 2 ^ (w + 4) ∧
      (addN v 1 false).2.z = decide ((addN v 1 false).1.toNat = 0) ∧ (addN v 1 false).2.n = false ∧
      (addN v 1 false).2.h = decide (v.toNat % 2 ^ w = 2 ^ w - 1) := by
  obtain ⟨value, z, n, h, -, -⟩ := addResult_addN v 1 false
  have two : 1 < 2 ^ w := Nat.one_lt_two_pow (by omega)
  have lt := Nat.mod_lt v.toNat (show 0 < 2 ^ w by omega)
  rw [toNat_one pos] at value h
  refine ⟨value, z, n, h.trans (decide_eq_decide.mpr ?_)⟩
  rw [show w + 3 + 1 - 4 = w by omega, Nat.mod_eq_of_lt two, Bool.toNat_false]
  omega

/-- The difference with 1: `H` from low bits that are all zeros. -/
theorem subN_one {w : Nat} (pos : 0 < w) (v : BitVec (w + 4)) :
    (subN v 1 false).1.toNat = (v.toNat + (2 ^ (w + 4) - 1)) % 2 ^ (w + 4) ∧
      (subN v 1 false).2.z = decide ((subN v 1 false).1.toNat = 0) ∧ (subN v 1 false).2.n = true ∧
      (subN v 1 false).2.h = decide (v.toNat % 2 ^ w = 0) := by
  obtain ⟨-, z, n, h, -, -⟩ := subResult_subN v 1 false
  have two : 1 < 2 ^ w := Nat.one_lt_two_pow (by omega)
  refine ⟨?_, z, n, h.trans (decide_eq_decide.mpr ?_)⟩
  · change (v - 1 - 0#(w + 4)).toNat = _
    rw [BitVec.sub_zero, BitVec.toNat_sub, toNat_one pos, Nat.add_comm]
  · rw [toNat_one pos, show w + 3 + 1 - 4 = w by omega, Nat.mod_eq_of_lt two, Bool.toNat_false]
    omega

/-- The overflow of an increment of a byte is that of `0x7F`, that of a decrement is that of `0x80`. -/
theorem addN_one_overflow (v : Byte) : (addN v 1 false).2.v = decide (v = 0x7F) := by
  rw [(addResult_addN (w := 7) v 1 false).v]
  refine decide_eq_decide.mpr ?_
  rw [toInt_eq_half (w := 7) v, BitVec.toNat_eq, show (1 : BitVec 8).toInt = 1 from rfl, show (0x7F : Byte).toNat = 127 from rfl,
    Bool.toNat_false]
  have := v.isLt
  split <;> omega

theorem subN_one_overflow (v : Byte) : (subN v 1 false).2.v = decide (v = 0x80) := by
  rw [(subResult_subN (w := 7) v 1 false).v]
  refine decide_eq_decide.mpr ?_
  rw [toInt_eq_half (w := 7) v, BitVec.toNat_eq, show (1 : BitVec 8).toInt = 1 from rfl, show (0x80 : Byte).toNat = 128 from rfl,
    Bool.toNat_false]
  have := v.isLt
  split <;> omega

/-- Settles O50: the sum and the difference with 1, with the Carry flag kept. -/
theorem byte_increments : Obligations.byte_increments := by
  constructor
  · refine byteOperation_of (op := aluInc8) (fun _ _ => rfl) (fun _ _ => rfl) fun f v => ?_
    obtain ⟨value, z, n, h⟩ := addN_one (w := 4) (by omega) v
    exact ⟨value, Flags.mk.injEq .. ▸ ⟨z, n, h, rfl, addN_one_overflow v⟩⟩
  · refine byteOperation_of (op := aluDec8) (fun _ _ => rfl) (fun _ _ => rfl) fun f v => ?_
    obtain ⟨value, z, n, h⟩ := subN_one (w := 4) (by omega) v
    exact ⟨value, Flags.mk.injEq .. ▸ ⟨z, n, h, rfl, subN_one_overflow v⟩⟩

/-- `INC` on 16 or 32 bits: the Carry and Overflow flags are kept. -/
theorem aluIncWide_eq {w : Nat} (pos : 0 < w) (f : Flags) (v : BitVec (w + 4)) :
    (aluIncWide f v).1.toNat = (v.toNat + 1) % 2 ^ (w + 4) ∧ (aluIncWide f v).2 = { f with
      z := decide ((aluIncWide f v).1.toNat = 0), n := false, h := decide (v.toNat % 2 ^ w = 2 ^ w - 1) } := by
  obtain ⟨value, z, n, h⟩ := addN_one pos v
  exact ⟨value, Flags.mk.injEq .. ▸ ⟨z, n, h, rfl, rfl⟩⟩

theorem aluDecWide_eq {w : Nat} (pos : 0 < w) (f : Flags) (v : BitVec (w + 4)) :
    (aluDecWide f v).1.toNat = (v.toNat + (2 ^ (w + 4) - 1)) % 2 ^ (w + 4) ∧ (aluDecWide f v).2 = { f with
      z := decide ((aluDecWide f v).1.toNat = 0), n := true, h := decide (v.toNat % 2 ^ w = 0) } := by
  obtain ⟨value, z, n, h⟩ := subN_one pos v
  exact ⟨value, Flags.mk.injEq .. ▸ ⟨z, n, h, rfl, rfl⟩⟩

/-- Settles O52: by `aluIncWide_eq` and `aluDecWide_eq` at both widths. -/
theorem wide_increments : Obligations.wide_increments := by
  intro s x
  obtain ⟨incW, incWFlags⟩ := aluIncWide_eq (w := 12) (by omega) s.flags (s.getW x)
  obtain ⟨incD, incDFlags⟩ := aluIncWide_eq (w := 28) (by omega) s.flags (s.getD x)
  obtain ⟨decW, decWFlags⟩ := aluDecWide_eq (w := 12) (by omega) s.flags (s.getW x)
  obtain ⟨decD, decDFlags⟩ := aluDecWide_eq (w := 28) (by omega) s.flags (s.getD x)
  exact ⟨⟨_, _, rfl, incW, incWFlags ▸ writesRegisterAndFlags_modifyW s aluIncWide x⟩,
    ⟨_, _, rfl, incD, incDFlags ▸ writesRegisterAndFlags_modifyD s aluIncWide x⟩,
    ⟨_, _, rfl, decW, decWFlags ▸ writesRegisterAndFlags_modifyW s aluDecWide x⟩,
    ⟨_, _, rfl, decD, decDFlags ▸ writesRegisterAndFlags_modifyD s aluDecWide x⟩⟩

/-! ### Logic -/

/-- Settles O53: bit by bit. -/
theorem logic : Obligations.logic :=
  ⟨accumulatorOperation_of (op := aluAnd) (fun _ _ => rfl) (fun _ _ => rfl) (fun _ _ => rfl)
      fun _ _ _ => ⟨fun _ => BitVec.getLsbD_and, rfl⟩,
    accumulatorOperation_of (op := aluOr) (fun _ _ => rfl) (fun _ _ => rfl) (fun _ _ => rfl)
      fun _ _ _ => ⟨fun _ => BitVec.getLsbD_or, rfl⟩,
    accumulatorOperation_of (op := aluXor) (fun _ _ => rfl) (fun _ _ => rfl) (fun _ _ => rfl)
      fun _ _ _ => ⟨fun _ => BitVec.getLsbD_xor, rfl⟩⟩

/-- Settles O54: the complement of a byte is its distance from 255. -/
theorem complement : Obligations.complement :=
  byteOperation_of (op := aluNot) (fun _ _ => rfl) (fun _ _ => rfl) fun _ _ => ⟨BitVec.toNat_not, rfl⟩

/-! ### Shifts, swaps and rotates -/

theorem getLsbD_seven (v : Byte) : v.getLsbD 7 = decide (128 ≤ v.toNat) := by
  rw [← BitVec.msb_eq_getLsbD_last, BitVec.msb_eq_decide]

theorem getLsbD_zero (v : Byte) : v.getLsbD 0 = decide (v.toNat % 2 = 1) := by
  rw [BitVec.getLsbD, Nat.testBit_zero]

theorem toNat_shiftInLow (v : Byte) (b : Bool) : (shiftInLow v b).toNat = 2 * v.toNat % 256 + b.toNat := by
  revert v b
  decide

theorem toNat_shiftInHigh (b : Bool) (v : Byte) : (shiftInHigh b v).toNat = v.toNat / 2 + 128 * b.toNat := by
  revert v b
  decide

/-- The halves of a value exchanged. -/
theorem toNat_swapHalves {k : Nat} (v : BitVec (k + k)) :
    (swapHalves k v).toNat = v.toNat % 2 ^ k * 2 ^ k + v.toNat / 2 ^ k := by
  have lt : v.toNat / 2 ^ k < 2 ^ k := Nat.div_lt_of_lt_mul (by rw [← Nat.pow_add]; exact v.isLt)
  rw [swapHalves, BitVec.toNat_append, BitVec.extractLsb'_toNat, BitVec.extractLsb'_toNat, Nat.shiftRight_zero,
    Nat.shiftRight_eq_div_pow, Nat.mod_eq_of_lt lt, ← Nat.shiftLeft_add_eq_or_of_lt lt, Nat.shiftLeft_eq]

/-- Settles O55: doubling modulo 256, signed and unsigned halving, and the bit shifted out. -/
theorem shifts : Obligations.shifts := by
  refine ⟨?_, ?_, ?_⟩
  · refine byteOperation_of (op := aluSla) (fun _ _ => rfl) (fun _ _ => rfl) fun f v => ⟨?_, ?_⟩
    · rw [aluSla, BitVec.toNat_shiftLeft, Nat.shiftLeft_eq, Nat.mul_comm]
    · rw [← getLsbD_seven]
      rfl
  · refine byteOperation_of (op := aluSra) (fun _ _ => rfl) (fun _ _ => rfl) fun f v => ⟨?_, ?_⟩
    · rw [aluSra, BitVec.toInt_sshiftRight, Int.shiftRight_eq_div_pow]
      rfl
    · rw [← getLsbD_zero]
      rfl
  · refine byteOperation_of (op := aluSrl) (fun _ _ => rfl) (fun _ _ => rfl) fun f v => ⟨?_, ?_⟩
    · rw [aluSrl, BitVec.toNat_ushiftRight, Nat.shiftRight_eq_div_pow]
    · rw [← getLsbD_zero]
      rfl

/-- Settles O56: by `toNat_swapHalves` at the three widths. -/
theorem swaps : Obligations.swaps :=
  ⟨byteOperation_of (op := aluSwap 4) (fun _ _ => rfl) (fun _ _ => rfl) fun _ v => ⟨toNat_swapHalves (k := 4) v, rfl⟩,
    fun s x => ⟨⟨_, _, _, rfl, writesRegisterAndFlags_modifyW s (aluSwap 8) x, toNat_swapHalves (k := 8) _, rfl⟩,
      ⟨_, _, _, rfl, writesRegisterAndFlags_modifyD s (aluSwap 16) x, toNat_swapHalves (k := 16) _, rfl⟩⟩⟩

/-- What each rotate of a byte gives: its value, with the bit that comes in, and the bit that goes out. -/
theorem aluRl_eq (f : Flags) (v : Byte) : (aluRl f v).1.toNat = 2 * v.toNat % 256 + f.c.toNat ∧
    ShiftFlags f (decide ((aluRl f v).1 = 0)) (decide (128 ≤ v.toNat)) (aluRl f v).2 :=
  ⟨toNat_shiftInLow v f.c, getLsbD_seven v ▸ rfl⟩

theorem aluRlc_eq (f : Flags) (v : Byte) : (aluRlc f v).1.toNat = 2 * v.toNat % 256 + v.toNat / 128 ∧
    ShiftFlags f (decide ((aluRlc f v).1 = 0)) (decide (128 ≤ v.toNat)) (aluRlc f v).2 := by
  refine ⟨(toNat_shiftInLow v _).trans ?_, getLsbD_seven v ▸ rfl⟩
  have := v.isLt
  rw [getLsbD_seven]
  by_cases high : 128 ≤ v.toNat <;> simp only [high, decide_true, decide_false, Bool.toNat_true, Bool.toNat_false] <;> omega

theorem aluRr_eq (f : Flags) (v : Byte) : (aluRr f v).1.toNat = v.toNat / 2 + 128 * f.c.toNat ∧
    ShiftFlags f (decide ((aluRr f v).1 = 0)) (decide (v.toNat % 2 = 1)) (aluRr f v).2 :=
  ⟨toNat_shiftInHigh f.c v, getLsbD_zero v ▸ rfl⟩

theorem aluRrc_eq (f : Flags) (v : Byte) : (aluRrc f v).1.toNat = v.toNat / 2 + 128 * (v.toNat % 2) ∧
    ShiftFlags f (decide ((aluRrc f v).1 = 0)) (decide (v.toNat % 2 = 1)) (aluRrc f v).2 := by
  refine ⟨(toNat_shiftInHigh _ v).trans ?_, getLsbD_zero v ▸ rfl⟩
  rw [getLsbD_zero]
  by_cases odd : v.toNat % 2 = 1
  · simp only [odd, decide_true, Bool.toNat_true]
  · simp only [odd, decide_false, Bool.toNat_false]
    omega

/-- Settles O57: by the equation of each rotate. -/
theorem rotates : Obligations.rotates :=
  ⟨byteOperation_of (op := aluRl) (fun _ _ => rfl) (fun _ _ => rfl) aluRl_eq,
    byteOperation_of (op := aluRlc) (fun _ _ => rfl) (fun _ _ => rfl) aluRlc_eq,
    byteOperation_of (op := aluRr) (fun _ _ => rfl) (fun _ _ => rfl) aluRr_eq,
    byteOperation_of (op := aluRrc) (fun _ _ => rfl) (fun _ _ => rfl) aluRrc_eq⟩

theorem shiftFlags_clearZ {old f : Flags} {z c : Bool} (h : ShiftFlags old z c f) :
    ShiftFlags old false c { f with z := false } := by
  rw [h]
  rfl

/-- Settles O58: the rotates of O57 on `L0`, with `Z` cleared. -/
theorem accumulator_rotates : Obligations.accumulator_rotates := fun s =>
  have frame (op : Unary 8) := writesRegisterAndFlags_modifyL s (clearZ op) 0
  ⟨⟨_, _, _, rfl, frame aluRl, (aluRl_eq s.flags _).1, shiftFlags_clearZ (aluRl_eq _ _).2⟩,
    ⟨_, _, _, rfl, frame aluRlc, (aluRlc_eq s.flags _).1, shiftFlags_clearZ (aluRlc_eq _ _).2⟩,
    ⟨_, _, _, rfl, frame aluRr, (aluRr_eq s.flags _).1, shiftFlags_clearZ (aluRr_eq _ _).2⟩,
    ⟨_, _, _, rfl, frame aluRrc, (aluRrc_eq s.flags _).1, shiftFlags_clearZ (aluRrc_eq _ _).2⟩⟩

/-! ### Bits -/

theorem checkBit_of_le {b : Nibble} (small : b.toNat ≤ 7) (body : Act Unit) : checkBit b body = body :=
  if_pos (decide_eq_true small)

theorem getLsbD_bitMask {b : Nibble} (small : b.toNat ≤ 7) (k : Nat) : (bitMask b).getLsbD k = decide (k = b.toNat) := by
  rw [bitMask, BitVec.natCast_eq_ofNat, BitVec.getLsbD_ofNat, Nat.one_shiftLeft, Nat.testBit_two_pow,
    decide_eq_decide.mpr (eq_comm (a := b.toNat) (b := k)), ← Bool.decide_and]
  exact decide_eq_decide.mpr (by omega)

/-- Settles O59: the flags of R401 from the bit, and nothing else. -/
theorem bit_tests : Obligations.bit_tests := by
  intro s x b small
  refine ⟨?_, fun v holds => ?_⟩
  · simp only [exec, execBitL, checkBit_of_le small]
    refine ⟨_, rfl, ?_⟩
    have bit : (s.getL x).getLsbD b.toNat = (s.getD x).getLsbD b.toNat := (getLsbD_getL_of_lt s x (by omega)).symm
    rw [← bit]
    exact writesOnlyFlags_setFlags s _
  · simp only [exec, execBitM, checkBit_of_le small]
    exact ⟨_, complete_done (withByte_holds holds _), writesOnlyFlags_setFlags s _⟩

/-- Settles O60: the mask of a bit number below 8 has that bit only. -/
theorem bit_changes : Obligations.bit_changes := by
  intro b small
  refine ⟨?_, ?_, ?_⟩
  · refine byteOperation_of (op := aluSetBit b) (fun x s => ?_) (fun x s => ?_) fun f v => ⟨fun k => ?_, rfl⟩
    · simp only [exec, execSetL, checkBit_of_le small]
    · simp only [exec, execSetM, checkBit_of_le small]
    · rw [aluSetBit, BitVec.getLsbD_or, getLsbD_bitMask small]
  · refine byteOperation_of (op := aluResBit b) (fun x s => ?_) (fun x s => ?_) fun f v => ⟨fun k => ?_, rfl⟩
    · simp only [exec, execResL, checkBit_of_le small]
    · simp only [exec, execResM, checkBit_of_le small]
    · rw [aluResBit, BitVec.getLsbD_and, BitVec.getLsbD_not, getLsbD_bitMask small]
      by_cases lt : k < 8
      · simp [lt]
      · simp [BitVec.getLsbD_of_ge v k (by omega)]
  · refine byteOperation_of (op := aluTogBit b) (fun x s => ?_) (fun x s => ?_) fun f v => ⟨fun k => ?_, rfl⟩
    · simp only [exec, execTogL, checkBit_of_le small]
    · simp only [exec, execTogM, checkBit_of_le small]
    · rw [aluTogBit, BitVec.getLsbD_xor, getLsbD_bitMask small]

/-! ### Decimal adjustment -/

theorem toNat_add_adjustments (v : Byte) (high low : Bool) :
    (v + (if high then 0x60 else 0) + (if low then 0x06 else 0)).toNat =
      (v.toNat + (if high then 0x60 else 0) + (if low then 0x06 else 0)) % 256 := by
  have lt := v.isLt
  cases high <;> cases low <;> simp [BitVec.toNat_add, Nat.mod_eq_of_lt lt]

theorem toNat_sub_adjustments (v : Byte) (high low : Bool) :
    (v - (if high then 0x60 else 0) - (if low then 0x06 else 0)).toNat =
      (v.toNat + 512 - (if high then 0x60 else 0) - (if low then 0x06 else 0)) % 256 := by
  cases high <;> cases low <;> simp [BitVec.toNat_sub] <;> omega

/-- The decimal adjustment in terms of values (R206). -/
theorem aluDaa_eq (f : Flags) (v : Byte) :
    (if f.n then
      (aluDaa f v).1.toNat = (v.toNat + 512 - (if f.c then 0x60 else 0) - (if f.h then 0x06 else 0)) % 256
    else
      (aluDaa f v).1.toNat = (v.toNat + (if f.c || decide (0x99 < v.toNat) then 0x60 else 0) +
        (if f.h || decide (9 < v.toNat % 16) then 0x06 else 0)) % 256) ∧
    (aluDaa f v).2 =
      { z := decide ((aluDaa f v).1.toNat = 0), n := f.n, h := false
        c := f.c || (!f.n && decide (0x99 < v.toNat)), v := f.v } := by
  obtain ⟨z, n, h, c, o⟩ := f
  cases n with
  | false =>
    exact ⟨toNat_add_adjustments v _ _, Flags.mk.injEq .. ▸ ⟨decide_eq_zero_iff_toNat _, rfl, rfl, rfl, rfl⟩⟩
  | true =>
    refine ⟨toNat_sub_adjustments v c h, Flags.mk.injEq .. ▸ ⟨decide_eq_zero_iff_toNat _, rfl, rfl, ?_, rfl⟩⟩
    exact (Bool.or_false c).symm

/-- Settles O32: by `aluDaa_eq` on `L0`. -/
theorem daa_adjusts : Obligations.daa_adjusts := fun s =>
  ⟨_, _, _, rfl, writesRegisterAndFlags_modifyL s aluDaa 0, aluDaa_eq s.flags (s.getL 0)⟩

theorem State.getL_setL (s : State) (x : Reg) (v : Byte) : (s.setL x v).getL x = v := by
  apply BitVec.eq_of_getLsbD_eq
  intro k lt
  rw [State.getLsbD_getL, registerBits_setL (s := s) (t := s.setL x v) (x := x) (v := v) rfl x k,
    if_pos ⟨rfl, Nat.zero_le k, by omega⟩, decide_eq_true lt, Bool.true_and, Nat.sub_zero]

/-- The sum of two packed decimal bytes, adjusted, is the packed sum of the numbers. -/
theorem daa_of_add {a b : Byte} {p q : Nat} (hp : p < 100) (hq : q < 100) (ha : a.toNat = p / 10 * 16 + p % 10)
    (hb : b.toNat = q / 10 * 16 + q % 10) :
    (aluDaa (addN a b false).2 (addN a b false).1).1.toNat = (p + q) % 100 / 10 * 16 + (p + q) % 10 ∧
      (aluDaa (addN a b false).2 (addN a b false).1).2.c = decide (100 ≤ p + q) := by
  obtain ⟨value, -, n, h, c, -⟩ := addResult_addN (w := 7) a b false
  obtain ⟨adjusted, flags⟩ := aluDaa_eq (addN a b false).2 (addN a b false).1
  rw [n, if_neg (by decide), h, c, value] at adjusted
  have tens : (256 ≤ p / 10 * 16 + p % 10 + (q / 10 * 16 + q % 10) ∨
      153 < (p / 10 * 16 + p % 10 + (q / 10 * 16 + q % 10)) % 256) ↔ 100 ≤ p + q := by omega
  have ones : (16 ≤ (p / 10 * 16 + p % 10) % 16 + (q / 10 * 16 + q % 10) % 16 ∨
      9 < (p / 10 * 16 + p % 10 + (q / 10 * 16 + q % 10)) % 256 % 16) ↔ 10 ≤ p % 10 + q % 10 := by omega
  rw [adjusted, flags, n, c, value, ha, hb]
  simp only [Bool.toNat_false, Nat.add_zero, Nat.reduceAdd, Nat.reduceSub, Nat.reducePow, ← Bool.decide_or, Bool.not_false,
    Bool.true_and, decide_eq_true_eq, tens, ones, and_true]
  split_ifs <;> omega

/-- Settles O33: by `daa_of_add`, `L0` between the two being the sum. -/
theorem add_then_daa_adds_decimals : Obligations.add_then_daa_adds_decimals := by
  intro s t u b p q hp hq ha hb added adjusted
  cases added
  cases adjusted
  have sum : (promote s.imp (accumulateL aluAdd b s)).getL 0 = (addN (s.getL 0) b false).1 :=
    (promote_getL _ _ _).trans (State.getL_setL s 0 _)
  obtain ⟨value, carry⟩ := daa_of_add hp hq ha hb
  have adjust : (promote s.imp (accumulateL aluAdd b s)).flags = (addN (s.getL 0) b false).2 := promote_flags _ _
  rw [promote_getL, promote_flags]
  constructor
  · rw [← value, ← sum, ← adjust]
    exact congrArg BitVec.toNat (State.getL_setL _ 0 _)
  · rw [← carry, ← sum, ← adjust]
    rfl

end Sys2Proof.Machine

/-! One frame of execution: fetching and decoding, the Stop, Halt and interrupt checks (spec/60_exceptions.md R500 to R506). -/

namespace Sys2Proof.Machine

/-! ### A frame that runs one instruction -/

theorem frame_of_stopped {t : State} (stopped : t.stopf = true) : frame t = .next t := if_pos stopped

theorem interruptCheck_of_none {t : State} (none : t.selectedVector = none) : interruptCheck t = t := by
  simp only [interruptCheck, none]

theorem frame_of_none {t : State} (running : t.stopf = false) (awake : t.haltf = false) (none : t.selectedVector = none) :
    frame t = runInstruction t := by
  simp [frame, haltCheck, running, awake, interruptCheck_of_none none]

theorem step_of_running {s t : State} (delivered : deliver s = .ok t) (running : t.stopf = false) (awake : t.haltf = false)
    (none : t.selectedVector = none) : step s = runInstruction t :=
  (step_of_deliver delivered).trans (frame_of_none running awake none)

/-! ### Bytes that decode -/

/-- Bytes that decode with none left over are two opcode bytes and an immediate of the length the identifier calls for. -/
theorem decode_eq_ok_nil {strict : Bool} {bytes : List Byte} {i : Instr} (h : decode strict bytes = .ok (i, [])) :
    ∃ lo ii imm, bytes = lo :: ii :: imm ∧ imm.length = immLength ii ∧ decodeParts strict lo ii (joinBytes imm) = .ok i := by
  unfold decode at h
  split at h
  · rename_i lo ii imm
    split at h
    · cases h
    · rename_i enough
      cases parts : decodeParts strict lo ii (joinBytes (imm.take (immLength ii))) with
      | error e =>
        rw [parts] at h
        cases h
      | ok j =>
        rw [parts] at h
        obtain ⟨rfl, none⟩ := Prod.mk.inj (Except.ok.inj h)
        have length : imm.length = immLength ii := by
          have := List.drop_eq_nil_iff.mp none
          omega
        refine ⟨lo, ii, imm, rfl, length, ?_⟩
        rwa [← length, List.take_length] at parts
  · cases h

theorem fetchBytes_platform {n : Nat} {t u : State} {bytes : List Byte} (h : fetchBytes n t = .done bytes u) :
    u.platform = t.platform := by
  rw [(fetchBytes_done h).2]

/-- What runs once the bytes of an instruction are fetched. -/
theorem runInstruction_of_fetchBytes {t u : State} {lo ii : Byte} {imm : List Byte}
    (h : fetchBytes (lo :: ii :: imm).length t = .done (lo :: ii :: imm) u) (length : imm.length = immLength ii) :
    runInstruction t = executeFetched { lo := lo, ii := ii, imm := joinBytes imm } u := by
  have total : (lo :: ii :: imm).length = 2 + imm.length := by
    simp only [List.length_cons]
    omega
  rw [total] at h
  rw [runInstruction, fetchInstruction_done h length]

/-- Fetching bytes where no device answers. -/
theorem fetchBytes_peek {bytes : List Byte} {t : State}
    (h : ∀ k b, bytes[k]? = some b → t.peek (t.pc + BitVec.ofNat 32 k) = some b) :
    fetchBytes bytes.length t = .done bytes (t.setPc (t.pc + BitVec.ofNat 32 bytes.length)) := by
  induction bytes using List.reverseRecOn with
  | nil =>
    rw [List.length_nil, BitVec.add_zero]
    rfl
  | append_singleton bytes b ih =>
    have before := ih fun k c at_k => h k c (by
      rw [List.getElem?_append_left (List.getElem?_eq_some_iff.mp at_k).1]
      exact at_k)
    have last := h bytes.length b (by rw [List.getElem?_append_right (Nat.le_refl _), Nat.sub_self]; rfl)
    rw [List.length_append, List.length_singleton, fetchBytes_succ, Act.bind_done before,
      Act.bind_done (fetch8_peek ((State.peek_setPc t _ _).trans last)), BitVec.ofNat_add, ← BitVec.add_assoc]
    rfl

theorem runInstruction_decoded {t u : State} {bytes : List Byte} {i : Instr}
    (fetched : fetchBytes bytes.length t = .done bytes u) :
    (decode t.platform.strictFields bytes = .ok (i, []) → runInstruction t = exec i u) ∧
    (decode false bytes = .ok (i, []) → decode t.platform.strictFields bytes = .error .unusedField →
      runInstruction t = .refused .unusedField) := by
  have platform := fetchBytes_platform fetched
  constructor
  · intro decoded
    obtain ⟨lo, ii, imm, rfl, length, parts⟩ := decode_eq_ok_nil decoded
    rw [runInstruction_of_fetchBytes fetched length]
    simp only [executeFetched, platform, parts]
  · intro lenient strict
    obtain ⟨lo, ii, imm, rfl, length, parts⟩ := decode_eq_ok_nil lenient
    rw [runInstruction_of_fetchBytes fetched length]
    have refused : decodeParts t.platform.strictFields lo ii (joinBytes imm) = .error .unusedField := by
      rw [← List.append_nil imm, decode_append length] at strict
      cases parts : decodeParts t.platform.strictFields lo ii (joinBytes imm) with
      | ok j =>
        rw [parts] at strict
        cases strict
      | error e =>
        rw [parts] at strict
        cases strict
        rfl
    simp only [executeFetched, platform, refused]

/-- Settles O4: the bytes at `PC` fetched (`fetchBytes_peek`, `fetchBytes_done`), then decoded (`runInstruction_decoded`). -/
theorem step_runs_the_decoded_instruction : Obligations.step_runs_the_decoded_instruction := by
  refine ⟨fun s t bytes i delivered running awake none readable => ?_, fun s t => step_of_running,
    fun t u bytes i fetched => ⟨(fetchBytes_done fetched).2, runInstruction_decoded fetched⟩⟩
  rw [step_of_running delivered running awake none]
  exact runInstruction_decoded (fetchBytes_peek readable)

theorem immLength_undefined : ∀ ii : Byte, UndefinedIdentifier ii.toNat → immLength ii = 0 := by
  unfold UndefinedIdentifier
  decide

/-- Two bytes that are readable at `PC`. -/
theorem fetchBytes_two_peek {t : State} {lo ii : Byte} (first : t.peek t.pc = some lo) (second : t.peek (t.pc + 1) = some ii) :
    fetchBytes 2 t = .done [lo, ii] (t.setPc (t.pc + 2)) :=
  fetchBytes_peek (bytes := [lo, ii]) fun k b at_k => by
    match k with
    | 0 =>
      cases at_k
      rw [BitVec.add_zero]
      exact first
    | 1 =>
      cases at_k
      exact second
    | k + 2 => cases at_k

/-- Settles O5: an undefined identifier calls for no immediate, and does not decode. -/
theorem undefined_identifier_raises : Obligations.undefined_identifier_raises := by
  intro t lo ii range
  have undefined : UndefinedIdentifier ii.toNat := by
    unfold UndefinedIdentifier
    simp only [List.mem_cons, List.not_mem_nil, or_false, ← BitVec.toNat_inj] at range
    revert range
    simp only [BitVec.reduceToNat]
    omega
  have raises (u : State) (fetched : fetchBytes 2 t = .done [lo, ii] u) :
      runInstruction t = .next (raise .invalidInstruction u) := by
    rw [runInstruction_of_fetchBytes (imm := []) fetched (immLength_undefined ii undefined).symm]
    simp only [executeFetched, decodeParts_undefined undefined]
  refine ⟨fun s delivered running awake none first second => ?_, raises⟩
  rw [step_of_running delivered running awake none]
  exact raises _ (fetchBytes_two_peek first second)

theorem runInstruction_of_raised {t u : State} {e : Exc} (h : fetchInstruction t = .raised e u) :
    runInstruction t = .next (raise e u) := by
  rw [runInstruction, h]

/-- A fetch that is refused has changed nothing but `PC` and the counter of the free values. -/
theorem fetchBytes_refused_shape {t u w : State} {k : Nat} {bytes : List Byte} {e : Exc}
    (fetched : fetchBytes k t = .done bytes u) (refused : busRead u.pc u = .raised e w) :
    w = { t with pc := t.pc + BitVec.ofNat 32 k, fresh := w.fresh } := by
  have shape := (fetchBytes_done fetched).2
  rcases busRead_cases u.pc u with ⟨b, n, answer⟩ | ⟨n, answer⟩
  · cases answer.symm.trans refused
  · cases answer.symm.trans refused
    rw [shape]

/-- Settles O6: a refused byte of the opcode, and one of the immediate. -/
theorem refused_fetch_raises : Obligations.refused_fetch_raises := by
  refine ⟨fun s t lo ii delivered running awake none => ?_, fun t u w k bytes e fetched refused => ?_⟩
  · rw [step_of_running delivered running awake none]
    refine ⟨fun refused => ?_, fun first refused => ?_, fun first second k refused => ?_⟩
    · exact runInstruction_of_raised (Act.bind_raised (fetchOpcodeByte_refused refused))
    · exact runInstruction_of_raised ((Act.bind_done (fetchOpcodeByte_peek first)).trans
        (Act.bind_raised (fetchOpcodeByte_refused refused)))
    · have shifted : (t.setPc (t.pc + 2)).ReadRefusedAt (t.setPc (t.pc + 2)).pc (immLength ii) k :=
        ⟨refused.lt, fun j lt => by rw [State.peek_setPc]; exact refused.answered j lt, refused.refused⟩
      exact runInstruction_of_raised ((fetchOpcode_done (fetchBytes_two_peek first second) _).trans
        (Act.bind_raised (fetchImmediate_refusedAt shifted)))
  · refine ⟨fetchBytes_refused_shape fetched refused, fun small => ?_, fun ii low identifier lt => ?_⟩
    · exact runInstruction_of_raised (fetchInstruction_refused_opcode fetched refused small)
    · obtain ⟨b, n, answer⟩ | ⟨n, answer⟩ := busRead_cases u.pc u
      · cases answer.symm.trans refused
      · cases answer.symm.trans refused
        exact runInstruction_of_raised (fetchInstruction_refused_immediate fetched refused identifier low lt)

end Sys2Proof.Machine

/-! Interrupts, exceptions, the environment's moves and the reset (spec/60_exceptions.md R501 to R527; spec/70 R600). -/

namespace Sys2Proof.Machine

/-! ### Selection -/

theorem getLsbD_bit0 (k : Nat) : (0x00000001 : Word).getLsbD k = decide (k = 0) :=
  BitVec.getLsbD_one.trans (by simp)

theorem getLsbD_candidates (s : State) (k : Nat) :
    s.candidates.getLsbD k = (s.ie.getLsbD k && s.irq.getLsbD k && (s.ime || decide (k = 0))) := by
  unfold State.candidates State.pending
  cases s.ime with
  | true => rw [if_pos rfl, BitVec.getLsbD_and, Bool.true_or, Bool.and_true]
  | false => rw [if_neg (by decide), BitVec.getLsbD_and, BitVec.getLsbD_and, getLsbD_bit0, Bool.false_or]

theorem lowestSet_eq_some_iff (w : Word) (i : Nat) :
    lowestSet w = some i ↔ i < 32 ∧ w.getLsbD i = true ∧ ∀ j, j < i → w.getLsbD j = false := by
  rw [lowestSet, List.find?_range_eq_some]
  simp only [List.mem_range, Bool.not_eq_true']
  tauto

/-- Settles O8: the lowest set bit of the candidates, which with `IME` clear are vector 0 only. -/
theorem lowest_ready_vector_is_selected : Obligations.lowest_ready_vector_is_selected := by
  intro s i
  rw [State.selectedVector, lowestSet_eq_some_iff]
  simp only [getLsbD_candidates, Bool.and_eq_true, Bool.or_eq_true, decide_eq_true_eq]
  constructor
  · rintro ⟨lt, ⟨⟨enabled, requested⟩, considered⟩, lower⟩
    refine ⟨lt, enabled, requested, considered, fun j less ⟨e, r⟩ => ?_⟩
    have := lower j less
    rcases considered with ime | rfl
    · simp [e, r, ime] at this
    · exact absurd less (Nat.not_lt_zero j)
  · rintro ⟨lt, enabled, requested, considered, lower⟩
    refine ⟨lt, ⟨⟨enabled, requested⟩, considered⟩, fun j less => ?_⟩
    have := lower j less
    rw [← Bool.and_eq_true, Bool.not_eq_true] at this
    rw [this, Bool.false_and]

/-! ### The Stop, Halt and interrupt checks -/

theorem selectedVector_of_no_candidates {s : State} (h : s.candidates = 0) : s.selectedVector = none := by
  rw [State.selectedVector, h]
  decide

/-- A CPU that is awake, or has an enabled request pending, goes on awake (R502). -/
theorem haltCheck_awake {t : State} (pending : t.haltf = true → t.pending ≠ 0) :
    haltCheck t = some { t with haltf := false } := by
  unfold haltCheck
  cases halted : t.haltf with
  | false => rw [if_neg (by decide), ← halted]
  | true => rw [if_pos rfl, if_neg (pending halted)]

theorem frame_of_haltCheck {t u : State} (running : t.stopf = false) (check : haltCheck t = some u) :
    frame t = if (interruptCheck u).stopf then .next (interruptCheck u) else runInstruction (interruptCheck u) := by
  rw [frame, if_neg (by simp [running])]
  simp only [check]

/-- Settles O7: the Stop check, the Halt check, and a CPU woken with nothing to service. -/
theorem stopped_and_halted_frames : Obligations.stopped_and_halted_frames := by
  intro s t delivered
  rw [step_of_deliver delivered]
  refine ⟨frame_of_stopped, fun running halted idle => ?_, fun running halted pending ime vector => ?_⟩
  · simp [frame, haltCheck, running, halted, State.pending, idle]
  · have candidates : State.candidates { t with haltf := false } = 0 := by
      apply BitVec.eq_of_getLsbD_eq
      intro k _
      rw [getLsbD_candidates, show State.ime { t with haltf := false } = false from ime, Bool.false_or]
      refine Eq.trans ?_ BitVec.getLsbD_zero.symm
      by_cases e : k = 0
      · subst e
        exact Bool.and_eq_false_iff.mpr (.inl (Bool.and_eq_false_iff.mpr (.inr vector)))
      · rw [decide_eq_false e, Bool.and_false]
    rw [frame_of_haltCheck running (haltCheck_awake fun _ => pending),
      interruptCheck_of_none (selectedVector_of_no_candidates candidates)]
    exact if_neg (by simp [running])

/-- A frame that services an interrupt goes on to the handler unless the service ends in a double fault (D39). -/
theorem frame_of_selected {s : State} {i : Nat} (running : s.stopf = false) (selected : s.selectedVector = some i) :
    frame s = if (serviceInterrupt i s).stopf then .next (serviceInterrupt i s) else runInstruction (serviceInterrupt i s) := by
  have pending : s.pending ≠ 0 := by
    obtain ⟨-, enabled, requested, -⟩ := (lowest_ready_vector_is_selected s i).mp selected
    intro zero
    have := congrArg (BitVec.getLsbD · i) zero
    simp [State.pending, enabled, requested] at this
  have selected' : State.selectedVector { s with haltf := false } = some i := selected
  have checked : interruptCheck { s with haltf := false } = serviceInterrupt i s := by
    rw [interruptCheck, selected']
    rfl
  rw [frame_of_haltCheck running (haltCheck_awake fun _ => pending), checked]

/-- A service whose stack bytes are all taken. -/
theorem service_takes {s : State} (takes : s.StackTakes) (i : Nat) :
    service i s = .done () { s with
      pc := vectorAddress i, sp := pushAddress s.sp 4, mem := Memory.pushBytes s.platform s.mem s.sp s.pc 4 } :=
  Act.then_done (push32_takes takes s.pc)

theorem memoryPushed {s u : State} (wf : s.mem.wf = true) {v : Word}
    (mem : u.mem = Memory.pushBytes s.platform s.mem s.sp v 4) : MemoryPushed s u v := by
  unfold MemoryPushed BytesPushed
  rw [mem]
  exact Memory.read_pushBytes wf s.platform s.sp v (by decide)

/-- Settles O11: `frame_of_selected`, the service being a push whose bytes are taken. -/
theorem interrupt_is_serviced_then_handler_runs : Obligations.interrupt_is_serviced_then_handler_runs := by
  intro before s i delivered running selected wf takes
  have served := service_takes (s := acknowledge i s) takes i
  have after : serviceInterrupt i s = { acknowledge i s with
      pc := vectorAddress i, sp := pushAddress s.sp 4, mem := Memory.pushBytes s.platform s.mem s.sp s.pc 4 } := by
    simp only [serviceInterrupt, served]
    rfl
  refine ⟨serviceInterrupt i s, ?_⟩
  rw [step_of_deliver delivered, frame_of_selected running selected, after]
  exact ⟨if_neg (by simp [running]), rfl, rfl, memoryPushed wf rfl, getLsbD_acknowledge_irq i s, rfl, rfl, fun _ => rfl,
    rfl, rfl, rfl, rfl, rfl, rfl, rfl, rfl, rfl⟩

/-! ### Exceptions -/

theorem takeException_takes {s : State} (takes : s.StackTakes) (e : Exc) :
    takeException e s = { acknowledge 0 s with ec := e.code, pc := 0x00001000, sp := pushAddress s.sp 4,
                                               mem := Memory.pushBytes s.platform s.mem s.sp s.pc 4 } := by
  have served := service_takes (s := acknowledge 0 { s with ec := e.code }) takes 0
  have vector : vectorAddress 0 = 0x00001000 := by decide
  rw [vector] at served
  simp only [takeException, served]
  rfl

theorem mem_exceptionTable (e : Exc) (code : Byte) : e.code = code ↔ (e, code) ∈ exceptionTable := by
  cases e <;>
  · simp only [exceptionTable, Exc.code, List.mem_cons, Prod.mk.injEq, reduceCtorEq, false_and, true_and, false_or, or_false,
      List.not_mem_nil]
    exact eq_comm

/-- Settles O12: `takeException_takes` for an exception that is neither `OK` nor a double fault. -/
theorem raise_enters_the_handler : Obligations.raise_enters_the_handler := by
  refine ⟨mem_exceptionTable, fun s e code listed nonzero notDouble none wf takes t eq => ?_⟩
  obtain rfl := (mem_exceptionTable e code).mpr listed
  have ok : e ≠ .ok := fun h => nonzero (h ▸ rfl)
  have df : e ≠ .doubleFault := fun h => notDouble (h ▸ rfl)
  rw [raise_of_ec_zero ok df none, takeException_takes takes e] at eq
  subst eq
  exact ⟨rfl, rfl, rfl, memoryPushed wf rfl, getLsbD_acknowledge_irq 0 s, rfl, rfl, rfl, fun _ => rfl, rfl, rfl, rfl, rfl,
    rfl, rfl, rfl⟩

/-- An exception whose push is refused is a double fault (R511). -/
theorem takeException_refused {s u : State} {e x : Exc}
    (refused : push32 s.pc (acknowledge 0 { s with ec := e.code }) = .raised x u) :
    takeException e s = { u with df := true, stopf := true } := by
  have served : service 0 (acknowledge 0 { s with ec := e.code }) = .raised x u := Act.then_raised refused
  simp only [takeException, served]
  rfl

/-- Settles O13: the raise procedure case by case, and the two refused pushes. -/
theorem double_faults : Obligations.double_faults := by
  refine fun s e => ⟨raise_of_ec_ne_zero, rfl, rfl, fun ok df none refused => ?_, fun ok df none wf k refused => ?_⟩
  · rw [raise_of_ec_zero ok df none,
      takeException_refused (push32_refused (s := acknowledge 0 { s with ec := e.code }) refused s.pc)]
    rfl
  · have abandoned := pushAbandoned (s := acknowledge 0 { s with ec := e.code }) wf s.pc refused.lt
    have pushed := push32_refusedAt (s := acknowledge 0 { s with ec := e.code }) ⟨refused.lt, refused.taken, refused.refused⟩ s.pc
    exact ⟨_, abandoned, (raise_of_ec_zero ok df none).trans (takeException_refused pushed)⟩

/-- What a double fault keeps until a reset (R511). -/
structure DoubleFaultKept (s t : State) : Prop where
  df : t.df = true
  stopf : t.stopf = true
  d : t.d = s.d
  flags : t.flags = s.flags
  pc : t.pc = s.pc
  sp : t.sp = s.sp
  ime : t.ime = s.ime
  imp : t.imp = s.imp
  haltf : t.haltf = s.haltf
  ec : t.ec = s.ec

/-- No move but a reset changes what a double fault keeps. -/
theorem DoubleFaultKept.applyMove {s u v : State} {m : EnvMove} (h : DoubleFaultKept s u) (noReset : m ≠ .reset)
    (eq : applyMove m u = .ok v) : DoubleFaultKept s v := by
  have same {w : State} (stop : u.stopf = true)
      (eq' : w = { u with ie := w.ie, irq := w.irq, mem := w.mem, platform := w.platform }) : DoubleFaultKept s w := by
    rw [eq']
    exact ⟨h.df, stop, h.d, h.flags, h.pc, h.sp, h.ime, h.imp, h.haltf, h.ec⟩
  cases m with
  | reset => exact absurd rfl noReset
  | raise code =>
    unfold Machine.applyMove at eq
    dsimp only at eq
    split at eq
    · cases eq
    · cases eq
      rw [if_pos h.stopf]
      exact h
  | clearStop =>
    unfold Machine.applyMove at eq
    dsimp only at eq
    rw [if_pos h.df] at eq
    cases eq
    exact h
  | _ =>
    cases eq
    exact same h.stopf rfl

/-- Settles O14: the moves keep it (`DoubleFaultKept.applyMove`), and a stopped CPU does nothing. -/
theorem only_reset_leaves_a_double_fault : Obligations.only_reset_leaves_a_double_fault := by
  intro s t df stopf noReset next
  obtain ⟨u, delivered, framed⟩ := step_eq_next next
  have kept : DoubleFaultKept s u :=
    deliver_induction (fun batch head m mem _ _ h eq => h.applyMove (fun reset => noReset batch head (reset ▸ mem)) eq)
      (fun _ => ⟨df, stopf, rfl, rfl, rfl, rfl, rfl, rfl, rfl, rfl⟩) delivered
  rw [frame_of_stopped kept.stopf] at framed
  cases framed
  exact ⟨kept.df, kept.stopf, fun r => State.getD_congr kept.d r, kept.flags, ⟨kept.pc, kept.sp⟩, kept.ime, kept.imp,
    kept.haltf, kept.ec⟩

/-! ### The argument check -/

theorem ofField_undefined : ∀ c : Nibble, 7 ≤ c.toNat → Cond.ofField c = none := by decide

theorem ifCond_undefined {c : Nibble} (h : 7 ≤ c.toNat) (taken : Act Unit) (s : State) :
    ifCond c taken s = .raised .invalidArgument s := by
  simp only [ifCond, ofField_undefined c h]

theorem checkBit_undefined {b : Nibble} (h : 8 ≤ b.toNat) (body : Act Unit) (s : State) :
    checkBit b body s = .raised .invalidArgument s := by
  have : bitDefined b = false := decide_eq_false (by omega)
  simp [checkBit, this]

/-- Settles O15: the check comes before the body, in every form. -/
theorem undefined_arguments_raise : Obligations.undefined_arguments_raise := by
  intro s x y c b n w h
  refine ⟨fun undefined i mem => ?_, fun undefined => ?_, fun undefined i mem => ?_⟩
  · simp only [List.mem_cons, List.not_mem_nil, or_false] at mem
    rcases mem with rfl | rfl | rfl | rfl | rfl
    all_goals exact complete_raised (ifCond_undefined undefined _ s)
  · have : vectorDefined n = false := decide_eq_false (by omega)
    simp [exec, execInt, this, complete]
  · simp only [List.mem_cons, List.not_mem_nil, or_false] at mem
    rcases mem with rfl | rfl | rfl | rfl | rfl | rfl | rfl | rfl
    all_goals exact complete_raised (checkBit_undefined undefined _ s)

/-! ### The environment's moves and the reset -/

theorem getLsbD_one_shiftLeft (i k : Nat) (lt : i < 32) : ((1 : Word) <<< i).getLsbD k = decide (k = i) := by
  rw [show (1 : Word) = 1#32 from rfl, ← BitVec.twoPow_eq, BitVec.getLsbD_twoPow, decide_eq_true lt, Bool.true_and]
  exact decide_eq_decide.mpr eq_comm

theorem ofCode_code (e : Exc) : Exc.ofCode e.code = some e := by cases e <;> rfl

theorem isSome_ofCode : ∀ code : Byte, (Exc.ofCode code).isSome = decide (code.toNat ≤ 0x0A) := by decide

theorem applyMoves_eq_foldlM (moves : List EnvMove) (s : State) :
    applyMoves moves s = moves.foldlM (fun u move => applyMove move u) s := by
  induction moves generalizing s with
  | nil => rfl
  | cons m rest ih =>
    rw [applyMoves, List.foldlM_cons]
    cases applyMove m s with
    | ok t => exact ih t
    | error r => rfl

/-- Settles O21: move by move, then the batch (`applyMoves_eq_foldlM`) and the step. -/
theorem environment_moves : Obligations.environment_moves := by
  intro s
  refine ⟨fun i => ⟨_, rfl, rfl, fun k => ?_⟩, fun v => ⟨_, rfl, rfl, fun k => ?_⟩, fun stopped code small => ?_,
    fun running e => ?_, fun code large => ?_, fun df => congrArg Except.ok (if_pos df),
    fun df => congrArg Except.ok (if_neg (by simp [df])), fun a b wf => ⟨_, rfl, rfl, fun c => ?_⟩,
    fun bus => ⟨_, rfl, rfl, rfl⟩, fun none => ?_, fun batch rest head => ?_, fun t => step_of_deliver,
    fun r => step_of_deliver_error⟩
  · exact (BitVec.getLsbD_or).trans (congrArg _ (getLsbD_one_shiftLeft i.val k i.isLt))
  · exact (BitVec.getLsbD_or).trans (congrArg _ (getLsbD_bit0 k))
  · obtain ⟨e, named⟩ := Option.isSome_iff_exists.mp ((isSome_ofCode code).trans (decide_eq_true small))
    simp only [applyMove, named, stopped, if_true]
  · simp [applyMove, ofCode_code, running]
  · have : Exc.ofCode code = none := by
      rw [← Option.not_isSome_iff_eq_none, isSome_ofCode, decide_eq_true_eq]
      omega
    simp only [applyMove, this]
  · exact (Memory.read_write wf _ b _).trans (by simp only [BitVec.toNat_inj])
  · rw [deliver, none]
  · rw [deliver, head]
    exact applyMoves_eq_foldlM batch _

/-- Settles O22: field by field; memory by the laws of its two operations. -/
theorem hardware_reset : Obligations.hardware_reset := by
  intro s wf
  have rom := Memory.wf_romHalf wf
  refine ⟨_, rfl, rfl, rfl, rfl, rfl, rfl, rfl, rfl, rfl, rfl, rfl, Memory.wf_writeRam rom _, fun a low => ?_, rfl, rfl⟩
  have lt : a.toNat < 2 ^ 31 := by
    rw [BitVec.msb_eq_false_iff_two_mul_lt] at low
    omega
  exact (Memory.read_writeRam rom _ lt).trans (Memory.read_romHalf wf lt)

end Sys2Proof.Machine

/-! Data accesses byte by byte on the bus, for every form of instruction (spec/20_memory.md R72, R76 to R82). -/

namespace Sys2Proof.Machine

/-! ### What an access keeps -/

/-- What no access of memory or of the stack touches: `IMP`, the Stop flag and the flags. -/
structure AccessKept (s t : State) : Prop where
  imp : t.imp = s.imp
  stopf : t.stopf = s.stopf
  flags : t.flags = s.flags

theorem AccessKept.trans {s t u : State} (h : AccessKept s t) (h' : AccessKept t u) : AccessKept s u :=
  ⟨h'.imp.trans h.imp, h'.stopf.trans h.stopf, h'.flags.trans h.flags⟩

theorem accessKept_setSysRegByte (s : State) (r : SysReg) (k : Nat) (b : Byte) : AccessKept s (s.setSysRegByte r k b) := by
  cases r with
  | ec => exact ⟨rfl, rfl, rfl⟩
  | _ =>
    simp only [State.setSysRegByte]
    split <;> exact ⟨rfl, rfl, rfl⟩

namespace AccessKept

theorem bind {α β : Type} {x : Act α} {f : α → Act β} (hx : ∀ s a t, x s = .done a t → AccessKept s t)
    (hf : ∀ c s b t, f c s = .done b t → AccessKept s t) (s : State) (b : β) (u : State)
    (h : Act.bind x f s = .done b u) : AccessKept s u := by
  obtain ⟨a, t, first, second⟩ := Act.bind_eq_done h
  exact (hx s a t first).trans (hf a t b u second)

theorem pure {α : Type} (a : α) (s : State) (b : α) (t : State) (h : Act.pure a s = .done b t) : AccessKept s t := by
  cases h
  exact ⟨rfl, rfl, rfl⟩

theorem busRead (a : Word) (s : State) (b : Byte) (t : State) (h : busRead a s = .done b t) : AccessKept s t := by
  rcases busRead_cases a s with ⟨c, n, e⟩ | ⟨n, e⟩ <;> cases e.symm.trans h
  exact ⟨rfl, rfl, rfl⟩

theorem busWrite (a : Word) (b : Byte) (s : State) (u : Unit) (t : State) (h : busWrite a b s = .done u t) : AccessKept s t := by
  rcases busWrite_cases a b s with ⟨-, e⟩ | ⟨n, e⟩ | ⟨r, k, -, e⟩ | ⟨n, e⟩ <;> cases e.symm.trans h
  · exact ⟨rfl, rfl, rfl⟩
  · exact ⟨rfl, rfl, rfl⟩
  · exact accessKept_setSysRegByte s r k b

theorem readBytes (n : Nat) (a : Word) : ∀ s bytes t, readBytes n a s = .done bytes t → AccessKept s t := by
  induction n with
  | zero => exact pure []
  | succ k ih => exact bind ih fun _ => bind (busRead _) fun _ => pure _

theorem writeBytes (n : Nat) (a v : Word) : ∀ s u t, writeBytes n a v s = .done u t → AccessKept s t := by
  induction n with
  | zero => exact pure ()
  | succ k ih => exact bind ih fun _ => busWrite _ _

theorem stackWrite (n : Nat) (v : Word) : ∀ s u t, stackWrite n v s = .done u t → AccessKept s t := by
  induction n with
  | zero => exact pure ()
  | succ k ih =>
    refine bind ih fun _ s u t h => ?_
    obtain ⟨imp, stopf, flags⟩ := busWrite _ _ _ u t h
    exact ⟨imp, stopf, flags⟩

theorem stackRead (n : Nat) : ∀ s bytes t, stackRead n s = .done bytes t → AccessKept s t := by
  induction n with
  | zero => exact pure []
  | succ k ih =>
    exact bind ih fun _ => bind (fun s => busRead s.sp s) fun _ =>
      bind (fun s _ t h => by cases h; exact ⟨rfl, rfl, rfl⟩) fun _ => pure _

end AccessKept

/-! ### Completion after an access -/

theorem exec_nop (s : State) : exec .nop s = .next (promote s.imp s) := rfl

theorem complete_congr {x y : Act Unit} {s : State} (h : x s = y s) : complete x s = complete y s := by
  rw [complete, h, complete]

/-- An access that completes, and then the rest of the instruction. -/
theorem complete_bind_done {α : Type} {x : Act α} {rest : α → Act Unit} {s t : State} {a : α} (h : x s = .done a t)
    (kept : AccessKept s t) : complete (Act.bind x rest) s = complete (rest a) t := by
  rw [complete, Act.bind_done h, complete, kept.imp]

theorem complete_bind_raised {α : Type} {x : Act α} {rest : α → Act Unit} {s t : State} {e : Exc} (h : x s = .raised e t) :
    complete (Act.bind x rest) s = .next (raise e t) :=
  complete_raised (Act.bind_raised h)

/-- An access that is the whole instruction. -/
theorem complete_access {x : Act Unit} {s t : State} (h : x s = .done () t) (kept : AccessKept s t) :
    complete x s = exec .nop t := by
  rw [complete_done h, exec_nop, kept.imp]

/-! ### The bytes of an access -/

theorem readBytes_first_raised {s t : State} {a : Word} {e : Exc} {n : Nat} (pos : 0 < n) (h : busRead a s = .raised e t) :
    readBytes n a s = .raised e t := by
  induction n with
  | zero => exact absurd pos (by decide)
  | succ k ih =>
    by_cases first : k = 0
    · subst first
      rw [← BitVec.add_zero a] at h
      exact (Act.bind_done (Act.pure_apply [] s)).trans (Act.bind_raised h)
    · exact Act.bind_raised (ih (by omega))

theorem readBytes_one (a : Word) {s t : State} {b : Byte} (h : busRead a s = .done b t) : readBytes 1 a s = .done [b] t := by
  rw [← BitVec.add_zero a] at h
  exact Act.bind_done h

/-- Bytes that no device answers are read without a change. -/
theorem readBytes_answered {s : State} {a : Word} {k : Nat} (h : ∀ j, j < k → ∃ b, s.peek (a + BitVec.ofNat 32 j) = some b) :
    ∃ bytes, readBytes k a s = .done bytes s := by
  induction k with
  | zero => exact ⟨[], rfl⟩
  | succ k ih =>
    obtain ⟨bytes, below⟩ := ih fun j lt => h j (by omega)
    obtain ⟨b, answer⟩ := h k (by omega)
    exact ⟨bytes ++ [b], (Act.bind_done below).trans (Act.bind_done (busRead_peek answer))⟩

theorem readBytes_refusedAt {s : State} {a : Word} {n k : Nat} (h : s.ReadRefusedAt a n k) :
    readBytes n a s = .raised .invalidReadAccess s := by
  obtain ⟨lt, answered, refused⟩ := h
  induction n with
  | zero => exact absurd lt (Nat.not_lt_zero k)
  | succ n ih =>
    by_cases last : k = n
    · subst last
      obtain ⟨bytes, below⟩ := readBytes_answered answered
      exact (Act.bind_done below).trans (Act.bind_raised (busRead_refused refused))
    · exact Act.bind_raised (ih (by omega))

theorem peek_openBus {s : State} {a : Word} (h : s.platform.readPolicy a = .openBus) : s.peek a = some 0xFF := by
  rw [State.peek, h]
  rfl

theorem readBytes_openBus {s : State} {a : Word} {n : Nat}
    (h : ∀ k, k < n → s.platform.readPolicy (a + BitVec.ofNat 32 k) = .openBus) :
    readBytes n a s = .done (List.replicate n 0xFF) s := by
  induction n with
  | zero => rfl
  | succ n ih =>
    rw [List.replicate_succ']
    exact (Act.bind_done (ih fun k lt => h k (by omega))).trans (Act.bind_done (busRead_peek (peek_openBus (h n (by omega)))))

theorem writeBytes_taken {s : State} {a : Word} {k : Nat} (h : s.TakesAll a k) (v : Word) :
    writeBytes k a v s = .done () (s.setMem (Memory.writeBytes s.platform s.mem a v k)) := by
  induction k with
  | zero => rfl
  | succ k ih => exact (Act.then_done (ih fun j lt => h j (by omega))).trans (busWrite_writeBytes (h k (by omega)))

theorem writeBytes_refusedAt {s : State} {a : Word} {n k : Nat} (h : s.WriteRefusedAt a n k) (v : Word) :
    writeBytes n a v s = .raised .invalidWriteAccess (s.setMem (Memory.writeBytes s.platform s.mem a v k)) := by
  obtain ⟨lt, taken, refused⟩ := h
  induction n with
  | zero => exact absurd lt (Nat.not_lt_zero k)
  | succ n ih =>
    by_cases last : k = n
    · subst last
      exact (Act.then_done (writeBytes_taken taken v)).trans (busWrite_writeBytes_refused refused _)
    · exact Act.then_raised (ih (by omega))

theorem writeBytes_first_refused {s : State} {a : Word} {n : Nat} (pos : 0 < n) (h : s.RefusesWrite a) (v : Word) :
    writeBytes n a v s = .raised .invalidWriteAccess s :=
  writeBytes_refusedAt (k := 0) ⟨pos, fun _ lt => absurd lt (Nat.not_lt_zero _), by rwa [BitVec.add_zero]⟩ v

theorem writeBytes_ignored {s : State} {a : Word} {n : Nat}
    (h : ∀ k, k < n → (a + BitVec.ofNat 32 k).msb = true ∧ s.platform.writePolicy (a + BitVec.ofNat 32 k) = .ignore) (v : Word) :
    writeBytes n a v s = .done () s := by
  induction n with
  | zero => rfl
  | succ n ih =>
    obtain ⟨half, ignored⟩ := h n (by omega)
    exact (Act.then_done (ih fun k lt => h k (by omega))).trans (busWrite_ignored half ignored _)

theorem writeBytes_one (a v : Word) : writeBytes 1 a v = busWrite a (v.setWidth 8) := by
  have byte : byteAt v 0 = v.setWidth 8 := by
    apply BitVec.eq_of_getLsbD_eq
    intro j lt
    rw [getLsbD_byteAt, BitVec.getLsbD_setWidth, Nat.mul_zero, Nat.zero_add]
  rw [writeBytes, writeBytes, byte, BitVec.add_zero]
  rfl

/-! ### Stores -/

theorem complete_storeL (a : Word) (y : Reg) (s : State) :
    complete (storeL a y) s = complete (writeBytes 1 a ((s.getL y).setWidth 32)) s :=
  complete_congr (congrFun (memWrite8_bytes a (s.getL y)) s)

theorem complete_storeW (a : Word) (y : Reg) (s : State) :
    complete (storeW a y) s = complete (writeBytes 2 a ((s.getW y).setWidth 32)) s :=
  complete_congr (congrFun (memWrite16_bytes a (s.getW y)) s)

theorem complete_storeD (a : Word) (y : Reg) (s : State) :
    complete (storeD a y) s = complete (writeBytes 4 a (s.getD y)) s :=
  complete_congr (congrFun (memWrite32_bytes a (s.getD y)) s)

/-- `i` writes the low `n` bytes of `v` from `a` up and completes. -/
structure StoresBytes (i : Instr) (s : State) (a : Word) (n : Nat) (v : Word) : Prop where
  pos : 0 < n
  small : n ≤ 4
  meaning : exec i s = complete (writeBytes n a v) s

theorem storesBytes {i : Instr} {s : State} {a v : Word} {n : Nat} (h : storeOperand i s = some (a, n, v)) :
    StoresBytes i s a n v := by
  cases i with
  | stAbsL | stIndL | stqAbsL | stqIndL | stpAbsL | stpIndL =>
    cases h
    exact ⟨by decide, by decide, complete_storeL _ _ _⟩
  | stAbsW | stIndW | stqAbsW | stqIndW =>
    cases h
    exact ⟨by decide, by decide, complete_storeW _ _ _⟩
  | stAbsD | stIndD | stqAbsD | stqIndD =>
    cases h
    exact ⟨by decide, by decide, complete_storeD _ _ _⟩
  | ssp =>
    cases h
    exact ⟨by decide, by decide, complete_congr (congrFun (memWrite32_bytes _ s.sp) s)⟩
  | _ => cases h

theorem storeOperand_of_storeAddress {i : Instr} {s : State} {a : Word} (h : storeAddress i s = some a) :
    ∃ n v, storeOperand i s = some (a, n, v) := by
  obtain ⟨⟨b, n, v⟩, operand, rfl⟩ := Option.map_eq_some_iff.mp h
  exact ⟨n, v, operand⟩

/-! ### Read-modify-writes -/

/-- `i` changes the byte that `D[x]` points to and `j` changes `L[x]`, both by `op`. -/
structure ModifiesBy (op : Unary 8) (x : Reg) (i j : Instr) : Prop where
  memory : ∀ s, exec i s = complete (modifyM op (s.getD x)) s
  register : ∀ s, exec j s = complete (update (modifyL op x)) s

theorem complete_checkBit {b : Nibble} (defined : bitDefined b = true) (body : Act Unit) (s : State) :
    complete (checkBit b body) s = complete body s :=
  congrArg (complete · s) (checkBit_of_le (of_decide_eq_true defined) body)

theorem some_eq_of_ite {α : Type} {p : Prop} [Decidable p] {a b : α} (h : (if p then some b else none) = some a) : p ∧ a = b := by
  obtain ⟨holds, eq⟩ := Option.ite_none_right_eq_some.mp h
  exact ⟨holds, (Option.some.inj eq).symm⟩

theorem exists_modifiesBy {i : Instr} {s : State} {a : Word} (h : modifyAddress i s = some a) :
    ∃ op x j, registerForm i = some (x, j) ∧ a = s.getD x ∧ ModifiesBy op x i j := by
  cases i with
  | incM | decM | notM | slaM | sraM | srlM | swapM | rlM | rlcM | rrM | rrcM =>
    cases h
    exact ⟨_, _, _, rfl, rfl, fun _ => rfl, fun _ => rfl⟩
  | setM x b =>
    obtain ⟨defined, rfl⟩ := some_eq_of_ite h
    exact ⟨aluSetBit b, _, _, rfl, rfl, fun s => complete_checkBit defined _ s, fun s => complete_checkBit defined _ s⟩
  | resM x b =>
    obtain ⟨defined, rfl⟩ := some_eq_of_ite h
    exact ⟨aluResBit b, _, _, rfl, rfl, fun s => complete_checkBit defined _ s, fun s => complete_checkBit defined _ s⟩
  | togM x b =>
    obtain ⟨defined, rfl⟩ := some_eq_of_ite h
    exact ⟨aluTogBit b, _, _, rfl, rfl, fun s => complete_checkBit defined _ s, fun s => complete_checkBit defined _ s⟩
  | _ => cases h

/-- What a read-modify-write does once its byte is read. -/
theorem modifyM_read {s t : State} {a : Word} {b : Byte} (op : Unary 8) (read : busRead a s = .done b t) :
    complete (modifyM op a) s =
      complete (Act.then (busWrite a (op t.flags b).1) (update fun u => u.setFlags (op t.flags b).2)) t := by
  have kept := AccessKept.busRead a s b t read
  have body : modifyM op a s =
      Act.bind (busRead a) (fun v => Act.then (busWrite a (op t.flags v).1) (update fun u => u.setFlags (op t.flags v).2)) s := by
    rw [kept.flags]
    rfl
  exact (complete_congr body).trans (complete_bind_done read kept)

/-- A read-modify-write, once its byte is read, writes what the register form gives and then the flags. -/
theorem exec_modify_read {i j : Instr} {x : Reg} {a : Word} {b : Byte} {s t u : State} (address : modifyAddress i s = some a)
    (form : registerForm i = some (x, j)) (read : busRead a s = .done b t) (onRegister : exec j (t.setL x b) = .next u) :
    exec i s = complete (Act.then (busWrite a (u.getL x)) (update fun w => w.setFlags u.flags)) t := by
  obtain ⟨op, x', j', form', rfl, by_op⟩ := exists_modifiesBy address
  cases form'.symm.trans form
  rw [by_op.register, complete_update] at onRegister
  cases onRegister
  have byte : (promote (t.setL x b).imp (modifyL op x (t.setL x b))).getL x = (op t.flags b).1 := by
    rw [promote_getL]
    change (State.setL _ x _).getL x = _
    rw [State.getL_setL, State.getL_setL]
    rfl
  have flags : (promote (t.setL x b).imp (modifyL op x (t.setL x b))).flags = (op t.flags b).2 := by
    rw [promote_flags]
    change (op t.flags ((t.setL x b).getL x)).2 = _
    rw [State.getL_setL]
  rw [by_op.memory, modifyM_read op read, byte, flags]

theorem exec_modify_read_raised {i j : Instr} {x : Reg} {a : Word} {b : Byte} {s t u w : State} {e : Exc}
    (address : modifyAddress i s = some a) (form : registerForm i = some (x, j)) (read : busRead a s = .done b t)
    (onRegister : exec j (t.setL x b) = .next u) (write : busWrite a (u.getL x) t = .raised e w) :
    exec i s = .next (raise e w) :=
  (exec_modify_read address form read onRegister).trans (complete_raised (Act.then_raised write))

theorem exec_modify_read_done {i j : Instr} {x : Reg} {a : Word} {b : Byte} {s t u w : State}
    (address : modifyAddress i s = some a) (form : registerForm i = some (x, j)) (read : busRead a s = .done b t)
    (onRegister : exec j (t.setL x b) = .next u) (write : busWrite a (u.getL x) t = .done () w) :
    exec i s = exec .nop (w.setFlags u.flags) := by
  rw [exec_modify_read address form read onRegister]
  exact (complete_bind_done write (AccessKept.busWrite _ _ _ _ _ write)).trans rfl

/-- A read-modify-write that reads its byte and is refused the write. -/
theorem exec_modify_refused {i : Instr} {a : Word} {b : Byte} {s : State} (address : modifyAddress i s = some a)
    (read : s.peek a = some b) (refused : s.RefusesWrite a) : exec i s = .next (raise .invalidWriteAccess s) := by
  obtain ⟨op, x, j, -, rfl, by_op⟩ := exists_modifiesBy address
  rw [by_op.memory, modifyM_read op (busRead_peek read)]
  exact complete_raised (Act.then_raised (busWrite_refusesWrite refused _))

/-! ### Reads of data -/

/-- `i` reads `n` bytes from `a` up and goes on with `rest` of their value; its immediate form is `rest`. -/
structure ReadsThen (i : Instr) (s : State) (a : Word) (n : Nat) (rest : Word → Act Unit) : Prop where
  pos : 0 < n
  memory : exec i s = complete (Act.bind (readBytes n a) fun bytes => rest (joinBytes bytes)) s
  immediate : ∀ v j t, immediateForm i v = some j → exec j t = complete (rest v) t

theorem complete_loadL (x : Reg) (a : Word) (s : State) : complete (loadL x a) s =
    complete (Act.bind (readBytes 1 a) fun bytes => update fun t => t.setL x ((joinBytes bytes).setWidth 8)) s := by
  rw [loadL, memRead8_bytes, Act.bind_assoc]
  rfl

theorem complete_loadW (x : Reg) (a : Word) (s : State) : complete (loadW x a) s =
    complete (Act.bind (readBytes 2 a) fun bytes => update fun t => t.setW x ((joinBytes bytes).setWidth 16)) s := by
  rw [loadW, memRead16_bytes, Act.bind_assoc]
  rfl

theorem complete_loadD (x : Reg) (a : Word) (s : State) : complete (loadD x a) s =
    complete (Act.bind (readBytes 4 a) fun bytes => update fun t => t.setD x (joinBytes bytes)) s := by
  rw [loadD, memRead32_bytes, Act.bind_assoc]
  rfl

theorem complete_withByte (a : Word) (f : Byte → State → State) (s : State) : complete (withByte a f) s =
    complete (Act.bind (readBytes 1 a) fun bytes => update (f ((joinBytes bytes).setWidth 8))) s := by
  rw [withByte, memRead8_bytes, Act.bind_assoc]
  rfl

theorem complete_modifyM (op : Unary 8) (a : Word) (s : State) : complete (modifyM op a) s =
    complete (Act.bind (readBytes 1 a) fun bytes =>
      Act.then (memWrite8 a (op s.flags ((joinBytes bytes).setWidth 8)).1) <|
      update fun t => t.setFlags (op s.flags ((joinBytes bytes).setWidth 8)).2) s := by
  refine complete_congr ?_
  rw [modifyM, memRead8_bytes, Act.bind_assoc]
  rfl

theorem ReadsThen.load8 {x : Reg} {a : Word} {s : State} {i : Instr} (memory : exec i s = complete (loadL x a) s)
    (immediate : ∀ v, immediateForm i v = some (.ldLImm x (v.setWidth 8))) :
    ReadsThen i s a 1 fun v => update fun t => t.setL x (v.setWidth 8) where
  pos := by decide
  memory := memory.trans (complete_loadL x a s)
  immediate v j t form := by
    cases (immediate v).symm.trans form
    rfl

theorem ReadsThen.load16 {x : Reg} {a : Word} {s : State} {i : Instr} (memory : exec i s = complete (loadW x a) s)
    (immediate : ∀ v, immediateForm i v = some (.ldWImm x (v.setWidth 16))) :
    ReadsThen i s a 2 fun v => update fun t => t.setW x (v.setWidth 16) where
  pos := by decide
  memory := memory.trans (complete_loadW x a s)
  immediate v j t form := by
    cases (immediate v).symm.trans form
    rfl

theorem ReadsThen.load32 {x : Reg} {a : Word} {s : State} {i : Instr} (memory : exec i s = complete (loadD x a) s)
    (immediate : ∀ v, immediateForm i v = some (.ldDImm x v)) : ReadsThen i s a 4 fun v => update fun t => t.setD x v where
  pos := by decide
  memory := memory.trans (complete_loadD x a s)
  immediate v j t form := by
    cases (immediate v).symm.trans form
    rfl

theorem ReadsThen.byte {f : Byte → State → State} {a : Word} {s : State} {i : Instr}
    (memory : exec i s = complete (withByte a f) s)
    (immediate : ∀ v j t, immediateForm i v = some j → exec j t = complete (update (f (v.setWidth 8))) t) :
    ReadsThen i s a 1 fun v => update (f (v.setWidth 8)) where
  pos := by decide
  memory := memory.trans (complete_withByte a f s)
  immediate := immediate

theorem immediateForm_of_modify {i j : Instr} {s : State} {a v : Word} (address : modifyAddress i s = some a) :
    immediateForm i v ≠ some j := by
  intro form
  cases i with
  | ldLAbs | ldLInd | ldqLAbs | ldqLInd | ldpLAbs | ldpLInd | ldWAbs | ldWInd | ldqWAbs | ldqWInd | ldDAbs | ldDInd | ldqDAbs
  | ldqDInd | addLInd | adcLInd | subLInd | sbcLInd | andInd | orInd | xorInd | cmpInd => cases address
  | _ => cases form

theorem exists_readsThen_of_modify {i : Instr} {s : State} {a : Word} (address : modifyAddress i s = some a) :
    ∃ rest, ReadsThen i s a 1 rest := by
  obtain ⟨op, x, j, -, rfl, by_op⟩ := exists_modifiesBy address
  exact ⟨fun v => Act.then (memWrite8 (s.getD x) (op s.flags (v.setWidth 8)).1) <|
      update fun t => t.setFlags (op s.flags (v.setWidth 8)).2,
    by decide, (by_op.memory s).trans (complete_modifyM op _ s), fun v j t form => absurd form (immediateForm_of_modify address)⟩

theorem exists_readsThen {i : Instr} {s : State} {a : Word} {n : Nat} (h : readOperand i s = some (a, n)) :
    ∃ rest, ReadsThen i s a n rest := by
  cases i with
  | ldLAbs | ldLInd | ldqLAbs | ldqLInd | ldpLAbs | ldpLInd =>
    cases h
    exact ⟨_, .load8 rfl fun _ => rfl⟩
  | ldWAbs | ldWInd | ldqWAbs | ldqWInd =>
    cases h
    exact ⟨_, .load16 rfl fun _ => rfl⟩
  | ldDAbs | ldDInd | ldqDAbs | ldqDInd =>
    cases h
    exact ⟨_, .load32 rfl fun _ => rfl⟩
  | addLInd | adcLInd | subLInd | sbcLInd | andInd | orInd | xorInd | cmpInd =>
    cases h
    exact ⟨_, .byte rfl fun v j t form => by cases form; rfl⟩
  | bitM x b =>
    obtain ⟨defined, operand⟩ := some_eq_of_ite h
    cases operand
    exact ⟨_, .byte (complete_checkBit defined _ s) fun v j t form => by cases form⟩
  | incM | decM | notM | slaM | sraM | srlM | swapM | rlM | rlcM | rrM | rrcM =>
    cases h
    exact exists_readsThen_of_modify rfl
  | setM x b | resM x b | togM x b =>
    obtain ⟨c, address, operand⟩ := Option.map_eq_some_iff.mp h
    cases operand
    exact exists_readsThen_of_modify address
  | _ => cases h

end Sys2Proof.Machine

/-! What the bus answers, and what each answer means for every instruction that accesses data (spec/20_memory.md R72, R76 to R81;
`SYSREG_MAP`: R3, R40). -/

namespace Sys2Proof.Machine

/-! ### Stores and read-modify-writes that are refused -/

theorem exec_store_refused {i : Instr} {s : State} {a : Word} (address : storeAddress i s = some a) (refused : s.RefusesWrite a) :
    exec i s = .next (raise .invalidWriteAccess s) := by
  obtain ⟨n, v, operand⟩ := storeOperand_of_storeAddress address
  obtain ⟨pos, -, meaning⟩ := storesBytes operand
  exact meaning.trans (complete_raised (writeBytes_first_refused pos refused v))

/-- Settles O16: in the read-only half the CPU's own check refuses the first write. -/
theorem stores_to_the_read_only_half_raise : Obligations.stores_to_the_read_only_half_raise := fun _ _ _ low =>
  ⟨fun address => exec_store_refused address (.inl low), fun address _ read => exec_modify_refused address read (.inl low)⟩

theorem exec_store_refusedAt {i : Instr} {s : State} {a v : Word} {n k : Nat} (operand : storeOperand i s = some (a, n, v))
    (refused : s.WriteRefusedAt a n k) :
    exec i s = .next (raise .invalidWriteAccess (s.setMem (Memory.writeBytes s.platform s.mem a v k))) := by
  exact (storesBytes operand).meaning.trans (complete_raised (writeBytes_refusedAt refused v))

/-- The second byte of a store at the last address lies at address 0, in the read-only half. -/
theorem writeRefusedAt_top {s : State} {n : Nat} (two : 1 < n) (stored : s.platform.writePolicy 0xFFFFFFFF = .memory) :
    s.WriteRefusedAt 0xFFFFFFFF n 1 where
  lt := two
  taken j lt := by
    obtain rfl : j = 0 := by omega
    exact ⟨by decide, .inl stored⟩
  refused := .inl (by decide)

theorem writeBytes_top {w : Nat} {s : State} (stored : s.platform.writePolicy 0xFFFFFFFF = .memory) (v : BitVec w) :
    Memory.writeBytes s.platform s.mem 0xFFFFFFFF v 1 = s.mem.write 0xFFFFFFFF (byteAt v 0) :=
  if_pos stored

theorem byteAt_getW (s : State) (y : Reg) : byteAt (s.getW y) 0 = s.getL y := by
  apply BitVec.eq_of_getLsbD_eq
  intro k lt
  rw [getLsbD_byteAt, decide_eq_true lt, Bool.true_and, Nat.mul_zero, Nat.zero_add, ← getLsbD_getW_of_lt s y (by omega),
    getLsbD_getL_of_lt s y lt]

/-- Settles O17: `exec_store_refusedAt`, with byte 1 the refused one at the top of memory. -/
theorem stores_past_the_top_are_partial : Obligations.stores_past_the_top_are_partial := by
  intro s
  refine ⟨fun i a v n k wf operand refused => ⟨_, ⟨?_, rfl⟩, exec_store_refusedAt operand refused⟩, fun x y stored top => ?_⟩
  · have small := (storesBytes operand).small
    exact Memory.read_writeBytes wf s.platform a v (refused.lt.trans (by omega))
  · have half : storeOperand (.stIndW x y) s = some (0xFFFFFFFF, 2, (s.getW y).setWidth 32) := by rw [storeOperand, top]
    have word : storeOperand (.stIndD x y) s = some (0xFFFFFFFF, 4, s.getD y) := by rw [storeOperand, top]
    have low : byteAt ((s.getW y).setWidth 32) 0 = s.getL y := (byteAt_setWidth _ (by decide)).trans (byteAt_getW s y)
    rw [exec_store_refusedAt half (writeRefusedAt_top (by decide) stored),
      exec_store_refusedAt word (writeRefusedAt_top (by decide) stored), writeBytes_top stored, writeBytes_top stored, low]
    exact ⟨rfl, rfl⟩

/-! ### Reads of data -/

theorem exec_read_raised {i : Instr} {s t : State} {a : Word} {n : Nat} {e : Exc} (operand : readOperand i s = some (a, n))
    (read : readBytes n a s = .raised e t) : exec i s = .next (raise e t) := by
  obtain ⟨rest, reads⟩ := exists_readsThen operand
  exact reads.memory.trans (complete_bind_raised read)

theorem exec_read_first_raised {i : Instr} {s t : State} {a : Word} {n : Nat} {e : Exc} (operand : readOperand i s = some (a, n))
    (read : busRead a s = .raised e t) : exec i s = .next (raise e t) := by
  obtain ⟨rest, reads⟩ := exists_readsThen operand
  exact exec_read_raised operand (readBytes_first_raised reads.pos read)

theorem exec_read_done {i j : Instr} {s t : State} {a : Word} {n : Nat} {bytes : List Byte}
    (operand : readOperand i s = some (a, n)) (read : readBytes n a s = .done bytes t)
    (form : immediateForm i (joinBytes bytes) = some j) : exec i s = exec j t := by
  obtain ⟨rest, reads⟩ := exists_readsThen operand
  rw [reads.memory, complete_bind_done read (AccessKept.readBytes n a s bytes t read), reads.immediate _ _ _ form]

theorem joinBytes_singleton (b : Byte) : joinBytes [b] = b.setWidth 32 := by
  apply BitVec.eq_of_getLsbD_eq
  intro k lt
  rw [joinBytes, joinBytes, getLsbD_append_24_8]
  split
  · simp [lt]
  · simp [BitVec.getLsbD_of_ge b k (by omega)]

/-- What an instruction does with the one byte it reads is what its immediate form does with it. -/
theorem exec_read_byte {i j : Instr} {s t : State} {a : Word} {b : Byte} (operand : readOperand i s = some (a, 1))
    (read : busRead a s = .done b t) (form : immediateForm i (b.setWidth 32) = some j) : exec i s = exec j t :=
  exec_read_done operand (readBytes_one a read) ((joinBytes_singleton b).symm ▸ form)

theorem readOperand_bitM {x : Reg} {b : Nibble} {s : State} {a : Word} {n : Nat} (h : readOperand (.bitM x b) s = some (a, n)) :
    bitDefined b = true ∧ a = s.getD x ∧ n = 1 := by
  obtain ⟨defined, operand⟩ := some_eq_of_ite h
  cases operand
  exact ⟨defined, rfl, rfl⟩

/-- `BIT` on memory, once its byte is read, leaves the flags that `BIT` on a register with that value leaves. -/
theorem exec_bitM_read {x : Reg} {b : Nibble} {s t u : State} {a : Word} {n : Nat} {bytes : List Byte}
    (operand : readOperand (.bitM x b) s = some (a, n)) (read : readBytes n a s = .done bytes t)
    (onRegister : exec (.bitL x b) (t.setL x ((joinBytes bytes).setWidth 8)) = .next u) :
    exec (.bitM x b) s = exec .nop (t.setFlags u.flags) := by
  obtain ⟨defined, rfl, rfl⟩ := readOperand_bitM operand
  have test (w : State) : exec (.bitL x b) w = .next (promote w.imp (w.setFlags (bitTestFlags w.flags (w.getL x) b))) :=
    complete_checkBit defined _ w
  have onMemory : exec (.bitM x b) s = _ := (complete_checkBit defined _ s).trans (complete_withByte (s.getD x) _ s)
  cases (test _).symm.trans onRegister
  rw [onMemory, complete_bind_done read (AccessKept.readBytes _ _ _ _ _ read), promote_flags, State.setFlags_flags,
    State.setL_flags, State.getL_setL]
  rfl

/-- The bytes of the open bus make the immediate that is all ones. -/
theorem immediateForm_openBus {i : Instr} {s : State} {a : Word} {n : Nat} (operand : readOperand i s = some (a, n)) :
    immediateForm i (joinBytes (List.replicate n 0xFF)) = immediateForm i 0xFFFFFFFF := by
  cases i with
  | ldLAbs | ldLInd | ldqLAbs | ldqLInd | ldpLAbs | ldpLInd | ldWAbs | ldWInd | ldqWAbs | ldqWInd | ldDAbs | ldDInd | ldqDAbs
  | ldqDInd | addLInd | adcLInd | subLInd | sbcLInd | andInd | orInd | xorInd | cmpInd =>
    cases operand
    rfl
  | _ => rfl

/-! ### Writes of data -/

theorem exec_store_raised {i : Instr} {s t : State} {a v : Word} {n : Nat} {e : Exc} (operand : storeOperand i s = some (a, n, v))
    (write : writeBytes n a v s = .raised e t) : exec i s = .next (raise e t) := by
  exact (storesBytes operand).meaning.trans (complete_raised write)

theorem exec_store_done {i : Instr} {s t : State} {a v : Word} {n : Nat} (operand : storeOperand i s = some (a, n, v))
    (write : writeBytes n a v s = .done () t) : exec i s = exec .nop t := by
  exact (storesBytes operand).meaning.trans (complete_access write (AccessKept.writeBytes n a v s () t write))

theorem busWrite_memory {s : State} {a : Word} (half : a.msb = true) (stored : s.platform.writePolicy a = .memory) (b : Byte) :
    busWrite a b s = .done () (s.setMem (s.mem.write a.toNat b)) := by
  simp only [busWrite, writable, half, stored, if_true]

/-- Settles O18: one byte by the laws of `busRead` and `busWrite`, every form by the lemmas above. -/
theorem bus_answers : Obligations.bus_answers := by
  intro s
  refine ⟨fun a => ⟨fun memory => busRead_peek (by rw [State.peek, memory]), fun openBus => busRead_peek (peek_openBus openBus),
      busRead_refused, fun b => ⟨fun low => busWrite_readOnly low b s, fun half stored wf =>
        ⟨_, busWrite_memory half stored b, rfl, fun c => ?_⟩, fun half ignored => busWrite_ignored half ignored b,
        fun half refused => busWrite_refused half refused b⟩⟩,
    fun i a n operand => ⟨fun e t => exec_read_raised operand, fun bytes t read =>
      ⟨fun j => exec_read_done operand read, ?_⟩⟩,
    fun i a n v operand => ⟨fun e t => exec_store_raised operand, fun t => exec_store_done operand⟩,
    fun i x j a b t u address form read onRegister =>
      ⟨fun e w => exec_modify_read_raised address form read onRegister,
        fun w => exec_modify_read_done address form read onRegister⟩,
    fun i a n k operand refused => exec_read_raised operand (readBytes_refusedAt refused),
    fun i a refused => ⟨fun address => exec_store_refused address refused,
      fun address b read => exec_modify_refused address read refused⟩,
    fun i a n operand bus =>
      ⟨fun j form => exec_read_done operand (readBytes_openBus bus) (immediateForm_openBus operand ▸ form), ?_⟩,
    fun i x j a u address form bus onRegister =>
      have read := busRead_peek (peek_openBus bus)
      ⟨fun e w => exec_modify_read_raised address form read onRegister,
        fun w => exec_modify_read_done address form read onRegister⟩,
    fun i a n v operand bus => exec_store_done operand (writeBytes_ignored bus v),
    fun i x j a b u address form read half ignored onRegister =>
      exec_modify_read_done address form (busRead_peek read) onRegister (busWrite_ignored half ignored _)⟩
  · exact (Memory.read_write wf _ b _).trans (by simp only [BitVec.toNat_inj])
  · rintro x b u rfl onRegister
    exact exec_bitM_read operand read onRegister
  · rintro x b u rfl onRegister
    refine exec_bitM_read operand (readBytes_openBus bus) ?_
    obtain ⟨-, -, rfl⟩ := readOperand_bitM operand
    exact onRegister

/-! ### Devices -/

theorem busRead_device {s : State} {a : Word} (device : s.platform.readPolicy a = .device) :
    busRead a s = match Config.deviceRead s.fresh a with
      | some b => .done b { s with fresh := s.fresh + 1 }
      | none => .raised .invalidReadAccess { s with fresh := s.fresh + 1 } :=
  if_pos device

theorem busWrite_device {s : State} {a : Word} (half : a.msb = true) (device : s.platform.writePolicy a = .device) (b : Byte) :
    busWrite a b s = if Config.deviceAccepts s.fresh a b then .done () { s with fresh := s.fresh + 1 }
      else .raised .invalidWriteAccess { s with fresh := s.fresh + 1 } := by
  simp only [busWrite, writable, half, device, if_true]

/-- Settles O19: the one byte the device answers or takes, by `exec_read_byte` and `writeBytes_one`. -/
theorem device_windows : Obligations.device_windows := by
  refine fun s a => ⟨fun device => ?_, fun half device => ⟨busWrite_device half device, fun i v operand => ?_⟩⟩
  · have read := busRead_device device
    cases answer : Config.deviceRead s.fresh a with
    | some b =>
      rw [answer] at read
      exact ⟨read, fun i j operand form => exec_read_byte operand read form⟩
    | none =>
      rw [answer] at read
      exact ⟨read, fun i n operand => exec_read_first_raised operand read⟩
  · have write : writeBytes 1 a v s = _ := (congrFun (writeBytes_one a v) s).trans (busWrite_device half device _)
    by_cases accepts : Config.deviceAccepts s.fresh a (v.setWidth 8) = true
    · rw [if_pos accepts] at write ⊢
      exact exec_store_done operand write
    · rw [if_neg accepts] at write ⊢
      exact exec_store_raised operand write

/-! ### Mapped system registers -/

theorem busRead_sysReg {s : State} {a : Word} {r : SysReg} (mapped : s.platform.readPolicy a = .sysReg r) :
    busRead a s = .done (s.sysRegByte r (s.platform.regionOffset a)) s :=
  busRead_peek (by rw [State.peek, mapped])

theorem busWrite_sysReg {s : State} {a : Word} {r : SysReg} (half : a.msb = true) (mapped : s.platform.writePolicy a = .sysReg r)
    (b : Byte) : busWrite a b s = .done () (s.setSysRegByte r (s.platform.regionOffset a) b) := by
  simp only [busWrite, writable, half, mapped, if_true]

theorem getLsbD_replaceByte (v : Word) {k : Nat} (small : k < 4) (b : Byte) (j : Nat) :
    (replaceByte v k b).getLsbD j = if 8 * k ≤ j ∧ j < 8 * k + 8 then b.getLsbD (j - 8 * k) else v.getLsbD j := by
  have ones (m : Nat) : (0xFF : Word).getLsbD m = decide (m < 8) := by
    rw [show (0xFF : Word) = BitVec.ofNat 32 (2 ^ 8 - 1) from rfl, BitVec.getLsbD_ofNat, Nat.testBit_two_pow_sub_one,
      ← Bool.decide_and]
    exact decide_eq_decide.mpr (by omega)
  simp only [replaceByte, BitVec.getLsbD_or, BitVec.getLsbD_and, BitVec.getLsbD_not, BitVec.getLsbD_shiftLeft, ones,
    BitVec.getLsbD_setWidth]
  by_cases inside : 8 * k ≤ j ∧ j < 8 * k + 8
  · obtain ⟨low, high⟩ := inside
    simp [low, high, show j < 32 by omega, show j - 8 * k < 8 by omega, show ¬ j < 8 * k by omega, show j - 8 * k < 32 by omega]
  · rw [if_neg inside]
    by_cases below : j < 8 * k
    · simp [below, show j < 32 by omega]
    · rw [BitVec.getLsbD_of_ge b (j - 8 * k) (by omega)]
      by_cases lt : j < 32
      · simp [lt, show ¬ j - 8 * k < 8 by omega]
      · simp [BitVec.getLsbD_of_ge v j (by omega)]

/-- The bits of a mapped `IE` or `IRQ` after a byte write. -/
theorem getLsbD_ite_replaceByte (v : Word) (k : Nat) (b : Byte) (j : Nat) :
    (if k < 4 then replaceByte v k b else v).getLsbD j =
      if k < 4 ∧ 8 * k ≤ j ∧ j < 8 * k + 8 then b.getLsbD (j - 8 * k) else v.getLsbD j := by
  by_cases small : k < 4
  · simp only [small, if_true, true_and, getLsbD_replaceByte v small]
  · simp only [small, if_false, false_and]

/-- Settles O20: the layout is that of `sysRegByte` and `setSysRegByte`. -/
theorem system_register_windows : Obligations.system_register_windows := by
  rintro s a k rfl
  refine ⟨fun r v mapped value => ?_, fun r half mapped b => ⟨_, busWrite_sysReg half mapped b, ?_, fun i v operand byte => ?_⟩⟩
  · have read := busRead_sysReg mapped
    have layout : s.sysRegByte r (s.platform.regionOffset a) = v := by
      subst value
      cases r <;> rfl
    rw [layout] at read
    exact ⟨read, fun i j operand form => exec_read_byte operand read form⟩
  · generalize s.platform.regionOffset a = k
    cases r with
    | ie =>
      refine ⟨?_, fun j => ?_⟩
      · simp only [State.setSysRegByte]
        split <;> rfl
      · rw [← getLsbD_ite_replaceByte]
        simp only [State.setSysRegByte]
        by_cases small : k < 4
        · rw [if_pos small, if_pos small, State.setIe_ie, BitVec.getLsbD_or, getLsbD_bit0, decide_eq_true small, Bool.and_true,
            Bool.or_comm]
        · rw [if_neg small, if_neg small, decide_eq_false small, Bool.and_false, Bool.false_or]
    | irq =>
      refine ⟨?_, fun j => ?_⟩
      · simp only [State.setSysRegByte]
        split <;> rfl
      · rw [← getLsbD_ite_replaceByte]
        simp only [State.setSysRegByte]
        split <;> rfl
    | ec => rfl
  · subst byte
    exact exec_store_done operand ((congrFun (writeBytes_one a v) s).trans (busWrite_sysReg half mapped _))

end Sys2Proof.Machine

/-! The accesses of the stack byte by byte on the bus (spec/20_memory.md R83, R84; spec/60_exceptions.md R505, R511, R518, R519). -/

namespace Sys2Proof.Machine

/-! ### Pushes and pops as bytes -/

theorem push32_done {s t : State} {v : Word} (bytes : stackWrite 4 v s = .done () t) : push32 v s = .done () t := by
  rw [push32_bytes]
  exact Act.reporting_done bytes

theorem push32_raised {s t : State} {v : Word} {e : Exc} (bytes : stackWrite 4 v s = .raised e t) :
    push32 v s = .raised .stackOverflow t := by
  rw [push32_bytes]
  exact Act.reporting_raised bytes

theorem pop32_done {s t : State} {bytes : List Byte} (read : stackRead 4 s = .done bytes t) :
    pop32 s = .done (joinBytes bytes) t := by
  rw [pop32_bytes]
  exact Act.reporting_done (Act.bind_done read)

theorem pop32_raised {s t : State} {e : Exc} (read : stackRead 4 s = .raised e t) : pop32 s = .raised .stackUnderflow t := by
  rw [pop32_bytes]
  exact Act.reporting_raised (Act.bind_raised read)

/-! ### The instructions that push -/

theorem exec_push_raised {s t : State} {r : Reg} {e : Exc} (pushed : push32 (s.getD r) s = .raised e t) :
    exec (.push r) s = .next (raise e t) := complete_raised pushed

/-- A `CALL` whose condition is met, and an `INT` of a defined vector: a push of `PC` and a jump. -/
theorem exec_call {s : State} {c : Nibble} (met : (c, true) ∈ conditionTable s.flags) (target : Word) :
    exec (.call c target) s = complete (Act.then (push32 s.pc) (update fun t => t.setPc target)) s :=
  complete_congr (ifCond_of_table met _)

theorem exec_int {n : Byte} (small : n.toNat ≤ 0x1F) (s : State) :
    exec (.int n) s = complete (Act.then (push32 s.pc) (update fun t => t.setPc (vectorAddress n.toNat))) s :=
  congrArg (complete · s) (if_pos (decide_eq_true small))

/-- A push and a jump whose bytes the bus takes. -/
theorem complete_push_jump {s t : State} {v : Word} (bytes : stackWrite 4 v s = .done () t) (target : Word) :
    complete (Act.then (push32 v) (update fun u => u.setPc target)) s = exec .nop (t.setPc target) :=
  (complete_bind_done (push32_done bytes) (AccessKept.stackWrite 4 v s () t bytes)).trans rfl

theorem exec_call_raised {s t : State} {c : Nibble} {e : Exc} (met : (c, true) ∈ conditionTable s.flags) (target : Word)
    (pushed : push32 s.pc s = .raised e t) : exec (.call c target) s = .next (raise e t) :=
  (exec_call met target).trans (complete_bind_raised pushed)

theorem exec_int_raised {s t : State} {n : Byte} {e : Exc} (small : n.toNat ≤ 0x1F) (pushed : push32 s.pc s = .raised e t) :
    exec (.int n) s = .next (raise e t) :=
  (exec_int small s).trans (complete_bind_raised pushed)

/-! ### The instructions that pop -/

/-- A pop, and what is done with the value. -/
theorem complete_pop {s t : State} {bytes : List Byte} (read : stackRead 4 s = .done bytes t) (f : Word → State → State) :
    complete (Act.bind pop32 fun v => update (f v)) s = complete (update (f (joinBytes bytes))) t :=
  complete_bind_done (pop32_done read) (AccessKept.stackRead 4 s bytes t read)

theorem exec_ret {s : State} {c : Nibble} (met : (c, true) ∈ conditionTable s.flags) :
    exec (.ret c) s = complete (Act.bind pop32 fun v => update fun t => t.setPc v) s :=
  complete_congr (ifCond_of_table met _)

theorem exec_pops_raised {s t : State} {r : Reg} {c : Nibble} {e : Exc} (met : (c, true) ∈ conditionTable s.flags)
    (popped : pop32 s = .raised e t) : ∀ i ∈ [Instr.pop r, .ret c, .reti], exec i s = .next (raise e t) := by
  simp only [List.forall_mem_cons, List.not_mem_nil, false_implies, implies_true, and_true]
  exact ⟨complete_bind_raised popped, (exec_ret met).trans (complete_bind_raised popped), complete_bind_raised popped⟩

/-! ### The pushes of a service -/

theorem serviceInterrupt_done {s t : State} {i : Nat} (bytes : stackWrite 4 s.pc (acknowledge i s) = .done () t) :
    serviceInterrupt i s = t.setPc (vectorAddress i) := by
  have served : service i (acknowledge i s) = .done () (t.setPc (vectorAddress i)) := Act.then_done (push32_done bytes)
  simp only [serviceInterrupt, served]

theorem serviceInterrupt_raised {s t : State} {i : Nat} {e : Exc} (pushed : push32 s.pc (acknowledge i s) = .raised e t) :
    serviceInterrupt i s = raise e t := by
  have served : service i (acknowledge i s) = .raised e t := Act.then_raised pushed
  simp only [serviceInterrupt, served]

theorem step_of_selected {before s : State} {i : Nat} (delivered : deliver before = .ok s) (running : s.stopf = false)
    (selected : s.selectedVector = some i) {u : State} (serviced : serviceInterrupt i s = u) :
    step before = if u.stopf then .next u else runInstruction u := by
  rw [step_of_deliver delivered, frame_of_selected running selected, serviced]

/-- A service whose push the bus takes goes on to the handler. -/
theorem step_of_selected_done {before s t : State} {i : Nat} (delivered : deliver before = .ok s) (running : s.stopf = false)
    (selected : s.selectedVector = some i) (bytes : stackWrite 4 s.pc (acknowledge i s) = .done () t) :
    step before = runInstruction (t.setPc (vectorAddress i)) := by
  have stopf : t.stopf = false := (AccessKept.stackWrite _ _ _ _ _ bytes).stopf.trans running
  rw [step_of_selected delivered running selected (serviceInterrupt_done bytes), State.setPc_stopf, stopf]
  rfl

theorem takeException_done {s t : State} {e : Exc}
    (bytes : stackWrite 4 s.pc (acknowledge 0 { s with ec := e.code }) = .done () t) :
    takeException e s = t.setPc 0x00001000 := by
  have vector : vectorAddress 0 = 0x00001000 := by decide
  have served : service 0 (acknowledge 0 { s with ec := e.code }) = .done () (t.setPc (vectorAddress 0)) :=
    Act.then_done (push32_done bytes)
  simp only [takeException, served, vector]

/-- Settles O43: `push32` and `pop32` byte by byte, then the instructions and the two services that use them. -/
theorem refused_stack_bytes : Obligations.refused_stack_bytes := by
  intro s r c target n met small
  refine ⟨⟨fun t bytes => ?_, fun e t bytes => exec_push_raised (push32_raised bytes)⟩,
    ⟨fun t bytes => ⟨(exec_call met target).trans (complete_push_jump bytes target), ?_⟩, fun e t bytes =>
      ⟨exec_call_raised met target (push32_raised bytes), exec_int_raised small (push32_raised bytes)⟩⟩,
    fun before i delivered running selected => ⟨fun t bytes => step_of_selected_done delivered running selected bytes, ?_⟩,
    fun x ok df none => ⟨fun t bytes => (raise_of_ec_zero ok df none).trans (takeException_done bytes), fun e t bytes =>
      (raise_of_ec_zero ok df none).trans (takeException_refused (push32_raised bytes))⟩,
    ⟨?_, fun e t read => exec_pops_raised met (pop32_raised read)⟩, fun refused => ?_, fun k wf refused => ?_,
    fun k refused => exec_pops_raised met (pop32_refusedAt refused)⟩
  · exact complete_access (push32_done bytes) (AccessKept.stackWrite _ _ _ _ _ bytes)
  · rw [exec_int small, ← vectorAddress_eq]
    exact complete_push_jump bytes _
  · rintro e t u bytes rfl
    exact step_of_selected delivered running selected (serviceInterrupt_raised (push32_raised bytes))
  · rintro bytes t v read rfl
    exact ⟨complete_pop read _, (exec_ret met).trans (complete_pop read _), complete_pop read _⟩
  · simp only [List.forall_mem_cons, List.not_mem_nil, false_implies, implies_true, and_true]
    exact ⟨exec_push_raised (push32_refused refused _), exec_call_raised met target (push32_refused refused _),
      exec_int_raised small (push32_refused refused _)⟩
  · refine ⟨⟨_, pushAbandoned wf _ refused.lt, exec_push_raised (push32_refusedAt refused _)⟩,
      ⟨_, pushAbandoned wf _ refused.lt, exec_call_raised met target (push32_refusedAt refused _),
        exec_int_raised small (push32_refusedAt refused _)⟩, fun before i delivered running selected => ?_⟩
    have acknowledged : (acknowledge i s).PushRefusedAt k := ⟨refused.lt, refused.taken, refused.refused⟩
    exact ⟨_, _, pushAbandoned (s := acknowledge i s) wf _ refused.lt, rfl,
      step_of_selected delivered running selected (serviceInterrupt_raised (push32_refusedAt acknowledged _))⟩

end Sys2Proof.Machine
